-- ==== Sys2Proof/Word.lean ====
section
/-! DEFINITION. The word types of the EEPROM access core (00_scope.md R6, R7, R9). -/

namespace Sys2Proof

/-- A data byte: "an 8-bit unsigned value, full range valid" (R6). -/
abbrev Byte := BitVec 8

/-- An address at the Address Bus Driver, 16 bits (R6). -/
abbrev Addr := BitVec 16

/-- A command word, 26 bits (R82). -/
abbrev CmdWord := BitVec 26

/-- A bit that may hold no value: `none` is the spec's `⊥`, "unknown" (R9). -/
abbrev TBit := Option Bool

/-- A bit vector that "may hold `⊥` in some positions" (R9); element `i` is bit `i` (R7). -/
abbrev Bits (n : Nat) := Vector TBit n

/-- The bit vector nothing has written: `⊥` in every bit (R9). -/
def Bits.unknown (n : Nat) : Bits n := Vector.replicate n none

end Sys2Proof
end

