-- ==== Sys2Proof/Config.lean ====
section
/-! DEFINITION. The implementation parameters (00_scope.md R5), the launch premise (R245) and the free values
(R10 `draw_any`, `draw_time`; R65 `MEM0`). -/

namespace Sys2Proof

/-- `OOR_MODE` (R5, R62): the device's response to an address outside `[0, ADDR_SPACE)`. -/
inductive OorMode where
  /-- `UNDEFINED`: reads draw, a write makes every cell a draw. -/
  | undefinedResult
  /-- `ALIAS`: the device uses the wired lines and ignores the upper ones. -/
  | aliased
  deriving DecidableEq, Repr

/-- The parameters of R5 (times in µs). `ADDR_SPACE` is `2^ADDR_BITS` by R5's constraint and so no field
(`Config.addrSpace`; log 17); `CHAIN_BITS` is fixed at 16; `MEM0` is `Config.mem0`. -/
structure Config where
  /-- `T_STROBE`: minimum write-strobe hold. -/
  tStrobe : Nat
  /-- `T_RECOVERY`: minimum write-recovery wait. -/
  tRecovery : Nat
  /-- `T_SETTLE`: startup settle delay. -/
  tSettle : Nat
  /-- `ADDR_BITS`: address lines wired from the chain to the device. -/
  addrBits : Nat
  /-- `READ_EXIT_DEASSERT`: READ deasserts OE then CE before completing. -/
  readExitDeassert : Bool
  /-- `T_READ_ACCESS`: wait between OE assert and the first sample. -/
  tReadAccess : Nat
  /-- `T_ACCESS_DEV`: device output valid this long after its last select change. -/
  tAccessDev : Nat
  /-- `T_WP_DEV`: minimum write-pulse width the device needs. -/
  tWpDev : Nat
  /-- `T_WC_DEV`: the device's internal write-cycle time. -/
  tWcDev : Nat
  /-- `OOR_MODE`. -/
  oorMode : OorMode
  deriving DecidableEq, Repr

/-- `ADDR_SPACE = 2^ADDR_BITS`, the device's size in bytes (R5, decision D36). -/
def Config.addrSpace (c : Config) : Nat := 2 ^ c.addrBits

/-- The reference configuration (R5, column "reference value"). -/
def Config.reference : Config where
  tStrobe := 10
  tRecovery := 10000
  tSettle := 1000000
  addrBits := 11
  readExitDeassert := false
  tReadAccess := 0
  tAccessDev := 0
  tWpDev := 10
  tWcDev := 10000
  oorMode := .undefinedResult

/-- The launch premise `cfg_ok` (R245). -/
abbrev Config.CfgOk (c : Config) : Prop :=
  c.tWpDev ≤ c.tStrobe ∧ c.tWcDev ≤ c.tRecovery ∧ c.tWcDev ≤ c.tSettle ∧ c.tAccessDev ≤ c.tReadAccess ∧
    1 ≤ c.addrBits ∧ c.addrBits ≤ 16 ∧ c.addrSpace = 2 ^ c.addrBits

/-- `MEM0`, the device array at launch (R5, R65): "No value can be chosen", so it has no body (log 5). -/
opaque Config.mem0 : Nat → Byte

/-- The free part of `draw_time(>= n)` (R10): the `k`-th draw of a run is `n + freeTime k` (log 4). -/
opaque Config.freeTime : Nat → Nat

/-- `draw_any(bit)` (R10): the `k`-th draw of a run, if it is a bit (log 4). -/
opaque Config.freeBit : Nat → Bool

/-- `draw_any(byte)` (R10): the `k`-th draw of a run, if it is a byte (log 4). -/
opaque Config.freeByte : Nat → Byte

end Sys2Proof
end

