-- ==== Sys2Proof/Machine/State.lean ====
section
/-! DEFINITION. The state of the four agents CTRL, CHAIN, DEV and HOST (00_scope.md R11; 10_state.md R20-R44), the
trace and the marks, the two reason types of a step, and the state after reset. -/

namespace Sys2Proof.Machine

/-- The FSM's activity (R20). -/
inductive Phase where
  | startup
  | ready
  | read
  | write
  | latch
  deriving DecidableEq, Repr

/-- The direction of one data line (R26). -/
inductive Dir where
  | input
  | output
  deriving DecidableEq, Repr

/-- The output lines whose changes the trace records as `PIN` events (R40). -/
inductive PinName where
  | ceN
  | oeN
  | weN
  | ser
  | sclk
  | rclk
  deriving DecidableEq, Repr

/-- The set of cells of a `CORRUPT` event (R40, R58), in the order they are made draws (log 11). -/
inductive CellSet where
  /-- Every cell of `mem`. -/
  | all
  /-- The named cells. -/
  | cells (as : List Nat)
  deriving DecidableEq, Repr

/-- The kinds of trace event (R40). A level is `true` for 1. -/
inductive EventKind where
  /-- `PIN(name, level)` -/
  | pin (name : PinName) (level : Bool)
  /-- `DIR(d)` -/
  | dir (d : Dir)
  /-- `DOUT(i, b)` -/
  | dout (i : Fin 8) (b : TBit)
  /-- `SAMPLE(i, b)` -/
  | sample (i : Fin 8) (b : Bool)
  /-- `WAIT(n, d)`, requested `n`, drawn `d` -/
  | wait (n d : Nat)
  /-- `ACCEPT(op, addr, data)` -/
  | accept (op : BitVec 2) (addr : Addr) (data : Byte)
  /-- `RSP(op, v)`, `v = none` for a response without data -/
  | rsp (op : Phase) (v : Option (Bits 8))
  /-- `RESET` -/
  | reset
  /-- `COMMIT(a, v)` -/
  | commit (a : Nat) (v : Byte)
  /-- `CORRUPT(set)` -/
  | corrupt (set : CellSet)
  deriving DecidableEq, Repr

/-- An event with its time: "Each event carries its time" (R40). -/
structure Event where
  kind : EventKind
  time : Nat
  deriving DecidableEq, Repr

/-- The model fault codes (R201). They are marks in `State.faults`, never signalled by hardware (R200, R204). -/
inductive FaultCode where
  /-- `F1_CONTENTION` -/
  | f1Contention
  /-- `F2_OE_WE` -/
  | f2OeWe
  /-- `F3_DIR_CHANGE_ENABLED` -/
  | f3DirChangeEnabled
  /-- `F4_WRITE_UNSTABLE` -/
  | f4WriteUnstable
  /-- `F5_ADDR_UNDEFINED` -/
  | f5AddrUndefined
  deriving DecidableEq, Repr

/-- An element of `faults`: the code "with the index of the event that raised it" (R201; log 10). -/
structure FaultMark where
  code : FaultCode
  event : Nat
  deriving DecidableEq, Repr

/-- The refusal reasons of `refused` (R210). -/
inductive RefusalReason where
  /-- `REFUSED_RESERVED_OP` -/
  | reservedOp
  deriving DecidableEq, Repr

/-- One move HOST makes while the block is READY (R103, R104, R110). -/
inductive HostMove where
  /-- Present this command word until it is accepted (R81, R104). -/
  | command (w : CmdWord)
  /-- Let `d` µs pass (R103). -/
  | idle (d : Nat)
  deriving DecidableEq, Repr

/-- The device array as its listed cells: those that do not hold what an unlisted cell reads as (log 5). -/
abbrev Memory := List Host.Cell

/-- CTRL's state (R20-R28). -/
structure Ctrl where
  /-- `phase` (R20) -/
  phase : Phase
  /-- `upc` (R21) -/
  upc : Nat
  /-- `cmd_addr` (R22) -/
  cmdAddr : Bits 16
  /-- `cmd_data` (R23) -/
  cmdData : Bits 8
  /-- `rdata` (R24) -/
  rdata : Bits 8
  /-- `ce_n` (R25): `false` is level 0, ASSERTED (R8, R88) -/
  ceN : Bool
  /-- `oe_n` (R25) -/
  oeN : Bool
  /-- `we_n` (R25) -/
  weN : Bool
  /-- `dir[7:0]` (R26) -/
  dir : Vector Dir 8
  /-- `dout[7:0]` (R27) -/
  dout : Bits 8
  /-- `ser` (R28) -/
  ser : Bool
  /-- `sclk` (R28) -/
  sclk : Bool
  /-- `rclk` (R28) -/
  rclk : Bool
  deriving DecidableEq, Repr

/-- CHAIN's state: the spec's `chain[15:0]` and `storage[15:0]` (R31, R32). -/
structure Chain where
  /-- `chain[15:0]` (R31): cell 0 is bits 7..0, cell 1 bits 15..8 -/
  shift : Bits 16
  /-- `storage[15:0]` (R32), the address lines `A[15:0]` (R33) -/
  storage : Bits 16
  deriving DecidableEq, Repr

/-- DEV's state (R35-R38). A field at `none`, or a bit at `none`, is the spec's `⊥` (R9; log 7). -/
structure Dev where
  /-- `mem` (R35) -/
  mem : Memory
  /-- `busy_until` (R36) -/
  busyUntil : Nat
  /-- `wc_addr` (R36) -/
  wcAddr : Bits 16
  /-- `pulse_active` (R37) -/
  pulseActive : Bool
  /-- `pulse_start` (R37) -/
  pulseStart : Option Nat
  /-- `pulse_addr` (R37) -/
  pulseAddr : Bits 16
  /-- `pulse_data` (R37) -/
  pulseData : Bits 8
  /-- `pulse_busy_at_start` (R37) -/
  pulseBusyAtStart : Option Bool
  /-- `pulse_unstable` (R37) -/
  pulseUnstable : Bool
  /-- `last_sel_change` (R38) -/
  lastSelChange : Nat
  deriving DecidableEq, Repr

/-- CTRL after a reset (R44, R230). -/
def Ctrl.reset : Ctrl where
  phase := .startup
  upc := 0
  cmdAddr := Bits.unknown 16
  cmdData := Bits.unknown 8
  rdata := Bits.unknown 8
  ceN := true
  oeN := true
  weN := true
  dir := Vector.replicate 8 .input
  dout := Bits.unknown 8
  ser := false
  sclk := false
  rclk := false

/-- CHAIN after a reset (R44, R230). -/
def Chain.reset : Chain where
  shift := Bits.unknown 16
  storage := Bits.unknown 16

/-- DEV at launch (R44; R36-R38); its array is `MEM0` (R35, R65), nothing listed. Reset does not touch DEV (R230). -/
def Dev.launch : Dev where
  mem := []
  busyUntil := 0
  wcAddr := Bits.unknown 16
  pulseActive := false
  pulseStart := none
  pulseAddr := Bits.unknown 16
  pulseData := Bits.unknown 8
  pulseBusyAtStart := none
  pulseUnstable := false
  lastSelChange := 0

/-- The machine: the four agents (R11), time, trace and marks (R39-R41), and the configuration (R5, R43). -/
structure State where
  /-- The parameters (R5, R43): no step writes them (log 3). -/
  cfg : Config
  ctrl : Ctrl
  chain : Chain
  dev : Dev
  /-- `now` (R39) -/
  now : Nat
  /-- `trace` (R40), oldest event first -/
  trace : List Event
  /-- `faults` (R41, R201), oldest mark first, no code twice (log 10) -/
  faults : List FaultMark
  /-- `refused` (R41, R210), no reason twice -/
  refused : List RefusalReason
  /-- HOST's moves not yet made, the next one first (log 2). -/
  host : List HostMove
  /-- HOST's resets not yet asserted: each the number of CTRL events that come before it, counted from the reset
  before it (log 2). -/
  rst : List Nat
  /-- The model's own count of draws taken, which makes every draw a fresh one (R10; log 4). -/
  draws : Nat
  deriving DecidableEq, Repr

/-- Why the model stops. -/
inductive Fault where
  /-- Raised by `step` where `upc` is past the end of the running phase's table. R109 says this never happens
  ("`upc` never passes the end of a table"), so the spec gives no effect. Safe: the model stops. -/
  | upcPastTable
  deriving DecidableEq, Repr

/-- Why the model refuses an instruction. -/
inductive Refusal where
  /-- Raised by `exec` for an instruction that has no meaning yet. Safe: the model stops. -/
  | notModelled (mnemonic : String)
  deriving DecidableEq, Repr

/-- The launch state (R44): "`now = 0` and `trace = []` at launch", no prior pin activity, DEV at its launch values. -/
def State.launch : State where
  cfg := Config.reference
  ctrl := Ctrl.reset
  chain := Chain.reset
  dev := Dev.launch
  now := 0
  trace := []
  faults := []
  refused := []
  host := []
  rst := []
  draws := 0

/-- The machine right after the power-on reset (R44, R230): the launch state after its one reset event, whose gap is the
run's first draw (log 6). -/
def State.reset : State :=
  { State.launch with
    now := Config.freeTime 0
    trace := [⟨.reset, Config.freeTime 0⟩]
    draws := 1 }

end Sys2Proof.Machine
end

