-- ==== Sys2Proof/Machine/Bits.lean ====
section
/-! DEFINITION. Operations on bit vectors with unknown bits (00_scope.md R7, R9). -/

namespace Sys2Proof.Machine

/-- A vector of known bits (R7). -/
def Bits.ofBitVec {n : Nat} (v : BitVec n) : Bits n := Vector.ofFn fun i => some (v.getLsbD i)

/-- No bit is `⊥`. -/
def Bits.known {n : Nat} (v : Bits n) : Bool := v.toList.all Option.isSome

/-- The value of a vector with no `⊥` bit; `none` if it has one. -/
def Bits.value? {n : Nat} (v : Bits n) : Option (BitVec n) :=
  if Bits.known v then some (BitVec.ofFnLE fun i => v[i].getD false) else none

/-- `v[n-2:0] ++ b`: every bit moves one place up, the top bit is lost, `b` enters at bit 0 (R123, R145). "A `⊥` bit
moves like any other bit" (R123). -/
def Bits.shiftIn {n : Nat} (v : Bits n) (b : TBit) : Bits n :=
  Vector.ofFn fun i => if i.val = 0 then b else v[i.val - 1]

/-- `v[i] <- b`, the other bits kept (R144). -/
def Bits.setBit {n : Nat} (v : Bits n) (i : Fin n) (b : TBit) : Bits n := v.set i b

/-- The low `k` bits, bit 0 first: the wired address lines for `k = ADDR_BITS` (R33, R51). -/
def Bits.low {n : Nat} (k : Nat) (v : Bits n) : List TBit := v.toList.take k

end Sys2Proof.Machine
end

