-- ==== Sys2Proof/Machine/Memory.lean ====
section
/-! DEFINITION. The device array `mem` (10_state.md R35; 20_memory.md R50, R55, R58, R65): a list of cells in one
canonical form. -/

namespace Sys2Proof.Machine

/-- What a cell reads as that no entry lists: its launch value `MEM0` (R35, R65; log 5). -/
def unlistedByte (a : Nat) : Byte := Config.mem0 a

/-- `MemRead(a, 1) = mem[a]` (R10, R55). -/
def Memory.read : Memory → Nat → Byte
  | [], a => unlistedByte a
  | (b, v) :: m, a => if a = b then v else Memory.read m a

/-- Put cell `a` before the cells `m`, unless it holds what an unlisted cell reads as. -/
def Memory.cons (a : Nat) (v : Byte) (m : Memory) : Memory :=
  if v = unlistedByte a then m else (a, v) :: m

/-- `MemWrite(a, 1, v) = (mem[a] <- v)` (R10, R58). -/
def Memory.write : Memory → Nat → Byte → Memory
  | [], a, v => Memory.cons a v []
  | (b, w) :: m, a, v =>
    if a < b then Memory.cons a v ((b, w) :: m)
    else if a = b then Memory.cons a v m
    else (b, w) :: Memory.write m a v

/-- The array of `n` cells whose cell `a` holds `f a`, built upward from cell `lo`. -/
def Memory.fillFrom (f : Nat → Byte) : Nat → Nat → Memory
  | _, 0 => []
  | lo, n + 1 => Memory.cons lo (f lo) (Memory.fillFrom f (lo + 1) n)

/-- `for every cell c: mem[c] <- f c` on an array of `size` cells (R58, R62). -/
def Memory.fill (size : Nat) (f : Nat → Byte) : Memory := Memory.fillFrom f 0 size

/-- The cells' addresses rise strictly, and none lists what an unlisted cell reads as. -/
def Memory.wf : Memory → Bool
  | [] => true
  | (a, v) :: m => decide (v ≠ unlistedByte a) && m.all (fun c => decide (a < c.1)) && Memory.wf m

/-- Every listed cell is a cell of an array of `size` bytes: addresses `0 .. size-1` (R50). -/
def Memory.within (size : Nat) (m : Memory) : Bool := m.all fun c => decide (c.1 < size)

end Sys2Proof.Machine
end

