-- ==== Sys2Proof/Machine/Flags.lean ====
section
/-! DEFINITION. The conditions computed from the state. The block has no flags or condition codes (10_state.md R42);
these are its derived levels and status (R8, R29, R33, R34, R36) and the sticky marks (R41, R201, R210). -/

namespace Sys2Proof.Machine

/-- `ce`: CE is ASSERTED, `ce_n = 0` (R8). -/
def Ctrl.ce (c : Ctrl) : Bool := !c.ceN

/-- `oe`: OE is ASSERTED (R8). -/
def Ctrl.oe (c : Ctrl) : Bool := !c.oeN

/-- `we`: WE is ASSERTED (R8). -/
def Ctrl.we (c : Ctrl) : Bool := !c.weN

/-- `dev_drives = ce ∧ oe ∧ ¬we` (R34). -/
def Ctrl.devDrives (c : Ctrl) : Bool := c.ce && c.oe && !c.we

/-- The interval of a write pulse: "CE and WE are both asserted" (R57). -/
def Ctrl.strobing (c : Ctrl) : Bool := c.ce && c.we

/-- Some data line is an OUTPUT: `exists i: dir[i] = OUTPUT` (R54 step 3). -/
def Ctrl.drivesSomeLine (c : Ctrl) : Bool := c.dir.toList.any fun d => decide (d = .output)

/-- `cmd_ready = (phase = READY)` (R29). -/
def State.cmdReady (s : State) : Bool := decide (s.ctrl.phase = .ready)

/-- `busy = (now < busy_until)` (R36). -/
def State.busy (s : State) : Bool := decide (s.now < s.dev.busyUntil)

/-- The index of the event in progress: its position in the trace (R201; log 10). -/
def State.eventIndex (s : State) : Nat := s.trace.length

/-- `raise Fault(F)`: add F to the sticky set `faults` with the index of the event that raised it (R10, R201). -/
def State.raiseFault (f : FaultCode) (event : Nat) (s : State) : State :=
  if s.faults.any (fun m => decide (m.code = f)) then s else { s with faults := s.faults ++ [⟨f, event⟩] }

/-- `refuse(Rz)`: add the reason to the sticky set `refused` (R10, R210). -/
def State.refuse (r : RefusalReason) (s : State) : State :=
  if r ∈ s.refused then s else { s with refused := s.refused ++ [r] }

end Sys2Proof.Machine
end

