-- ==== Sys2Proof/Machine/Operands.lean ====
section
/-! DEFINITION. Operands and resolved values: the device address (20_memory.md R51, R58, R62), the driven data byte
(R57), the data lines (10_state.md R34, 20_memory.md R55, R56). -/

namespace Sys2Proof.Machine

/-- `a[ADDR_BITS-1:0]` as a cell number (R51, R58); `none` if an address bit is `⊥`. -/
def wiredCell? (c : Config) (a : Bits 16) : Option Nat :=
  (Bits.value? a).map fun v => v.toNat % c.addrSpace

/-- `in_range`: `a[15:ADDR_BITS] = 0`, that is `zext_16(a) < ADDR_SPACE` (R51); false if an address bit is `⊥`. -/
def inRange (c : Config) (a : Bits 16) : Bool :=
  match Bits.value? a with
  | some v => decide (v.toNat < c.addrSpace)
  | none => false

/-- The cell an access at the address lines `a` reaches: `none` where the address is out of range and `OOR_MODE` is
UNDEFINED (R62), and where a bit of the address is `⊥` (log 8). -/
def reachedCell? (c : Config) (a : Bits 16) : Option Nat :=
  if inRange c a || decide (c.oorMode = .aliased) then wiredCell? c a else none

/-- One named cell, or every cell where the address names none. -/
def CellSet.ofCell? : Option Nat → CellSet
  | some a => .cells [a]
  | none => .all

/-- Both sets of cells, the first one's first. -/
def CellSet.union : CellSet → CellSet → CellSet
  | .cells as, .cells bs => .cells (as ++ bs)
  | .all, _ => .all
  | _, .all => .all

/-- The data a write pulse captures: `dout[i] if dir[i] = OUTPUT else ⊥` (R57). -/
def Ctrl.drivenData (c : Ctrl) : Bits 8 := Vector.ofFn fun i => if c.dir[i] = .output then c.dout[i] else none

/-- `dev_out(i)` (R55): the level the device puts on line `i`, `none` where the rule gives a draw. -/
def State.devOut? (s : State) (i : Fin 8) : TBit :=
  if s.busy then none
  else if s.now - s.dev.lastSelChange < s.cfg.tAccessDev then none
  else (reachedCell? s.cfg s.chain.storage).map fun a => (Memory.read s.dev.mem a).getLsbD i

/-- The resolved level of data line `i` (R34). -/
inductive LineLevel where
  /-- Device and CTRL both drive the line: fault F1 (R201). -/
  | contention
  /-- CTRL drives `dout[i]`, which may be `⊥`. -/
  | driven (b : TBit)
  /-- The device drives `dev_out(i)`; `none` is a draw (R55). -/
  | device (b : TBit)
  /-- Nobody drives the line (R56). -/
  | floating
  deriving DecidableEq, Repr

/-- `line(i)` (R34). -/
def State.line (s : State) (i : Fin 8) : LineLevel :=
  if s.ctrl.dir[i] = .output then
    if s.ctrl.devDrives then .contention else .driven s.ctrl.dout[i]
  else if s.ctrl.devDrives then .device (s.devOut? i)
  else .floating

/-- What `SAMPLE(i)` reads, `none` where it is a draw (R145, R56). -/
def State.sampled? (s : State) (i : Fin 8) : TBit :=
  if s.ctrl.dir[i] = .output then s.ctrl.dout[i]
  else if s.ctrl.devDrives then s.devOut? i
  else none

/-- The address lines `A[15:0] = storage[15:0]` (R33, R80). -/
def State.addressLines (s : State) : Bits 16 := s.chain.storage

/-- The port `cmd_word` with `cmd_valid` (R80): the word HOST presents, `none` when `cmd_valid = 0`. -/
def State.cmdWord? (s : State) : Option CmdWord :=
  match s.host with
  | .command w :: _ => some w
  | _ => none

end Sys2Proof.Machine
end

