-- ==== Sys2Proof/Machine/Ops.lean ====
section
/-! DEFINITION. The shared operations: time, draws and trace (00_scope.md R10; 40_sequencer.md R101), the reaction of
CHAIN and DEV to an event (20_memory.md R54), reset (70_reset_and_hazards.md R230). The hardware takes no exceptions
and has no return from one (60_exceptions.md R200, R204, R205); what the spec has in their place is `raise Fault`
(`State.raiseFault`), which marks the run and lets the event go on (R201, R202). -/

namespace Sys2Proof.Machine

/-- `emit(ev)` (R10, R40), at the current time. -/
def State.emit (k : EventKind) (s : State) : State := { s with trace := s.trace ++ [⟨k, s.now⟩] }

/-- Let a drawn time of at least `n` pass: `advance(draw_time(>= n))` (R10). -/
def State.passTime (n : Nat) (s : State) : State :=
  { s with now := s.now + (n + Config.freeTime s.draws), draws := s.draws + 1 }

/-- One CTRL event nearer to HOST's next reset (R80 `rst`; log 2). -/
def countDown : List Nat → List Nat
  | (n + 1) :: rs => n :: rs
  | rs => rs

/-- The start of every CTRL event: the gap of R101, and HOST's reset plan counts the event. -/
def State.beginEvent (s : State) : State := { s.passTime 0 with rst := countDown s.rst }

/-- The cells of `as`, in turn, become fresh draws. -/
def corruptCells : List Nat → State → State
  | [], s => s
  | a :: as, s =>
    corruptCells as
      { s with dev.mem := Memory.write s.dev.mem a (Config.freeByte s.draws), draws := s.draws + 1 }

/-- The cells of the set become fresh draws, with the event `CORRUPT(set)` (R58, R60-R62, R73). -/
def State.corrupt (set : CellSet) (s : State) : State :=
  match set with
  | .cells as => (corruptCells as s).emit (.corrupt (.cells as))
  | .all =>
    State.emit (.corrupt .all)
      { s with
        dev.mem := Memory.fill s.cfg.addrSpace (fun a => Config.freeByte (s.draws + a))
        draws := s.draws + s.cfg.addrSpace }

/-- `MemWrite(a, 1, v)` with the event `COMMIT(a, v)` (R58). -/
def State.commit (a : Nat) (v : Byte) (s : State) : State :=
  State.emit (.commit a v) { s with dev.mem := Memory.write s.dev.mem a v }

/-- What a pulse end does to `mem` (R58). A `⊥` in `pulse_busy_at_start` counts as busy and a `⊥` in `pulse_start` as
too short: those branches leave the cells they name at any value (log 9). -/
def State.pulseStore (s : State) : State :=
  if s.dev.pulseBusyAtStart ≠ some false then
    s.corrupt (.union (.ofCell? (wiredCell? s.cfg s.dev.wcAddr)) (.ofCell? (reachedCell? s.cfg s.dev.pulseAddr)))
  else
    match reachedCell? s.cfg s.dev.pulseAddr with
    | none => s.corrupt .all
    | some a =>
      if s.dev.pulseUnstable then s.corrupt (.union (.cells [a]) (.ofCell? (wiredCell? s.cfg s.chain.storage)))
      else
        match s.dev.pulseStart, Bits.value? s.dev.pulseData with
        | some t, some v => if s.now - t < s.cfg.tWpDev then s.corrupt (.cells [a]) else s.commit a v
        | _, _ => s.corrupt (.cells [a])

/-- Write-pulse end (R58) and the start of the busy window (R59). -/
def State.pulseEnd (s : State) : State :=
  let s1 := s.pulseStore
  { s1 with
    dev.busyUntil := s1.now + s1.cfg.tWcDev
    dev.wcAddr := s1.dev.pulseAddr
    dev.pulseActive := false
    dev.pulseUnstable := false }

/-- Write-pulse start (R57). -/
def State.pulseBegin (s : State) : State :=
  { s with
    dev.pulseActive := true
    dev.pulseStart := some s.now
    dev.pulseAddr := s.chain.storage
    dev.pulseData := s.ctrl.drivenData
    dev.pulseBusyAtStart := some s.busy
    dev.pulseUnstable := false }

/-- The event changed `storage`, `dir` or `dout` at some bit (R73). -/
def writeInputsChanged (old s : State) : Bool :=
  decide (old.chain.storage ≠ s.chain.storage) || decide (old.ctrl.dir ≠ s.ctrl.dir) ||
    decide (old.ctrl.dout ≠ s.ctrl.dout)

/-- Write-pulse stability (R73). -/
def pulseHeld (old s : State) : State :=
  if writeInputsChanged old s then
    { s.raiseFault .f4WriteUnstable old.eventIndex with dev.pulseUnstable := true }
  else s

/-- `chain` after the event: shifted once on an SCLK rising edge, SER's level after the µop entering cell 0 (R123). -/
def Chain.shifted (old new : Ctrl) (c : Chain) : Bits 16 :=
  if !old.sclk && new.sclk then Bits.shiftIn c.shift (some new.ser) else c.shift

/-- CHAIN's reaction (R54 step 1): the shift of R123, then the transfer of R125, all 16 bits in the one event, on an
RCLK rising edge. -/
def Chain.react (old new : Ctrl) (c : Chain) : Chain where
  shift := c.shifted old new
  storage := if !old.rclk && new.rclk then c.shifted old new else c.storage

/-- The fault checks of R54 steps 2, 3 and 4, in that order (R202). -/
def State.checkFaults (event : Nat) (s : State) : State :=
  let s2 := if s.ctrl.oe && s.ctrl.we then s.raiseFault .f2OeWe event else s
  let s3 := if s.ctrl.devDrives && s.ctrl.drivesSomeLine then s2.raiseFault .f1Contention event else s2
  if s.ctrl.ce && (s.ctrl.oe || s.ctrl.we) && !Bits.known s.chain.storage then
    s3.raiseFault .f5AddrUndefined event
  else s3

/-- "wired address lines, ce or oe differ between s_old and s" (R54 step 5). -/
def selectChanged (old s : State) : Bool :=
  decide (Bits.low s.cfg.addrBits old.chain.storage ≠ Bits.low s.cfg.addrBits s.chain.storage) ||
    decide (old.ctrl.ceN ≠ s.ctrl.ceN) || decide (old.ctrl.oeN ≠ s.ctrl.oeN)

/-- `last_sel_change <- now` at a select change (R54 step 5, R38). -/
def noteSelect (old s : State) : State :=
  if selectChanged old s then { s with dev.lastSelChange := s.now } else s

/-- The write-pulse rules (R54 step 6). -/
def pulseReact (old s : State) : State :=
  match old.dev.pulseActive, s.ctrl.strobing with
  | false, true => s.pulseBegin
  | true, true => pulseHeld old s
  | true, false => s.pulseEnd
  | false, false => s

/-- `dev_react(s_old, s)` (R54): CHAIN and DEV react "After every CTRL event". -/
def devReact (old s : State) : State :=
  let s1 : State := { s with chain := s.chain.react old.ctrl s.ctrl }
  let s2 := s1.checkFaults old.eventIndex
  pulseReact old (noteSelect old s2)

/-- "set every CTRL and CHAIN field to its value in 10_state.md rule R44" after the gap (R230). HOST's first planned
reset is taken off its plan. -/
def State.resetFields (s : State) : State :=
  { s.passTime 0 with ctrl := Ctrl.reset, chain := Chain.reset, rst := s.rst.tail }

/-- The reset event (R230): DEV, `now`, `trace`, `faults` and `refused` are kept but for `dev_react`. -/
def State.resetEvent (s : State) : State := devReact s (s.resetFields.emit .reset)

end Sys2Proof.Machine
end

