-- ==== Sys2Proof/Machine/Uops.lean ====
section
/-! DEFINITION. The µops (40_sequencer.md R102): the address driver's (41_address_driver.md R120, R122, R124), the
access protocol's (42_access_protocol.md R140-R145), WAIT and DONE (40_sequencer.md R106, R107). -/

namespace Sys2Proof.Machine

/-- The logical value of a control line (R8, R88). -/
inductive Drive where
  | asserted
  | deasserted
  deriving DecidableEq, Repr

/-- The µop kinds (R102). SET_SER's operand is a bit of `cmd_addr` (R126), which may be `⊥` (R22). -/
inductive Uop where
  | setSer (b : TBit)
  | setSclk (b : Bool)
  | setRclk (b : Bool)
  | setCe (x : Drive)
  | setOe (x : Drive)
  | setWe (x : Drive)
  | setDir (d : Dir)
  | setDout (i : Fin 8)
  | sample (i : Fin 8)
  | wait (n : Nat)
  | done
  deriving DecidableEq, Repr

/-- The pin level of an active-low control line: 0 if ASSERTED, else 1 (R8, R140-R142). -/
def Drive.level : Drive → Bool
  | .asserted => false
  | .deasserted => true

/-- `SET_SER(b)` (R120). A `⊥` operand gives a drawn level (R9; log 12). -/
def State.setSer (b : TBit) (s : State) : State :=
  match b with
  | some l => State.emit (.pin .ser l) { s with ctrl.ser := l }
  | none =>
    State.emit (.pin .ser (Config.freeBit s.draws))
      { s with ctrl.ser := Config.freeBit s.draws, draws := s.draws + 1 }

/-- `SET_SCLK(b)` (R122). -/
def State.setSclk (b : Bool) (s : State) : State := State.emit (.pin .sclk b) { s with ctrl.sclk := b }

/-- `SET_RCLK(b)` (R124). -/
def State.setRclk (b : Bool) (s : State) : State := State.emit (.pin .rclk b) { s with ctrl.rclk := b }

/-- `SET_CE(x)` (R140). -/
def State.setCe (x : Drive) (s : State) : State := State.emit (.pin .ceN x.level) { s with ctrl.ceN := x.level }

/-- `SET_OE(x)` (R141). -/
def State.setOe (x : Drive) (s : State) : State := State.emit (.pin .oeN x.level) { s with ctrl.oeN := x.level }

/-- `SET_WE(x)` (R142). -/
def State.setWe (x : Drive) (s : State) : State := State.emit (.pin .weN x.level) { s with ctrl.weN := x.level }

/-- F3's condition at SET_DIR: `(oe or we) and (exists i: dir[i] != d)` (R143). -/
def Ctrl.dirChangeEnabled (d : Dir) (c : Ctrl) : Bool :=
  (c.oe || c.we) && c.dir.toList.any fun e => decide (e ≠ d)

/-- `SET_DIR(d)` (R143): the check F3 comes before the µop's writes (R202); all eight lines switch together. -/
def State.setDir (d : Dir) (s : State) : State :=
  let s1 := if s.ctrl.dirChangeEnabled d then s.raiseFault .f3DirChangeEnabled s.eventIndex else s
  State.emit (.dir d) { s1 with ctrl.dir := Vector.replicate 8 d }

/-- `SET_DOUT(i)` (R144). -/
def State.setDout (i : Fin 8) (s : State) : State :=
  State.emit (.dout i s.ctrl.cmdData[i]) { s with ctrl.dout := Bits.setBit s.ctrl.dout i s.ctrl.cmdData[i] }

/-- `SAMPLE(i)` (R145). -/
def State.sample (i : Fin 8) (s : State) : State :=
  match s.sampled? i with
  | some b => State.emit (.sample i b) { s with ctrl.rdata := Bits.shiftIn s.ctrl.rdata (some b) }
  | none =>
    State.emit (.sample i (Config.freeBit s.draws))
      { s with
        ctrl.rdata := Bits.shiftIn s.ctrl.rdata (some (Config.freeBit s.draws))
        draws := s.draws + 1 }

/-- `WAIT(n)` (R106): the drawn duration, `n` or more, is the time that passes. -/
def State.wait (n : Nat) (s : State) : State :=
  (s.passTime n).emit (.wait n (n + Config.freeTime s.draws))

/-- The data of a response: `rdata` for READ, else none (R30, R107). -/
def Ctrl.response (c : Ctrl) : Option (Bits 8) := if c.phase = .read then some c.rdata else none

/-- `DONE` (R107). -/
def State.done (s : State) : State :=
  let s1 := if s.ctrl.phase = .startup then s else s.emit (.rsp s.ctrl.phase s.ctrl.response)
  { s1 with ctrl.phase := .ready, ctrl.upc := 0 }

/-- The µop's own effect, without the gap, the advance of `upc` and the reaction. -/
def execUop : Uop → State → State
  | .setSer b, s => s.setSer b
  | .setSclk b, s => s.setSclk b
  | .setRclk b, s => s.setRclk b
  | .setCe x, s => s.setCe x
  | .setOe x, s => s.setOe x
  | .setWe x, s => s.setWe x
  | .setDir d, s => s.setDir d
  | .setDout i, s => s.setDout i
  | .sample i, s => s.sample i
  | .wait n, s => s.wait n
  | .done, s => s.done

/-- "if µ is not DONE: upc <- upc + 1" (R100). -/
def advanceUpc : Uop → State → State
  | .done, s => s
  | _, s => { s with ctrl.upc := s.ctrl.upc + 1 }

end Sys2Proof.Machine
end

