-- ==== Sys2Proof/Machine/Sequencer.lean ====
section
/-! DEFINITION. The µop tables (40_sequencer.md R102, R108; 41_address_driver.md R126, R127; 42_access_protocol.md
R146-R148), the CTRL step (40_sequencer.md R100) and a table's run. -/

namespace Sys2Proof.Machine

/-- The three µops that shift bit `m` of the serial stream, `a[15 - m]` (R126). -/
def latchBit (a : Bits 16) (m : Fin 16) : List Uop :=
  [.setSer a[15 - m.val], .setSclk true, .setSclk false]

/-- `LATCH_SEQ(a)` (R126): 16 bits, bit 15 first (R90), then one RCLK pulse. -/
def latchSeq (a : Bits 16) : List Uop :=
  (List.finRange 16).flatMap (latchBit a) ++ [Uop.setRclk true, Uop.setRclk false]

/-- The defensive reset (R146): k = 0, 1, 2 of READ and WRITE. -/
def defensiveReset : List Uop := [.setCe .deasserted, .setOe .deasserted, .setWe .deasserted]

/-- Data lines 7, 6, ..., 0: the order of driving and sampling (R52, R89). -/
def linesDown : List (Fin 8) := [7, 6, 5, 4, 3, 2, 1, 0]

/-- The STARTUP table (R108). -/
def startupTable (c : Config) : List Uop := [.wait c.tSettle, .done]

/-- The LATCH table (R127). -/
def latchTable (a : Bits 16) : List Uop := latchSeq a ++ [Uop.done]

/-- The READ table's last rows: with READ_EXIT_DEASSERT it deasserts OE, then CE (R147). -/
def readExit (c : Config) : List Uop :=
  if c.readExitDeassert then [.setOe .deasserted, .setCe .deasserted, .done] else [.done]

/-- The READ table (R147). -/
def readTable (c : Config) (a : Bits 16) : List Uop :=
  defensiveReset ++ Uop.setDir .input :: latchSeq a ++
    Uop.setCe .asserted :: Uop.setOe .asserted :: Uop.wait c.tReadAccess ::
    linesDown.map Uop.sample ++ readExit c

/-- The WRITE table (R148). -/
def writeTable (c : Config) (a : Bits 16) : List Uop :=
  defensiveReset ++ Uop.setDir .output :: latchSeq a ++ linesDown.map Uop.setDout ++
    [Uop.setCe .asserted, Uop.setWe .asserted, Uop.wait c.tStrobe, Uop.setWe .deasserted, Uop.setCe .deasserted,
      Uop.wait c.tRecovery, Uop.done]

/-- The table of a phase for the latched address (R102); READY has none. -/
def table (c : Config) (a : Bits 16) : Phase → List Uop
  | .startup => startupTable c
  | .ready => []
  | .read => readTable c a
  | .write => writeTable c a
  | .latch => latchTable a

/-- `uprog(phase, upc)` (R102). -/
def State.currentUop (s : State) : Option Uop := (table s.cfg s.ctrl.cmdAddr s.ctrl.phase)[s.ctrl.upc]?

/-- The CTRL step with µop `u` (R100): gap, µop, advance of `upc`, reaction. -/
def ctrlStep (u : Uop) (s : State) : State := devReact s (advanceUpc u (execUop u s.beginEvent))

/-- The CTRL steps of the µops, one after the other, no reset among them. -/
def steps (us : List Uop) (s : State) : State := us.foldl (fun t u => ctrlStep u t) s

/-- HOST asserts `rst` now, before the next CTRL event (R230: "enabled in every state"; log 2). -/
def State.rstDue (s : State) : Bool := decide (s.rst.head? = some 0)

/-- The CTRL steps of the µops, in order, to the end or to HOST's reset, which "ends it with no RSP" (R246). -/
def runTable : List Uop → State → State
  | [], s => s
  | u :: us, s => if s.rstDue then s.resetEvent else runTable us (ctrlStep u s)

/-- The ACCEPT event's common part: the gap, and the event with the word's three fields (R104). -/
def State.acceptEvent (op : BitVec 2) (a : Addr) (d : Byte) (s : State) : State :=
  s.beginEvent.emit (.accept op a d)

/-- Acceptance of a command (R104, R83): operands latched, `upc` 0, the command's phase entered. -/
def State.accept (ph : Phase) (op : BitVec 2) (a : Addr) (d : Byte) (s : State) : State :=
  let s1 := s.acceptEvent op a d
  { s1 with
    ctrl.phase := ph
    ctrl.cmdAddr := Bits.ofBitVec a
    ctrl.cmdData := Bits.ofBitVec d
    ctrl.upc := 0 }

/-- The running phase's table from `upc` on. -/
def State.pendingUops (s : State) : List Uop := (table s.cfg s.ctrl.cmdAddr s.ctrl.phase).drop s.ctrl.upc

/-- A command from its acceptance to its DONE, or to a reset that cuts it (R109, R246): "every primitive runs to
completion" (R203; log 1). -/
def runCommand (ph : Phase) (op : BitVec 2) (a : Addr) (d : Byte) (s : State) : State :=
  runTable (s.accept ph op a d).pendingUops (s.accept ph op a d)

end Sys2Proof.Machine
end

