-- ==== Sys2Proof/Machine/Commands.lean ====
section
/-! DEFINITION. The meanings of the three commands (41_address_driver.md R127; 42_access_protocol.md R147, R148). -/

namespace Sys2Proof.Machine

/-- `READ addr` (R147). -/
def execRead (addr : Addr) (unused : Byte) (s : State) : Host.Outcome State Fault Refusal :=
  .next (runCommand .read 0b01#2 addr unused s)

/-- `WRITE addr, data` (R148). -/
def execWrite (addr : Addr) (data : Byte) (s : State) : Host.Outcome State Fault Refusal :=
  .next (runCommand .write 0b10#2 addr data s)

/-- `LATCH addr` (R127). -/
def execLatch (addr : Addr) (unused : Byte) (s : State) : Host.Outcome State Fault Refusal :=
  .next (runCommand .latch 0b11#2 addr unused s)

end Sys2Proof.Machine
end

