-- ==== Sys2Proof/Syntax.lean ====
section
/-! DEFINITION. The commands (30_encoding.md R82, R84; spec/opcode_table.json). -/

namespace Sys2Proof

/-- One constructor per row of the opcode table. READ and LATCH carry the ignored byte `cmd_word[7:0]` (R86): it
selects no behaviour, but acceptance records it in the ACCEPT event and latches it into `cmd_data` (R104). -/
inductive Instr where
  /-- `READ addr`, `op = 0b01` (R147). -/
  | read (addr : Addr) (unused : Byte)
  /-- `WRITE addr, data`, `op = 0b10` (R148). -/
  | write (addr : Addr) (data : Byte)
  /-- `LATCH addr`, `op = 0b11` (R127). -/
  | latch (addr : Addr) (unused : Byte)
  deriving DecidableEq, Repr

end Sys2Proof
end

