-- ==== Sys2Proof/Machine/Dispatch.lean ====
section
/-! DEFINITION. One arm per command. -/

namespace Sys2Proof.Machine

def exec (i : Instr) (s : State) : Host.Outcome State Fault Refusal :=
  match i with
  | .read addr unused => Sys2Proof.Machine.execRead addr unused s
  | .write addr data => Sys2Proof.Machine.execWrite addr data s
  | .latch addr unused => Sys2Proof.Machine.execLatch addr unused s

end Sys2Proof.Machine
end

