-- ==== Sys2Proof/WellFormed.lean ====
section
/-! DEFINITION. Well-formedness: of a command as the decoder gives it, and of an assembler line with its literals
(30_encoding.md R83, R91). -/

namespace Sys2Proof

/-- A command is well formed in every operand: `Addr` and `Byte` hold exactly the values of the fields `[23:8]` and
`[7:0]` (R83: "any value 0x0000-0xFFFF is accepted"; R86: "No field is should be zero"), so no check is left. -/
def Instr.wellFormed : Instr → Bool
  | .read _ _ => true
  | .write _ _ => true
  | .latch _ _ => true

/-- One assembler line (R91), its operands literals of any size, as a caller may write them. -/
inductive AsmLine where
  /-- `READ <addr>` -/
  | read (addr : Nat)
  /-- `WRITE <addr>, <data>` -/
  | write (addr data : Nat)
  /-- `LATCH <addr>` -/
  | latch (addr : Nat)
  deriving DecidableEq, Repr

/-- "`<addr>` is a literal 0..0xFFFF and `<data>` is a literal 0..0xFF. [...] An out-of-range literal is refused by
the assembler" (R91). -/
def AsmLine.wellFormed : AsmLine → Bool
  | .read a => decide (a ≤ 0xFFFF)
  | .write a d => decide (a ≤ 0xFFFF) && decide (d ≤ 0xFF)
  | .latch a => decide (a ≤ 0xFFFF)

end Sys2Proof
end

