-- ==== Sys2Proof/Decode.lean ====
section
/-! DEFINITION. The decoder and the encoder of the 26-bit command word (30_encoding.md R82-R87). -/

namespace Sys2Proof

/-- Why the decoder refuses a word. -/
inductive DecodeError where
  /-- `op = 0b00` "spells no command" (R85). -/
  | reservedOp
  /-- A bit above bit 25 is set: "Every command is one 26-bit word" (R87), so this is no command word (log 16). -/
  | wordTooWide
  deriving DecidableEq, Repr

/-- The field `op`, `cmd_word[25:24]` (R82). -/
def opField (w : CmdWord) : BitVec 2 := w.extractLsb' 24 2

/-- The field `addr`, `cmd_word[23:8]` (R82, R83). -/
def addrField (w : CmdWord) : Addr := w.extractLsb' 8 16

/-- The field `data`, `cmd_word[7:0]` (R82, R83). -/
def dataField (w : CmdWord) : Byte := w.extractLsb' 0 8

/-- The command map (R84): "A decoder reads `op` alone to know the command" (R87). -/
def decode (w : CmdWord) : Except DecodeError Instr :=
  if opField w = 0b01#2 then .ok (.read (addrField w) (dataField w))
  else if opField w = 0b10#2 then .ok (.write (addrField w) (dataField w))
  else if opField w = 0b11#2 then .ok (.latch (addrField w) (dataField w))
  else .error .reservedOp

/-- `decode` on a number of any size. -/
def decodeNat (w : Nat) : Except DecodeError Instr :=
  if w < 2 ^ 26 then decode (BitVec.ofNat 26 w) else .error .wordTooWide

/-- The `op` value of a command (R84). -/
def Instr.op : Instr → BitVec 2
  | .read _ _ => 0b01#2
  | .write _ _ => 0b10#2
  | .latch _ _ => 0b11#2

/-- The `addr` operand of a command (R84). -/
def Instr.addr : Instr → Addr
  | .read a _ => a
  | .write a _ => a
  | .latch a _ => a

/-- The `data` field of a command's word, used or ignored (R84, R86). -/
def Instr.data : Instr → Byte
  | .read _ d => d
  | .write _ d => d
  | .latch _ d => d

/-- The word `op ++ addr ++ data` (R82, R91). -/
def encode (i : Instr) : CmdWord := i.op ++ i.addr ++ i.data

/-- The instruction the decoder reads from a table row's word: its low `nbits` bits, the bits above them 0. -/
def decodeTableWord (nbits w : Nat) : Option Instr :=
  match decodeNat (w % 2 ^ nbits) with
  | .ok i => some i
  | .error _ => none

end Sys2Proof
end

