-- ==== Sys2Proof/Machine/HostPort.lean ====
section
/-! DEFINITION. HOST's moves (40_sequencer.md R103-R105, R110; 30_encoding.md R80, R81) and the placing of a command
word on the command port. -/

namespace Sys2Proof.Machine

/-- HOST lets `d` µs pass in READY: "This records nothing in the trace" (R103). -/
def State.hostIdle (d : Nat) (s : State) : State := { s with now := s.now + d }

/-- Acceptance of a word with `op = 0b00` (R104, R105): the ACCEPT event and the sticky refusal; `phase` stays READY. -/
def State.acceptReserved (w : CmdWord) (s : State) : State :=
  (s.acceptEvent (opField w) (addrField w) (dataField w)).refuse .reservedOp

/-- The state in which the next step accepts the word `w`: HOST presents it first, no reset is planned, and the block
is READY (log 15). -/
def State.presenting (w : CmdWord) (s : State) : State :=
  { s with host := .command w :: s.host, rst := [], ctrl.phase := .ready, ctrl.upc := 0 }

end Sys2Proof.Machine
end

