-- ==== Sys2Proof/Machine/Step.lean ====
section
/-! DEFINITION. One step: one of the moves of 40_sequencer.md R110, the command port's word decoded. -/

namespace Sys2Proof.Machine

/-- The moves of R110, chosen by the data of State (log 1, log 2): (a) HOST's reset when its turn has come; (b) in
STARTUP, READ, WRITE and LATCH one CTRL step (R100); (c) in READY HOST's next move: idle (R103), or a command, which
runs from its acceptance to its DONE or to a reset, or a reserved word (R105). With no move left HOST idles for a drawn
time (R103; log 14). -/
def step (s : State) : Host.Outcome State Fault Refusal :=
  if s.rstDue then .next s.resetEvent
  else
    match s.ctrl.phase with
    | .ready =>
      match s.host with
      | [] => .next (s.passTime 0)
      | .idle d :: rest => .next (State.hostIdle d { s with host := rest })
      | .command w :: rest =>
        match decode w with
        | .ok i => exec i { s with host := rest }
        | .error _ => .next (State.acceptReserved w { s with host := rest })
    | .startup | .read | .write | .latch =>
      match s.currentUop with
      | some u => .next (ctrlStep u s)
      | none => .fault .upcPastTable

/-- `s` with the table word `w` on the command port, so that the next step accepts and runs it (log 15). DESIGN CHOICE:
the port has 26 lines, so of a container with a bit set above bit 25, which the decoder refuses, the low 26 bits are
presented (log 20). -/
def State.withFetchWord (s : State) (nbits w : Nat) : State := s.presenting (BitVec.ofNat 26 (w % 2 ^ nbits))

end Sys2Proof.Machine
end

