-- ==== Sys2Proof/Machine/Assembler.lean ====
section
/-! DEFINITION. The host side of the command set: the assembler's lines (30_encoding.md R91) and the
pseudo-instructions (R92), which "are not hardware" and expand into commands. -/

namespace Sys2Proof.Machine

/-- The command of a line's literals: "`data = 0` for READ and LATCH" (R91). -/
def AsmLine.instr : AsmLine → Instr
  | .read a => .read (BitVec.ofNat 16 a) 0
  | .write a d => .write (BitVec.ofNat 16 a) (BitVec.ofNat 8 d)
  | .latch a => .latch (BitVec.ofNat 16 a) 0

/-- The word of a line; `none` where a literal is out of range (R91). -/
def assemble (l : AsmLine) : Option CmdWord := if l.wellFormed then some (encode (AsmLine.instr l)) else none

/-- The value of a digit in a base of 16 or less. -/
def digit? (base : Nat) (c : Char) : Option Nat :=
  let v :=
    if '0' ≤ c ∧ c ≤ '9' then c.toNat - '0'.toNat
    else if 'a' ≤ c ∧ c ≤ 'f' then c.toNat - 'a'.toNat + 10
    else if 'A' ≤ c ∧ c ≤ 'F' then c.toNat - 'A'.toNat + 10
    else base
  if v < base then some v else none

/-- The digits' number, after the number `acc` of the digits before them. -/
def digits? (base : Nat) : List Char → Nat → Option Nat
  | [], acc => some acc
  | c :: cs, acc => (digit? base c).bind fun d => digits? base cs (base * acc + d)

/-- "A literal is decimal, or hexadecimal with a `0x` prefix" (R91). -/
def literal? : List Char → Option Nat
  | '0' :: 'x' :: d :: ds => digits? 16 (d :: ds) 0
  | d :: ds => digits? 10 (d :: ds) 0
  | [] => none

/-- The words of a line: blanks separate, a comma is a word of its own, a `;` ends the line (R91; log 18). -/
def asmTokens : List Char → List Char → List (List Char)
  | [], acc => if acc.isEmpty then [] else [acc.reverse]
  | c :: cs, acc =>
    let closed := if acc.isEmpty then [] else [acc.reverse]
    if c = ';' then closed
    else if c = ' ' ∨ c = '\t' then closed ++ asmTokens cs []
    else if c = ',' then closed ++ [[',']] ++ asmTokens cs []
    else asmTokens cs (c :: acc)

/-- Why a line is no command. -/
inductive AsmError where
  | notACommand
  | badLiteral
  deriving DecidableEq, Repr

/-- One line of text (R91); `none` for a line that holds only blanks and a comment. -/
def parseLine (cs : List Char) : Except AsmError (Option AsmLine) :=
  match asmTokens cs [] with
  | [] => .ok none
  | [['R', 'E', 'A', 'D'], a] =>
    match literal? a with
    | some n => .ok (some (.read n))
    | none => .error .badLiteral
  | [['W', 'R', 'I', 'T', 'E'], a, [','], d] =>
    match literal? a, literal? d with
    | some n, some v => .ok (some (.write n v))
    | _, _ => .error .badLiteral
  | [['L', 'A', 'T', 'C', 'H'], a] =>
    match literal? a with
    | some n => .ok (some (.latch n))
    | none => .error .badLiteral
  | _ => .error .notACommand

/-- `ERASE_ALL` (R92): "exactly `ADDR_SPACE` commands with no short-circuit and no skip", in ascending order. -/
def eraseAll (c : Config) : List Instr := (List.range c.addrSpace).map fun a => .write (BitVec.ofNat 16 a) 0xFF

/-- `PATTERN_WRITE base, bytes` (R92): addresses ascend from `base` modulo 2^16. -/
def patternWrite (base : Addr) : List Byte → List Instr
  | [] => []
  | b :: bs => .write base b :: patternWrite (base + 1) bs

/-- `DUMP lo, hi` (R92): `READ a` for `a = lo, ..., hi-1`, each address modulo 2^16 (decision D34). DESIGN CHOICE: with
`hi` at or below `lo` the range is empty and there is no command; it does not wrap round (log 19). -/
def dump (lo hi : Nat) : List Instr := (List.range' lo (hi - lo)).map fun a => .read (BitVec.ofNat 16 a) 0

end Sys2Proof.Machine
end

