-- ==== Sys2Proof/Safety.lean ====
section
/-! DEFINITION. The terms claims are stated in: pin conditions (42_access_protocol.md R146, glossary), the pin sequence
of a trace (10_state.md R40), a final state (40_sequencer.md R111), the states between two moves of HOST. -/

namespace Sys2Proof

/-- An access at `a` has a defined result: `a` is in range, or the device aliases (R62). -/
def Config.reaches (c : Config) (a : Addr) : Prop := a.toNat < c.addrSpace ∨ c.oorMode = .aliased

/-- The cell an access at `a` reaches: `a[ADDR_BITS-1:0]` (R51). -/
def Config.cellOf (c : Config) (a : Addr) : Nat := a.toNat % c.addrSpace

/-- The phase a command's acceptance enters (R104). -/
def Instr.phase : Instr → Machine.Phase
  | .read _ _ => .read
  | .write _ _ => .write
  | .latch _ _ => .latch

/-- The state right after the command's ACCEPT (R104). -/
def Instr.accepted (i : Instr) (s : Machine.State) : Machine.State := s.accept i.phase i.op i.addr i.data

/-- The command's µop table (R102). -/
def Instr.uops (c : Config) (i : Instr) : List Machine.Uop := Machine.table c (Machine.Bits.ofBitVec i.addr) i.phase

/-- The command is a WRITE. -/
def Instr.isWrite : Instr → Bool
  | .read _ _ => false
  | .write _ _ => true
  | .latch _ _ => false

end Sys2Proof

namespace Sys2Proof.Machine

/-- All eight lines have the direction `d`. -/
def Ctrl.allLines (d : Dir) (c : Ctrl) : Prop := c.dir = Vector.replicate 8 d

/-- *Idle*: "the pin condition `ce_n = oe_n = we_n = 1`" (R146). -/
def Ctrl.idle (c : Ctrl) : Prop := c.ceN = true ∧ c.oeN = true ∧ c.weN = true

/-- *Read hold*: "CE and OE ASSERTED, WE deasserted, bus INPUT" (00_scope.md glossary). -/
def Ctrl.readHold (c : Ctrl) : Prop := c.ceN = false ∧ c.oeN = false ∧ c.weN = true ∧ c.allLines .input

/-- The state "is *final*" (R111): READY, no mark, and HOST presents no further command; it may still idle. -/
def State.final (s : State) : Prop :=
  s.ctrl.phase = .ready ∧ s.faults = [] ∧ s.refused = [] ∧ ∀ w, HostMove.command w ∉ s.host

/-- The event is one of a pin sequence: not WAIT, COMMIT or CORRUPT (R40). -/
def EventKind.inPinSequence : EventKind → Bool
  | .wait _ _ => false
  | .commit _ _ => false
  | .corrupt _ => false
  | .pin _ _ => true
  | .dir _ => true
  | .dout _ _ => true
  | .sample _ _ => true
  | .accept _ _ _ => true
  | .rsp _ _ => true
  | .reset => true

/-- The *pin sequence*: "the trace with the WAIT, COMMIT and CORRUPT events and all times removed" (R40). -/
def pinSequence (tr : List Event) : List EventKind := (tr.map Event.kind).filter EventKind.inPinSequence

/-- `LSEQ(a)` (95_test_vectors.md): the 50 events of `LATCH_SEQ(a)` (R126). -/
def latchEvents (a : Addr) : List EventKind :=
  (List.finRange 16).flatMap (fun m => [.pin .ser (a.getLsbD (15 - m.val)), .pin .sclk true, .pin .sclk false]) ++
    [EventKind.pin .rclk true, EventKind.pin .rclk false]

/-- The three events of the defensive reset (R146). -/
def defensiveEvents : List EventKind := [.pin .ceN true, .pin .oeN true, .pin .weN true]

/-- The pin sequence of a WRITE (R148; 95_test_vectors.md W5). -/
def writeEvents (a : Addr) (d : Byte) : List EventKind :=
  EventKind.accept 0b10#2 a d :: defensiveEvents ++ EventKind.dir .output :: latchEvents a ++
    linesDown.map (fun i => EventKind.dout i (some (d.getLsbD i))) ++
    [EventKind.pin .ceN false, EventKind.pin .weN false, EventKind.pin .weN true, EventKind.pin .ceN true,
      EventKind.rsp .write none]

/-- The pin sequence of a READ that answers the byte `v` (R147; 95_test_vectors.md R-1, R-5). -/
def readEvents (exit : Bool) (a : Addr) (unused : Byte) (v : Byte) : List EventKind :=
  EventKind.accept 0b01#2 a unused :: defensiveEvents ++ EventKind.dir .input :: latchEvents a ++
    EventKind.pin .ceN false :: EventKind.pin .oeN false ::
      linesDown.map (fun i => EventKind.sample i (v.getLsbD i)) ++
    (if exit then [EventKind.pin .oeN true, EventKind.pin .ceN true] else []) ++
    [EventKind.rsp .read (some (Bits.ofBitVec v))]

/-- The pin sequence of a LATCH (R127). -/
def latchCommandEvents (a : Addr) (unused : Byte) : List EventKind :=
  EventKind.accept 0b11#2 a unused :: latchEvents a ++ [EventKind.rsp .latch none]

/-- Where the device drives the bus the lines are inputs and the address is known. -/
def State.drivenSafely (s : State) : Prop :=
  s.ctrl.devDrives = true → s.ctrl.allLines .input ∧ Bits.known s.chain.storage = true

/-- The pin levels a state between two commands may have: WE deasserted, the shift clocks low (R129), no write pulse,
and the bus driven safely. -/
def State.quietPins (s : State) : Prop :=
  s.ctrl.weN = true ∧ s.ctrl.sclk = false ∧ s.ctrl.rclk = false ∧ s.dev.pulseActive = false ∧ s.drivenSafely

/-- READY, between two commands. -/
def State.atRest (s : State) : Prop := s.ctrl.phase = .ready ∧ s.ctrl.upc = 0 ∧ s.quietPins

/-- The settle delay after a reset (R233), before or after its WAIT. -/
def State.settling (s : State) : Prop :=
  s.ctrl.phase = .startup ∧ s.ctrl.upc ≤ 1 ∧ s.ctrl.idle ∧ s.quietPins

/-- The lines and the chain after the first `j` µops of `LATCH_SEQ(a)`, and on after its end (R126): SCLK high between a
bit's second and third µop, RCLK between the last two, SER at the bit shifted last, the bits shifted so far in the low
places of the chain, and from j = 48 on the address lines at `a`. -/
def Latching (c : Ctrl) (h : Chain) (a : Addr) (j : Nat) : Prop :=
  c.sclk = decide (j < 48 ∧ j % 3 = 2) ∧ c.rclk = decide (j = 49) ∧
    (1 ≤ j → c.ser = a.getLsbD (15 - (j - 1) / 3)) ∧
    (∀ i : Fin 16, i.val < (j + 1) / 3 → h.shift[i] = some (a.getLsbD (16 - (j + 1) / 3 + i.val))) ∧
    (49 ≤ j → h.storage = Bits.ofBitVec a)

/-- Before row `upc` of the LATCH table (R127). -/
def State.inLatch (s : State) : Prop :=
  s.ctrl.phase = .latch ∧ s.ctrl.upc ≤ 50 ∧ s.ctrl.weN = true ∧ s.dev.pulseActive = false ∧ s.drivenSafely ∧
    ∃ a : Addr, s.ctrl.cmdAddr = Bits.ofBitVec a ∧ Latching s.ctrl s.chain a s.ctrl.upc

/-- Before row `upc` of the READ table (R147): CE is asserted from k = 54 and OE from k = 55, to the end or to the two
rows of READ_EXIT_DEASSERT; the lines are inputs from k = 3; WE stays deasserted. -/
def State.inRead (s : State) : Prop :=
  s.ctrl.phase = .read ∧ s.ctrl.upc ≤ (if s.cfg.readExitDeassert then 67 else 65) ∧ s.ctrl.weN = true ∧
    s.dev.pulseActive = false ∧ s.drivenSafely ∧
    (1 ≤ s.ctrl.upc → s.ctrl.ceN = decide (s.ctrl.upc ≤ 54 ∨ s.ctrl.upc = 67)) ∧
    (2 ≤ s.ctrl.upc → s.ctrl.oeN = decide (s.ctrl.upc ≤ 55 ∨ 66 ≤ s.ctrl.upc)) ∧
    (4 ≤ s.ctrl.upc → s.ctrl.allLines .input) ∧
    ∃ a : Addr, s.ctrl.cmdAddr = Bits.ofBitVec a ∧ Latching s.ctrl s.chain a (s.ctrl.upc - 4)

/-- The device's record of the write pulse of `WRITE a, d`: begun by now, its inputs held, and at k = 65 `T_STROBE` or
more ago (R57, R73, R154). -/
def State.pulseOf (s : State) (a : Addr) (d : Byte) : Prop :=
  s.dev.pulseAddr = Bits.ofBitVec a ∧ s.dev.pulseData = Bits.ofBitVec d ∧ s.dev.pulseUnstable = false ∧
    s.dev.pulseBusyAtStart ≠ none ∧
    ∃ b, s.dev.pulseStart = some b ∧ b ≤ s.now ∧ (s.ctrl.upc = 65 → b + s.cfg.tStrobe ≤ s.now)

/-- Before row `upc` of the WRITE table (R148): CE is asserted from k = 62 to k = 66 and WE from k = 63 to k = 65,
which is the write pulse; the lines are outputs from k = 3, line `i` driven from k = 61 - i; OE stays deasserted from
k = 1. -/
def State.inWrite (s : State) : Prop :=
  s.ctrl.phase = .write ∧ s.ctrl.upc ≤ 68 ∧ s.ctrl.weN = decide (¬(64 ≤ s.ctrl.upc ∧ s.ctrl.upc ≤ 65)) ∧
    s.dev.pulseActive = decide (64 ≤ s.ctrl.upc ∧ s.ctrl.upc ≤ 65) ∧ s.drivenSafely ∧
    (1 ≤ s.ctrl.upc → s.ctrl.ceN = decide (¬(63 ≤ s.ctrl.upc ∧ s.ctrl.upc ≤ 66))) ∧
    (2 ≤ s.ctrl.upc → s.ctrl.oeN = true) ∧ (4 ≤ s.ctrl.upc → s.ctrl.allLines .output) ∧
    ∃ (a : Addr) (d : Byte), s.ctrl.cmdAddr = Bits.ofBitVec a ∧ s.ctrl.cmdData = Bits.ofBitVec d ∧
      Latching s.ctrl s.chain a (s.ctrl.upc - 4) ∧
      (∀ i : Fin 8, 62 ≤ s.ctrl.upc + i.val → s.ctrl.dout[i] = some (d.getLsbD i)) ∧
      (s.dev.pulseActive = true → s.pulseOf a d)

/-- Between two rows of a command's table. -/
def State.midCommand (s : State) : Prop := s.inLatch ∨ s.inRead ∨ s.inWrite

/-- The invariant of the protocol, for every phase and `upc`: what the rows run so far have established. -/
def State.protocolInv (s : State) : Prop := s.atRest ∨ s.settling ∨ s.midCommand

/-- The device is not in its internal write cycle, now or later. -/
def State.deviceFree (s : State) : Prop := s.dev.busyUntil ≤ s.now

/-- The array is a canonical list of cells of the device (R35, R50). -/
def State.memInv (s : State) : Prop := Memory.wf s.dev.mem = true ∧ Memory.within s.cfg.addrSpace s.dev.mem = true

/-- HOST's script that presents these commands, one after the other. -/
def script (is : List Instr) : List HostMove := is.map fun i => .command (encode i)

/-- `n` steps of the machine (Host/Core.lean's run of Sys2Proof.core). -/
def run (n : Nat) (s : State) : Host.Outcome State Fault Refusal := core.run n s

/-- The commands, one after the other, each run to its end. -/
def execAll : List Instr → State → Host.Outcome State Fault Refusal
  | [], s => .next s
  | i :: is, s =>
    match exec i s with
    | .next t => execAll is t
    | .fault f => .fault f
    | .refused r => .refused r

/-- `t` is what one event of CTRL leaves: a µop's (R100) or a reset (R230). -/
def State.afterEvent (s t : State) : Prop := (∃ u, t = ctrlStep u s) ∨ t = s.resetEvent

/-- The device is within a write pulse exactly where CE and WE are both asserted (R57). -/
def State.pulseInStep (s : State) : Prop := s.dev.pulseActive = s.ctrl.strobing

/-- The events of DEV, "information only; not a pin" (R40). -/
def EventKind.byDevice : EventKind → Bool
  | .commit _ _ => true
  | .corrupt _ => true
  | .pin _ _ => false
  | .dir _ => false
  | .dout _ _ => false
  | .sample _ _ => false
  | .wait _ _ => false
  | .accept _ _ _ => false
  | .rsp _ _ => false
  | .reset => false

/-- From `s` to `t` exactly the event `k` was recorded, at the time of `t`, and after it none but DEV's. -/
def State.recorded (s t : State) (k : EventKind) : Prop :=
  ∃ evs, t.trace = s.trace ++ ⟨k, t.now⟩ :: evs ∧ ∀ e ∈ evs, e.kind.byDevice = true ∧ e.time = t.now

/-- The events recorded from `s` to a later state `t`. -/
def State.newEvents (s t : State) : List Event := t.trace.drop s.trace.length

/-- `k` is the number of a draw taken from `s` to `t` (R10; log 4). -/
def State.drew (s t : State) (k : Nat) : Prop := s.draws ≤ k ∧ k < t.draws

/-- The condition of each model fault (R201; R54 steps 2, 3, 4; R143; R73) at the event of µop `u` from `s` to `t`. -/
def raised (u : Uop) (s t : State) : FaultCode → Bool
  | .f1Contention =>
    decide (t.ctrl.ceN = false ∧ t.ctrl.oeN = false ∧ t.ctrl.weN = true ∧ ∃ i : Fin 8, t.ctrl.dir[i] = .output)
  | .f2OeWe => decide (t.ctrl.oeN = false ∧ t.ctrl.weN = false)
  | .f3DirChangeEnabled =>
    match u with
    | .setDir d => decide ((s.ctrl.oeN = false ∨ s.ctrl.weN = false) ∧ ∃ i : Fin 8, s.ctrl.dir[i] ≠ d)
    | _ => false
  | .f4WriteUnstable =>
    decide (s.dev.pulseActive = true ∧ t.ctrl.ceN = false ∧ t.ctrl.weN = false ∧
      (s.chain.storage ≠ t.chain.storage ∨ s.ctrl.dir ≠ t.ctrl.dir ∨ s.ctrl.dout ≠ t.ctrl.dout))
  | .f5AddrUndefined =>
    decide (t.ctrl.ceN = false ∧ (t.ctrl.oeN = false ∨ t.ctrl.weN = false) ∧ ∃ i : Fin 16, t.chain.storage[i] = none)

/-- The order of the checks within one event (R202): F3, then F2, F1, F5, then F4. -/
def checkOrder : List FaultCode :=
  [.f3DirChangeEnabled, .f2OeWe, .f1Contention, .f5AddrUndefined, .f4WriteUnstable]

end Sys2Proof.Machine
end

