-- ==== Sys2Proof/Certificates/Slice0/Obligations.lean ====
section
/-! DEFINITION. The statements for the provers. OBLIGATIONS.json gives each its title, its text and the rules it
rests on. A statement about a drawn value (Config.freeBit, Config.freeByte, Config.freeTime) holds for every value of
it: those constants have no body. -/

open Sys2Proof Sys2Proof.Machine

/-! ## Encoding -/

/-- 95_test_vectors.md §2.1: the table's nine words, written out, decode to the commands it names; and the container of
the opcode table, whose low 26 bits hold the word (DEDUCED, log 16), gives the same command for one of them. -/
def Obligations.SpecWordsDecode : Prop :=
  decodeNat 0x1000000 = .ok (.read 0x0000 0x00) ∧
    decodeNat 0x10000FF = .ok (.read 0x0000 0xFF) ∧
    decodeNat 0x1012300 = .ok (.read 0x0123 0x00) ∧
    decodeNat 0x20000AB = .ok (.write 0x0000 0xAB) ∧
    decodeNat 0x2FFFF00 = .ok (.write 0xFFFF 0x00) ∧
    decodeNat 0x307FF00 = .ok (.latch 0x07FF 0x00) ∧
    decodeNat 0x3FFFFFF = .ok (.latch 0xFFFF 0xFF) ∧
    decodeNat 0x0000000 = .error .reservedOp ∧
    decodeNat 0x0ABCDEF = .error .reservedOp ∧
    decodeTableWord 32 0x20000AB = some (.write 0x0000 0xAB)

/-- Decoding the word of a command gives the command back, with every operand at every value, whether the word is read
as 26 bits, as a number, or from the opcode table's container, whose low 26 bits hold it (DEDUCED, log 16); and a word
that decodes is the word of the command it decodes to, so no two words spell one command with its operands. -/
def Obligations.DecodeOfEncode : Prop :=
  (∀ i : Instr,
    decode (encode i) = .ok i ∧ decodeNat (encode i).toNat = .ok i ∧
      ∀ nbits, 26 ≤ nbits → decodeTableWord nbits (encode i).toNat = some i) ∧
    ∀ (w : CmdWord) (i : Instr), decode w = .ok i → encode i = w

/-- R84: the command map, by match and mask; every word outside the three rows is reserved (R85). -/
def Obligations.CommandMap : Prop :=
  ∀ w : CmdWord,
    ((∃ a u, decode w = .ok (.read a u)) ↔ w &&& 0x3000000#26 = 0x1000000#26) ∧
      ((∃ a d, decode w = .ok (.write a d)) ↔ w &&& 0x3000000#26 = 0x2000000#26) ∧
      ((∃ a u, decode w = .ok (.latch a u)) ↔ w &&& 0x3000000#26 = 0x3000000#26) ∧
      (decode w = .error .reservedOp ↔ w &&& 0x3000000#26 = 0x0000000#26) ∧
      ∀ i, decode w = .ok i → i.addr = w.extractLsb' 8 16 ∧ i.data = w.extractLsb' 0 8

/-- R86: the ignored byte of READ and LATCH selects nothing. From any state, cut by a reset or not, the two runs differ
only in the byte that acceptance records and latches into `cmd_data`; the assembler writes 0. -/
def Obligations.IgnoredByteSelectsNothing : Prop :=
  (∀ (s : State) (a : Addr) (u v : Byte) (i j : Instr),
    (i = .read a u ∧ j = .read a v) ∨ (i = .latch a u ∧ j = .latch a v) →
      ∃ (t : State) (e : Nat) (evs : List Event) (d : Bits 8),
        exec i s = .next t ∧ t.trace = s.trace ++ ⟨.accept i.op a u, e⟩ :: evs ∧
          exec j s =
            .next
              { t with
                ctrl := { t.ctrl with cmdData := d }
                trace := s.trace ++ ⟨.accept i.op a v, e⟩ :: evs }) ∧
    ∀ (n : Nat) (w : CmdWord), assemble (.read n) = some w ∨ assemble (.latch n) = some w → w.extractLsb' 0 8 = 0#8

/-- R91, R92: the assembler gives the word `op << 24 | addr << 8 | data` exactly to the lines whose literals are in
range; ERASE_ALL, PATTERN_WRITE and DUMP expand command by command. That a DUMP with `hi = lo` is no command is the
model's choice (log 19). -/
def Obligations.AssemblerAndPseudoInstructions : Prop :=
  (∀ a d : Nat,
    (a ≤ 0xFFFF → ∃ w, assemble (.read a) = some w ∧ w.toNat = 1 * 2 ^ 24 + a * 2 ^ 8) ∧
      (a ≤ 0xFFFF ∧ d ≤ 0xFF → ∃ w, assemble (.write a d) = some w ∧ w.toNat = 2 * 2 ^ 24 + a * 2 ^ 8 + d) ∧
      (a ≤ 0xFFFF → ∃ w, assemble (.latch a) = some w ∧ w.toNat = 3 * 2 ^ 24 + a * 2 ^ 8) ∧
      (¬a ≤ 0xFFFF → assemble (.read a) = none ∧ assemble (.write a d) = none ∧ assemble (.latch a) = none) ∧
      (¬d ≤ 0xFF → assemble (.write a d) = none)) ∧
    (∀ c : Config, (eraseAll c).length = c.addrSpace ∧
      ∀ k, k < c.addrSpace → (eraseAll c)[k]? = some (Instr.write (BitVec.ofNat 16 k) 0xFF#8)) ∧
    (∀ (base : Addr) (bs : List Byte), (patternWrite base bs).length = bs.length ∧
      ∀ k b, bs[k]? = some b → (patternWrite base bs)[k]? = some (Instr.write (base + BitVec.ofNat 16 k) b)) ∧
    ∀ lo hi : Nat, lo ≤ hi → (dump lo hi).length = hi - lo ∧
      ∀ k, k < hi - lo → (dump lo hi)[k]? = some (Instr.read (BitVec.ofNat 16 (lo + k)) 0#8)

/-! ## The step -/

/-- A command word that HOST's script (log 2) presents in READY is decoded, and the step is `exec` of it, HOST's move
taken: one step for the whole command is the model's choice (log 1). So is a table word placed by `withFetchWord`
(log 15), its container read as log 16 says. -/
def Obligations.StepRunsTheDecodedCommand : Prop :=
  (∀ (s : State) (w : CmdWord) (rest : List HostMove) (i : Instr),
    s.rstDue = false → s.ctrl.phase = .ready → s.host = .command w :: rest → decode w = .ok i →
      step s = exec i { s with host := rest }) ∧
    ∀ (s : State) (nbits w : Nat) (i : Instr), decodeTableWord nbits w = some i →
      step (s.withFetchWord nbits w) =
        exec i { s with rst := [], ctrl := { s.ctrl with phase := .ready, upc := 0 } }

/-- R100: in STARTUP, READ, WRITE and LATCH a step is the gap, the µop of the table at `upc`, the advance of `upc` but
for DONE, and the reaction to the change from `s`. -/
def Obligations.StepRunsTheUopOfTheTable : Prop :=
  ∀ (s : State) (u : Uop), s.rstDue = false → s.ctrl.phase ≠ .ready →
    (table s.cfg s.ctrl.cmdAddr s.ctrl.phase)[s.ctrl.upc]? = some u →
      ∃ (g t : State), step s = .next t ∧ t = devReact s (advanceUpc u (execUop u g)) ∧
        (∃ d, g.now = s.now + d) ∧ g.ctrl = s.ctrl ∧ g.chain = s.chain ∧ g.dev = s.dev ∧ g.trace = s.trace ∧
        t.ctrl.upc = (if u = .done then 0 else s.ctrl.upc + 1) ∧
        t.ctrl.phase = (if u = .done then .ready else s.ctrl.phase) ∧ t.host = s.host

/-- A command, from its acceptance on, is its table of µops, one step each: as many steps of the machine as the table
has rows lead from the accepted command to the state that `exec` answers (R100, R109, R104). -/
def Obligations.CommandIsItsUopsOneStepEach : Prop :=
  ∀ (i : Instr) (s : State), s.rst = [] →
    run (i.uops s.cfg).length (i.accepted s) = exec i s

/-- R109: the tables have fixed lengths, end in DONE, and hold no other DONE. -/
def Obligations.TablesEndInDone : Prop :=
  ∀ (c : Config) (a : Bits 16) (ph : Phase), ph ≠ .ready →
    (table c a ph).getLast? = some .done ∧ .done ∉ (table c a ph).dropLast ∧
      (table c a ph).length =
        (match ph with
          | .startup => 2
          | .latch => 51
          | .read => if c.readExitDeassert then 68 else 66
          | .write => 69
          | .ready => 0)

/-- The only stop of the machine (log 13): `upc` past its table, which R109 excludes; and no step is ever refused. -/
def Obligations.StepStopsOnlyPastATable : Prop :=
  ∀ s : State,
    (step s = .fault .upcPastTable ↔
      s.rstDue = false ∧ s.ctrl.phase ≠ .ready ∧
        (table s.cfg s.ctrl.cmdAddr s.ctrl.phase).length ≤ s.ctrl.upc) ∧
      ∀ r, step s ≠ .refused r

/-- HOST's moves, held in the script of log 2, are not seen while a command or the settle delay runs: a command
presented early waits (R81). -/
def Obligations.HostWaitsForReady : Prop :=
  ∀ (s t : State) (moves : List HostMove), s.ctrl.phase ≠ .ready → step s = .next t →
    t.host = s.host ∧ step { s with host := moves } = .next { t with host := moves }

/-- R103: an idle move of HOST's script (log 2) lets its time pass and changes nothing else. -/
def Obligations.HostIdleOnlyTakesTime : Prop :=
  ∀ (s : State) (d : Nat) (rest : List HostMove), s.rstDue = false → s.ctrl.phase = .ready →
    s.host = .idle d :: rest → step s = .next { s with now := s.now + d, host := rest }

/-- R105: the ACCEPT of a reserved word, presented by HOST's script (log 2), records its event and the sticky refusal,
and leaves the pins, READY, the chain and the device alone; no RSP. -/
def Obligations.ReservedWordIsRefused : Prop :=
  ∀ (s : State) (w : CmdWord) (rest : List HostMove), s.rstDue = false → s.ctrl.phase = .ready → s.ctrl.upc = 0 →
    s.host = .command w :: rest → w.extractLsb' 24 2 = 0#2 →
      ∃ t : State, step s = .next t ∧ .reservedOp ∈ t.refused ∧
        (∀ r, r ∈ t.refused ↔ r ∈ s.refused ∨ r = .reservedOp) ∧ t.ctrl.phase = .ready ∧ t.ctrl.upc = 0 ∧
        t.ctrl = s.ctrl ∧ t.chain = s.chain ∧ t.dev = s.dev ∧ t.faults = s.faults ∧ s.now ≤ t.now ∧ t.host = rest ∧
        t.trace = s.trace ++ [⟨.accept 0#2 (w.extractLsb' 8 16) (w.extractLsb' 0 8), t.now⟩]

/-- R83: acceptance latches the word's two fields and enters the command's phase, and the command's first event is the
ACCEPT with those fields, whatever state it is accepted in and whether or not a reset cuts it. -/
def Obligations.AcceptLatchesTheOperands : Prop :=
  ∀ (s : State) (w : CmdWord) (i : Instr), decode w = .ok i →
    (i.accepted s).ctrl =
        { s.ctrl with
          phase := i.phase
          upc := 0
          cmdAddr := Bits.ofBitVec (w.extractLsb' 8 16)
          cmdData := Bits.ofBitVec (w.extractLsb' 0 8) } ∧
      (i.accepted s).chain = s.chain ∧ (i.accepted s).dev = s.dev ∧ (i.accepted s).faults = s.faults ∧
      ∃ (t : State) (e : Nat) (evs : List Event), exec i s = .next t ∧ s.now ≤ e ∧
        t.trace = s.trace ++ ⟨.accept (w.extractLsb' 24 2) (w.extractLsb' 8 16) (w.extractLsb' 0 8), e⟩ :: evs

/-! ## Reset -/

/-- R44, R35-R38: the state after the power-on reset, field by field, and what launch leaves. -/
def Obligations.ResetValues : Prop :=
  (∀ c : Ctrl, c = State.reset.ctrl →
    c.phase = .startup ∧ c.upc = 0 ∧ (∀ i : Fin 16, c.cmdAddr[i] = none) ∧ (∀ i : Fin 8, c.cmdData[i] = none) ∧
      (∀ i : Fin 8, c.rdata[i] = none) ∧ c.ceN = true ∧ c.oeN = true ∧ c.weN = true ∧
      (∀ i : Fin 8, c.dir[i] = .input) ∧ (∀ i : Fin 8, c.dout[i] = none) ∧ c.ser = false ∧ c.sclk = false ∧
      c.rclk = false) ∧
    (∀ i : Fin 16, State.reset.chain.shift[i] = none ∧ State.reset.chain.storage[i] = none) ∧
    (∀ a, Memory.read State.reset.dev.mem a = Config.mem0 a) ∧ State.reset.dev.busyUntil = 0 ∧
    (∀ i : Fin 16, State.reset.dev.wcAddr[i] = none) ∧ State.reset.dev.pulseActive = false ∧
    State.reset.dev.pulseStart = none ∧ (∀ i : Fin 16, State.reset.dev.pulseAddr[i] = none) ∧
    (∀ i : Fin 8, State.reset.dev.pulseData[i] = none) ∧ State.reset.dev.pulseBusyAtStart = none ∧
    State.reset.dev.pulseUnstable = false ∧ State.reset.dev.lastSelChange = 0 ∧
    State.launch.now = 0 ∧ State.launch.trace = [] ∧ State.reset.faults = [] ∧ State.reset.refused = [] ∧
    State.launch.dev = State.reset.dev

/-- R230: HOST's reset, due in any state, is one event: the gap, every CTRL and CHAIN field at its reset value, the
RESET event, the reaction. It raises no fault, and it keeps the device but for that reaction. Power-on is the same
event, from the launch state, and there the reaction does nothing. -/
def Obligations.ResetEvent : Prop :=
  (∀ s : State, s.rstDue = true →
    ∃ r t : State, step s = .next t ∧ t = devReact s r ∧ s.now ≤ r.now ∧ r.ctrl = State.reset.ctrl ∧
      r.chain = State.reset.chain ∧ r.dev = s.dev ∧ r.trace = s.trace ++ [⟨.reset, r.now⟩] ∧ r.faults = s.faults ∧
      r.refused = s.refused ∧ t.ctrl = State.reset.ctrl ∧ t.chain = State.reset.chain ∧ t.now = r.now ∧
      t.faults = s.faults ∧ t.refused = s.refused ∧ t.host = s.host ∧ t.rst = s.rst.tail ∧
      s.recorded t .reset ∧
      (s.dev.pulseActive = false → t.dev = { s.dev with lastSelChange := t.dev.lastSelChange })) ∧
    State.launch.resetEvent = State.reset ∧ State.reset.dev = State.launch.dev

/-- R246: a reset that comes `n + 1` CTRL events after a command is presented (HOST's plan of resets counts them, log
2), its ACCEPT the first of them, cuts the command after `n` µops: those µops' effects stay, the reset event follows,
and no RSP is recorded. Where the command has no more than `n` µops it runs to its end, as it does with no reset
planned, and the reset keeps the rest of its count. -/
def Obligations.ResetCutsACommand : Prop :=
  ∀ (i : Instr) (s : State) (n : Nat) (rs : List Nat), s.rst = (n + 1) :: rs →
    (n < (i.uops s.cfg).length →
      ∃ t : State, exec i s = .next t ∧ t = (steps ((i.uops s.cfg).take n) (i.accepted s)).resetEvent ∧
        t.ctrl = State.reset.ctrl ∧ t.chain = State.reset.chain ∧ t.rst = rs ∧
        ∀ e ∈ s.newEvents t, ∀ ph v, e.kind ≠ .rsp ph v) ∧
      ((i.uops s.cfg).length ≤ n →
        ∃ t : State, exec i s = .next t ∧ t = steps (i.uops s.cfg) (i.accepted s) ∧
          t.rst = (n - (i.uops s.cfg).length) :: rs ∧
          exec i { s with rst := [] } = .next { t with rst := [] })

/-- R233: a reset leaves STARTUP at its first µop; from there on, whatever HOST does and however often it resets, the
block is not READY and no command is accepted before `T_SETTLE` has passed. -/
def Obligations.NoAcceptBeforeTheSettleDelay : Prop :=
  (∀ s : State, s.resetEvent.ctrl.phase = .startup ∧ s.resetEvent.ctrl.upc = 0) ∧
    ∀ (s t : State) (n : Nat), s.ctrl.phase = .startup → s.ctrl.upc = 0 → run n s = .next t →
      (t.ctrl.phase = .ready → s.now + s.cfg.tSettle ≤ t.now) ∧
        ∀ e ∈ s.newEvents t, ∀ op a d, e.kind = .accept op a d → s.now + s.cfg.tSettle ≤ e.time

/-- R108: the settle delay is two steps, records only its WAIT, changes no pin, and ends in READY. -/
def Obligations.StartupTakesTwoSteps : Prop :=
  ∀ s : State, s.ctrl.phase = .startup → s.ctrl.upc = 0 → s.rst = [] → s.pulseInStep →
    ∃ (t : State) (d e : Nat), run 2 s = .next t ∧ t.ctrl = { s.ctrl with phase := .ready } ∧
      t.chain = s.chain ∧ t.dev = s.dev ∧ s.cfg.tSettle ≤ d ∧ s.now + d ≤ t.now ∧
      t.trace = s.trace ++ [⟨.wait s.cfg.tSettle d, e⟩] ∧ t.host = s.host

/-! ## The whole machine -/

/-- R41, R111: marks are never removed, reset included, and no mark is added twice; so a run from a marked state reaches
no final state. -/
def Obligations.MarksAreSticky : Prop :=
  State.reset.faults = [] ∧ State.reset.refused = [] ∧
    (∀ s t : State, step s = .next t →
      s.faults <+: t.faults ∧ s.refused <+: t.refused ∧
        ((s.faults.map FaultMark.code).Nodup → (t.faults.map FaultMark.code).Nodup) ∧
        (s.refused.Nodup → t.refused.Nodup)) ∧
    ∀ (s t : State) (n : Nat), s.faults ≠ [] ∨ s.refused ≠ [] → run n s = .next t → ¬t.final

/-- R39, R40, R43: a step only appends to the trace, in the order of time; time and the count of draws (log 4) never go
back; the configuration is fixed; HOST's moves are only taken off the front of its script; and of its plan of resets
(log 2) only the first one's count goes down, or that reset happens and is taken off. -/
def Obligations.TraceAndTimeOnlyGrow : Prop :=
  ∀ s t : State, step s = .next t →
    s.now ≤ t.now ∧ s.draws ≤ t.draws ∧ t.cfg = s.cfg ∧ t.host <:+ s.host ∧ (s.rst = [] → t.rst = []) ∧
      (∀ n rs, s.rst = n :: rs → t.rst = rs ∧ t.ctrl = State.reset.ctrl ∨ ∃ k, k ≤ n ∧ t.rst = k :: rs) ∧
      ∃ evs, t.trace = s.trace ++ evs ∧ (evs.map Event.time).Pairwise (· ≤ ·) ∧
        ∀ e ∈ evs, s.now ≤ e.time ∧ e.time ≤ t.now

/-- R35: the array stays the canonical list of cells of the device. -/
def Obligations.MemoryStaysCanonical : Prop :=
  ∀ s t : State, s.memInv → step s = .next t → t.memInv

/-- The array is canonical after the power-on reset. -/
def Obligations.ResetMemoryIsCanonical : Prop :=
  State.reset.memInv

/-- Every step keeps the protocol's invariant (R129, R146, R158, R159), at rest, in STARTUP and before every row of the
three tables, and adds no model fault. A step from outside a command ends outside one, for a command is one step there
(log 1); and the acceptance of a command alone, from a state at rest, leaves a state before its first row. -/
def Obligations.ProtocolInvariantKeptWithoutFault : Prop :=
  (∀ s t : State, s.protocolInv → step s = .next t →
    t.protocolInv ∧ t.faults = s.faults ∧ (s.atRest ∨ s.settling → t.atRest ∨ t.settling)) ∧
    ∀ (i : Instr) (s : State), s.atRest → (i.accepted s).midCommand ∧ (i.accepted s).faults = s.faults

/-- The protocol's invariant holds after the power-on reset. -/
def Obligations.ResetHoldsTheProtocolInvariant : Prop :=
  State.reset.protocolInv

/-- R158: no run raises F1-F5, for every configuration, array, script of HOST and plan of its resets; and the run never
stops. -/
def Obligations.NoRunRaisesAModelFault : Prop :=
  ∀ (c : Config) (m : Memory) (moves : List HostMove) (rs : List Nat) (n : Nat),
    ∃ t : State,
      run n { State.reset with cfg := c, dev := { State.reset.dev with mem := m }, host := moves, rst := rs } =
          .next t ∧
        t.faults = []

/-- HOST's script (log 2) of commands runs as the commands, one after the other (R66, R81), in one step each, which is
the model's choice (log 1). -/
def Obligations.ScriptRunsItsCommands : Prop :=
  ∀ (is : List Instr) (rest : List HostMove) (s : State), s.ctrl.phase = .ready → s.rst = [] →
    s.host = script is ++ rest → run is.length s = execAll is { s with host := rest }

/-! ## µops and reactions -/

/-- R120, R122, R124, R140-R142: each line µop, from any state, drives its own line, records its own event whatever the
level was, and writes no other CTRL field but `upc`; a SET_SER of an unknown bit drives a fresh draw (log 12). -/
def Obligations.LineUopsDriveOneLine : Prop :=
  ∀ (s t : State) (x : Drive) (b : Bool),
    (ctrlStep (.setCe x) s = t →
      t.ctrl = { s.ctrl with ceN := decide (x = .deasserted), upc := s.ctrl.upc + 1 } ∧ t.chain = s.chain ∧
        s.recorded t (.pin .ceN (decide (x = .deasserted)))) ∧
    (ctrlStep (.setOe x) s = t →
      t.ctrl = { s.ctrl with oeN := decide (x = .deasserted), upc := s.ctrl.upc + 1 } ∧ t.chain = s.chain ∧
        s.recorded t (.pin .oeN (decide (x = .deasserted)))) ∧
    (ctrlStep (.setWe x) s = t →
      t.ctrl = { s.ctrl with weN := decide (x = .deasserted), upc := s.ctrl.upc + 1 } ∧ t.chain = s.chain ∧
        s.recorded t (.pin .weN (decide (x = .deasserted)))) ∧
    (ctrlStep (.setSer (some b)) s = t →
      t.ctrl = { s.ctrl with ser := b, upc := s.ctrl.upc + 1 } ∧ t.chain = s.chain ∧
        s.recorded t (.pin .ser b)) ∧
    (ctrlStep (.setSclk b) s = t →
      t.ctrl = { s.ctrl with sclk := b, upc := s.ctrl.upc + 1 } ∧ s.recorded t (.pin .sclk b)) ∧
    (ctrlStep (.setRclk b) s = t →
      t.ctrl = { s.ctrl with rclk := b, upc := s.ctrl.upc + 1 } ∧ s.recorded t (.pin .rclk b)) ∧
    (ctrlStep (.setSer none) s = t →
      ∃ k, s.drew t k ∧ t.ctrl = { s.ctrl with ser := Config.freeBit k, upc := s.ctrl.upc + 1 } ∧
        t.chain = s.chain ∧ s.recorded t (.pin .ser (Config.freeBit k)))

/-- R123, R125: the shift on an SCLK rising edge, bit by bit, an unknown bit moving like any other, while `storage`
holds still; the transfer on an RCLK rising edge, all 16 bits in the one event, to the address lines; neither without
its edge. -/
def Obligations.ChainShiftsAndTransfersOnRisingEdges : Prop :=
  ∀ s : State,
    (∀ t, ctrlStep (.setSclk true) s = t → s.ctrl.sclk = false →
      t.chain.shift[0] = some t.ctrl.ser ∧ t.ctrl.ser = s.ctrl.ser ∧
        (∀ (k : Nat) (h : k + 1 < 16), t.chain.shift[k + 1] = s.chain.shift[k]) ∧
        t.chain.storage = s.chain.storage) ∧
      (∀ t, ctrlStep (.setSclk true) s = t → s.ctrl.sclk = true → t.chain = s.chain) ∧
      (∀ t, ctrlStep (.setSclk false) s = t → t.chain = s.chain) ∧
      (∀ t, ctrlStep (.setRclk true) s = t → s.ctrl.rclk = false →
        t.chain.storage = s.chain.shift ∧ t.chain.shift = s.chain.shift ∧ t.addressLines = s.chain.shift) ∧
      (∀ t, ctrlStep (.setRclk true) s = t → s.ctrl.rclk = true → t.chain = s.chain) ∧
      ∀ t, ctrlStep (.setRclk false) s = t → t.chain = s.chain

/-- R143, R144: SET_DIR switches all eight lines in one event, whatever it finds; SET_DOUT drives its own line with its
own bit of `cmd_data` and keeps the other lines' latches. The faults of both are in
`Obligations.FaultsAreRaisedExactly`. -/
def Obligations.DataBusUopsDriveTheirLines : Prop :=
  (∀ (s t : State) (d : Dir), ctrlStep (.setDir d) s = t →
    t.ctrl = { s.ctrl with dir := Vector.replicate 8 d, upc := s.ctrl.upc + 1 } ∧ (∀ i : Fin 8, t.ctrl.dir[i] = d) ∧
      t.chain = s.chain ∧ s.recorded t (.dir d) ∧
      ((∀ i : Fin 8, s.ctrl.dir[i] = d) → t.ctrl = { s.ctrl with upc := s.ctrl.upc + 1 })) ∧
    ∀ (s t : State) (i : Fin 8), ctrlStep (.setDout i) s = t →
      t.ctrl.dout[i] = s.ctrl.cmdData[i] ∧ (∀ j : Fin 8, j ≠ i → t.ctrl.dout[j] = s.ctrl.dout[j]) ∧
        t.ctrl = { s.ctrl with dout := t.ctrl.dout, upc := s.ctrl.upc + 1 } ∧ t.chain = s.chain ∧
        s.recorded t (.dout i s.ctrl.cmdData[i])

/-- R145, R55, R56, R60, R62: what SAMPLE shifts into `rdata`, in every case, from any state. The bit is the line's own
latch where CTRL drives it; where the device drives, the addressed cell's bit if the device is not busy, its output has
settled and the address has a defined result; in every other case a fresh draw. That an address with an unknown bit
gives a draw is the model's reading (log 8): R51 and R55 give no result there. -/
def Obligations.SampleReadsTheLine : Prop :=
  ∀ (s t : State) (i : Fin 8), ctrlStep (.sample i) s = t →
    ∃ b : Bool,
      (t.ctrl = { s.ctrl with rdata := t.ctrl.rdata, upc := s.ctrl.upc + 1 } ∧ t.ctrl.rdata[0] = some b ∧
        (∀ (k : Nat) (h : k + 1 < 8), t.ctrl.rdata[k + 1] = s.ctrl.rdata[k]) ∧ t.chain = s.chain ∧
        s.recorded t (.sample i b)) ∧
      (s.ctrl.dir[i] = .output → ∀ l, s.ctrl.dout[i] = some l → b = l) ∧
      (s.ctrl.dir[i] = .output → s.ctrl.dout[i] = none → ∃ k, s.drew t k ∧ b = Config.freeBit k) ∧
      (s.ctrl.dir[i] = .input → s.ctrl.ceN = true ∨ s.ctrl.oeN = true ∨ s.ctrl.weN = false →
        ∃ k, s.drew t k ∧ b = Config.freeBit k) ∧
      (s.ctrl.dir[i] = .input → s.ctrl.ceN = false → s.ctrl.oeN = false → s.ctrl.weN = true →
        (t.now < s.dev.busyUntil → ∃ k, s.drew t k ∧ b = Config.freeBit k) ∧
          (t.now - s.dev.lastSelChange < s.cfg.tAccessDev → ∃ k, s.drew t k ∧ b = Config.freeBit k) ∧
          (Bits.known s.chain.storage = false → ∃ k, s.drew t k ∧ b = Config.freeBit k) ∧
          ∀ a : Addr, s.chain.storage = Bits.ofBitVec a →
            (¬s.cfg.reaches a → ∃ k, s.drew t k ∧ b = Config.freeBit k) ∧
              (s.dev.busyUntil ≤ t.now → s.cfg.tAccessDev ≤ t.now - s.dev.lastSelChange → s.cfg.reaches a →
                b = (Memory.read s.dev.mem (s.cfg.cellOf a)).getLsbD i))

/-- R106: WAIT lets the drawn duration, `n` or more, pass, records it, and changes no pin; it is atomic with respect to
the device where the pulse record agrees with the lines (every event leaves it so:
`Obligations.PulseStartCaptures`). -/
def Obligations.WaitTakesItsTime : Prop :=
  ∀ (s t : State) (n : Nat), ctrlStep (.wait n) s = t →
    ∃ d, n ≤ d ∧ s.now + d ≤ t.now ∧ s.recorded t (.wait n d) ∧ t.ctrl = { s.ctrl with upc := s.ctrl.upc + 1 } ∧
      t.chain = s.chain ∧ (s.pulseInStep → t.dev = s.dev)

/-- R107: DONE responds, `rdata` for READ and nothing else for the others, but not in STARTUP; READY, `upc` 0; no pin
changes, and the device keeps its state. -/
def Obligations.DoneRespondsAndEndsTheCommand : Prop :=
  ∀ s t : State, ctrlStep .done s = t →
    t.ctrl = { s.ctrl with phase := .ready, upc := 0 } ∧ t.chain = s.chain ∧ (s.pulseInStep → t.dev = s.dev) ∧
      (s.ctrl.phase = .read → s.recorded t (.rsp .read (some s.ctrl.rdata))) ∧
      (s.ctrl.phase = .write → s.recorded t (.rsp .write none)) ∧
      (s.ctrl.phase = .latch → s.recorded t (.rsp .latch none)) ∧
      (s.ctrl.phase = .startup → s.pulseInStep → t.trace = s.trace)

/-- R201, R202: an event adds exactly the faults whose condition it meets and that are not yet marked, in the order of
R202, each with the event's own index (its position in the trace, log 10); and a marked state is not final. -/
def Obligations.FaultsAreRaisedExactly : Prop :=
  ∀ (s t : State) (u : Uop), ctrlStep u s = t →
    t.faults =
        s.faults ++
          ((checkOrder.filter fun f => raised u s t f && !(s.faults.map FaultMark.code).contains f).map fun f =>
            (⟨f, s.trace.length⟩ : FaultMark)) ∧
      (t.faults ≠ [] → ¬t.final)

/-- R57: the write pulse is the interval in which CE and WE are both asserted: after every event, a µop or a reset, the
record says so. What the start of a pulse captures; the device does not drive within it. -/
def Obligations.PulseStartCaptures : Prop :=
  (∀ s t : State, s.afterEvent t → t.pulseInStep) ∧
  ∀ s t : State, s.afterEvent t → s.dev.pulseActive = false → t.ctrl.ceN = false → t.ctrl.weN = false →
    t.ctrl.devDrives = false ∧
      t.dev =
        { s.dev with
          pulseActive := true
          pulseStart := some t.now
          pulseAddr := t.chain.storage
          pulseData := Vector.ofFn fun i => if t.ctrl.dir[i] = .output then t.ctrl.dout[i] else none
          pulseBusyAtStart := some (decide (t.now < s.dev.busyUntil))
          pulseUnstable := false
          lastSelChange := t.dev.lastSelChange }

/-- R73: an event within a pulse that changes `storage`, `dir` or `dout` marks the pulse unstable and the run with F4;
one that does not leaves the pulse record and the array alone. -/
def Obligations.UnstablePulseIsMarked : Prop :=
  ∀ s t : State, s.afterEvent t → s.dev.pulseActive = true → t.ctrl.ceN = false → t.ctrl.weN = false →
    (s.chain.storage ≠ t.chain.storage ∨ s.ctrl.dir ≠ t.ctrl.dir ∨ s.ctrl.dout ≠ t.ctrl.dout →
      t.dev = { s.dev with pulseUnstable := true, lastSelChange := t.dev.lastSelChange } ∧
        .f4WriteUnstable ∈ t.faults.map FaultMark.code) ∧
      (s.chain.storage = t.chain.storage → s.ctrl.dir = t.ctrl.dir → s.ctrl.dout = t.ctrl.dout →
        t.dev = { s.dev with lastSelChange := t.dev.lastSelChange })

/-- R59: every pulse end, by CE, by WE or by a reset, starts the busy window and closes the record; the device is busy
then and at every later time below `busy_until`, and free from there on; but for the array,
`Obligations.PulseEndCommits` and `Obligations.PulseEndDraws`, nothing else of the device changes. -/
def Obligations.PulseEndStartsTheBusyWindow : Prop :=
  ∀ s t : State, s.afterEvent t → s.dev.pulseActive = true → t.ctrl.ceN = true ∨ t.ctrl.weN = true →
    t.dev =
        { s.dev with
          mem := t.dev.mem
          busyUntil := t.now + s.cfg.tWcDev
          wcAddr := s.dev.pulseAddr
          pulseActive := false
          pulseUnstable := false
          lastSelChange := t.dev.lastSelChange } ∧
      ∀ d, (t.hostIdle d).busy = true ↔ t.now + d < t.dev.busyUntil

/-- R58, last branch: a pulse that started with the device free, at an address with a defined result, stable, long
enough and with every line driven commits its byte in the one event; every other cell keeps its byte. -/
def Obligations.PulseEndCommits : Prop :=
  ∀ (s t : State) (a : Addr) (v : Byte) (b : Nat), s.afterEvent t → s.memInv → s.dev.pulseActive = true →
    t.ctrl.ceN = true ∨ t.ctrl.weN = true → s.dev.pulseBusyAtStart = some false →
    s.dev.pulseAddr = Bits.ofBitVec a → s.cfg.reaches a → s.dev.pulseUnstable = false → s.dev.pulseStart = some b →
    s.cfg.tWpDev ≤ t.now - b → s.dev.pulseData = Bits.ofBitVec v →
      t.trace.getLast? = some ⟨.commit (s.cfg.cellOf a) v, t.now⟩ ∧
        ∀ x, Memory.read t.dev.mem x = if x = s.cfg.cellOf a then v else Memory.read s.dev.mem x

/-- R58, R60, R61, R62, R73: the branches that corrupt. Each names its cells, which become fresh draws; every other
cell keeps its byte; one CORRUPT event. The order of the cells in that event, and which draw a cell named twice keeps,
are the model's choice (log 11). An unstable pulse that ends with the address unknown, as by a reset, is in
`Obligations.UnstablePulseAtNoAddressDraws`. -/
def Obligations.PulseEndDraws : Prop :=
  ∀ (s t : State) (a : Addr), s.afterEvent t → s.memInv → s.dev.pulseActive = true →
    t.ctrl.ceN = true ∨ t.ctrl.weN = true → s.dev.pulseAddr = Bits.ofBitVec a →
      (∀ w : Addr, s.dev.pulseBusyAtStart = some true → s.cfg.reaches a → s.dev.wcAddr = Bits.ofBitVec w →
        ∃ j k, s.drew t j ∧ s.drew t k ∧ j ≠ k ∧
          t.trace.getLast? = some ⟨.corrupt (.cells [s.cfg.cellOf w, s.cfg.cellOf a]), t.now⟩ ∧
          ∀ x, Memory.read t.dev.mem x =
            if x = s.cfg.cellOf a then Config.freeByte k
            else if x = s.cfg.cellOf w then Config.freeByte j
            else Memory.read s.dev.mem x) ∧
      ((∃ p, s.dev.pulseBusyAtStart = some p) → ¬s.cfg.reaches a →
        ∃ k, s.draws ≤ k ∧ k + s.cfg.addrSpace ≤ t.draws ∧ t.trace.getLast? = some ⟨.corrupt .all, t.now⟩ ∧
          ∀ x, x < s.cfg.addrSpace → Memory.read t.dev.mem x = Config.freeByte (k + x)) ∧
      (∀ b : Addr, s.dev.pulseBusyAtStart = some false → s.cfg.reaches a → s.dev.pulseUnstable = true →
        t.chain.storage = Bits.ofBitVec b →
          ∃ j k, s.drew t j ∧ s.drew t k ∧ j ≠ k ∧
            t.trace.getLast? = some ⟨.corrupt (.cells [s.cfg.cellOf a, s.cfg.cellOf b]), t.now⟩ ∧
            ∀ x, Memory.read t.dev.mem x =
              if x = s.cfg.cellOf b then Config.freeByte k
              else if x = s.cfg.cellOf a then Config.freeByte j
              else Memory.read s.dev.mem x) ∧
      (s.dev.pulseBusyAtStart = some false → s.cfg.reaches a → s.dev.pulseUnstable = false →
        ((∃ b, s.dev.pulseStart = some b ∧ t.now - b < s.cfg.tWpDev) ∨ Bits.known s.dev.pulseData = false) →
          ∃ k, s.drew t k ∧ t.trace.getLast? = some ⟨.corrupt (.cells [s.cfg.cellOf a]), t.now⟩ ∧
            ∀ x, Memory.read t.dev.mem x =
              if x = s.cfg.cellOf a then Config.freeByte k else Memory.read s.dev.mem x)

/-- R54 step 5, R38: `last_sel_change` becomes `now` exactly at an event that changes a wired address line, CE or OE. -/
def Obligations.SelectChangeIsTimed : Prop :=
  ∀ s t : State, s.afterEvent t →
    ((s.ctrl.ceN ≠ t.ctrl.ceN ∨ s.ctrl.oeN ≠ t.ctrl.oeN ∨
        ∃ i : Fin 16, i.val < s.cfg.addrBits ∧ s.chain.storage[i] ≠ t.chain.storage[i]) →
      t.dev.lastSelChange = t.now) ∧
      (s.ctrl.ceN = t.ctrl.ceN → s.ctrl.oeN = t.ctrl.oeN →
        (∀ i : Fin 16, i.val < s.cfg.addrBits → s.chain.storage[i] = t.chain.storage[i]) →
        t.dev.lastSelChange = s.dev.lastSelChange)

/-! ## The address driver -/

/-- R128, R130: the latch sequence leaves the address in the chain and on the address lines, from any state with the two
clocks low, whatever the chain held; while it shifts the address lines keep their value, and they change at j = 48, all
together. -/
def Obligations.LatchIsExact : Prop :=
  ∀ (s : State) (a : Addr), s.ctrl.sclk = false → s.ctrl.rclk = false →
    ∀ t, steps (latchSeq (Bits.ofBitVec a)) s = t →
      t.chain.storage = Bits.ofBitVec a ∧ t.chain.shift = Bits.ofBitVec a ∧ t.ctrl.sclk = false ∧
        t.ctrl.rclk = false ∧ t.ctrl.ser = a.getLsbD 0 ∧
        (∀ k, k ≤ 48 → (steps ((latchSeq (Bits.ofBitVec a)).take k) s).chain.storage = s.chain.storage) ∧
        ∀ k, 49 ≤ k → (steps ((latchSeq (Bits.ofBitVec a)).take k) s).chain.storage = Bits.ofBitVec a

/-- R131: the pin events of the latch sequence, from any state: 16 bits of the address, bit 15 first, each set on SER
before one rising edge of SCLK, then one RCLK pulse. -/
def Obligations.SerialStream : Prop :=
  ∀ (s : State) (a : Addr), ∃ evs : List Event,
    (steps (latchSeq (Bits.ofBitVec a)) s).trace = s.trace ++ evs ∧
      (evs.map Event.kind).filter (fun k => !k.byDevice) =
        (List.finRange 16).flatMap
            (fun m => [.pin .ser (a.getLsbD (15 - m.val)), .pin .sclk true, .pin .sclk false]) ++
          [.pin .rclk true, .pin .rclk false] ∧
      (evs.countP fun e => decide (e.kind = .pin .sclk true)) = 16 ∧
      (evs.countP fun e => decide (e.kind = .pin .rclk true)) = 1 ∧
      (evs.countP fun e => decide (e.kind = .pin .rclk false)) = 1

/-! ## The commands -/

/-- R159: the end states, from any state with the clocks low: what each command leaves in CTRL, field by field (a field
not named keeps its value), and on the chain. -/
def Obligations.EndStates : Prop :=
  ∀ (s : State) (a : Addr) (d : Byte), s.rst = [] → s.ctrl.sclk = false → s.ctrl.rclk = false →
    (∃ t, exec (.latch a d) s = .next t ∧
      t.ctrl =
        { s.ctrl with
          phase := .ready
          upc := 0
          cmdAddr := Bits.ofBitVec a
          cmdData := Bits.ofBitVec d
          ser := a.getLsbD 0 } ∧
      t.chain = ⟨Bits.ofBitVec a, Bits.ofBitVec a⟩) ∧
    (∃ t, exec (.read a d) s = .next t ∧
      (∃ v : Byte,
        t.ctrl =
          { s.ctrl with
            phase := .ready
            upc := 0
            cmdAddr := Bits.ofBitVec a
            cmdData := Bits.ofBitVec d
            rdata := Bits.ofBitVec v
            ceN := s.cfg.readExitDeassert
            oeN := s.cfg.readExitDeassert
            weN := true
            dir := Vector.replicate 8 .input
            ser := a.getLsbD 0 }) ∧
      t.chain = ⟨Bits.ofBitVec a, Bits.ofBitVec a⟩ ∧ (s.cfg.readExitDeassert = false → t.ctrl.readHold) ∧
      (s.cfg.readExitDeassert = true → t.ctrl.idle)) ∧
    ∃ t, exec (.write a d) s = .next t ∧
      t.ctrl =
        { s.ctrl with
          phase := .ready
          upc := 0
          cmdAddr := Bits.ofBitVec a
          cmdData := Bits.ofBitVec d
          ceN := true
          oeN := true
          weN := true
          dir := Vector.replicate 8 .output
          dout := Bits.ofBitVec d
          ser := a.getLsbD 0 } ∧
      t.chain = ⟨Bits.ofBitVec a, Bits.ofBitVec a⟩ ∧ t.ctrl.idle

/-- The frame of LATCH between commands (R127): one pin sequence; the device, every byte of it, the marks and the
configuration are left alone, but for the time of a select change. -/
def Obligations.LatchFrame : Prop :=
  ∀ (s : State) (a : Addr) (u : Byte), s.atRest → s.rst = [] →
    ∃ t, exec (.latch a u) s = .next t ∧ t.atRest ∧ t.dev = { s.dev with lastSelChange := t.dev.lastSelChange } ∧
      (∀ x, Memory.read t.dev.mem x = Memory.read s.dev.mem x) ∧ t.cfg = s.cfg ∧ t.faults = s.faults ∧
      t.refused = s.refused ∧ t.host = s.host ∧ t.rst = [] ∧ s.now ≤ t.now ∧
      (s.newEvents t).length = 52 ∧ pinSequence t.trace = pinSequence s.trace ++ latchCommandEvents a u

/-- The frame of READ between commands (R147): the answered byte is the one the samples gave and the one `rdata` holds;
the device, every byte of it, the marks and the configuration are left alone, but for the time of a select change. -/
def Obligations.ReadFrame : Prop :=
  ∀ (s : State) (a : Addr) (u : Byte), s.atRest → s.rst = [] →
    ∃ (t : State) (v : Byte), exec (.read a u) s = .next t ∧ t.atRest ∧ t.ctrl.rdata = Bits.ofBitVec v ∧
      t.dev = { s.dev with lastSelChange := t.dev.lastSelChange } ∧
      (∀ x, Memory.read t.dev.mem x = Memory.read s.dev.mem x) ∧ t.cfg = s.cfg ∧ t.faults = s.faults ∧
      t.refused = s.refused ∧ t.host = s.host ∧ t.rst = [] ∧ s.now + s.cfg.tReadAccess ≤ t.now ∧
      (s.newEvents t).length = (if s.cfg.readExitDeassert then 69 else 67) ∧
      pinSequence t.trace = pinSequence s.trace ++ readEvents s.cfg.readExitDeassert a u v

/-- The frame of WRITE between commands (R148): one pin sequence, the pulse record and the busy window of its own
pulse, which began at `b` and ended at `e`; the marks and the configuration are left alone, and with the device free
and the address defined, so is every byte but the addressed one. -/
def Obligations.WriteFrame : Prop :=
  ∀ (s : State) (a : Addr) (d : Byte), s.atRest → s.rst = [] →
    ∃ (t : State) (b e : Nat), exec (.write a d) s = .next t ∧ t.atRest ∧ s.now ≤ b ∧ b + s.cfg.tStrobe ≤ e ∧
      e + s.cfg.tRecovery ≤ t.now ∧
      t.dev =
        { s.dev with
          mem := t.dev.mem
          busyUntil := e + s.cfg.tWcDev
          wcAddr := Bits.ofBitVec a
          pulseStart := some b
          pulseAddr := Bits.ofBitVec a
          pulseData := Bits.ofBitVec d
          pulseBusyAtStart := some (decide (b < s.dev.busyUntil))
          pulseUnstable := false
          lastSelChange := t.dev.lastSelChange } ∧
      (s.memInv → s.deviceFree → s.cfg.reaches a → ∀ x, x ≠ s.cfg.cellOf a →
        Memory.read t.dev.mem x = Memory.read s.dev.mem x) ∧
      t.cfg = s.cfg ∧ t.faults = s.faults ∧ t.refused = s.refused ∧ t.host = s.host ∧ t.rst = [] ∧
      (s.newEvents t).length = 71 ∧ pinSequence t.trace = pinSequence s.trace ++ writeEvents a d

/-- R160: before each of the eight samples of READ the device drives and its output has had `T_READ_ACCESS` to settle;
and the answer is the stored byte, where that covers the access time, the device is not busy and the address has a
defined result. -/
def Obligations.ReadAnswersTheStoredByte : Prop :=
  ∀ (s : State) (a : Addr) (u : Byte), s.atRest → s.rst = [] →
    (∀ k, 57 ≤ k → k ≤ 64 → ∀ t, steps ((Instr.uops s.cfg (.read a u)).take k) ((Instr.read a u).accepted s) = t →
      t.ctrl.devDrives = true ∧ s.cfg.tReadAccess ≤ t.now - t.dev.lastSelChange ∧
        ∃ i : Fin 8, i.val = 64 - k ∧ (Instr.uops s.cfg (.read a u))[k]? = some (.sample i)) ∧
      (s.cfg.tAccessDev ≤ s.cfg.tReadAccess → s.deviceFree → s.cfg.reaches a →
        ∃ t, exec (.read a u) s = .next t ∧
          t.ctrl.rdata = Bits.ofBitVec (Memory.read s.dev.mem (s.cfg.cellOf a)) ∧
          pinSequence t.trace =
            pinSequence s.trace ++
              readEvents s.cfg.readExitDeassert a u (Memory.read s.dev.mem (s.cfg.cellOf a)))

/-- R148, R58: a WRITE with the device free, at an address with a defined result and with a strobe the device accepts,
stores its byte in the addressed cell, commits it in one event, and leaves every other cell; the device is free again
where the recovery covers its write cycle. -/
def Obligations.WriteStoresTheByte : Prop :=
  ∀ (s : State) (a : Addr) (d : Byte), s.atRest → s.rst = [] → s.memInv → s.deviceFree → s.cfg.reaches a →
    s.cfg.tWpDev ≤ s.cfg.tStrobe →
      ∃ (t : State) (e : Event), exec (.write a d) s = .next t ∧
        (∀ x, Memory.read t.dev.mem x = if x = s.cfg.cellOf a then d else Memory.read s.dev.mem x) ∧
        e ∈ s.newEvents t ∧ e.kind = .commit (s.cfg.cellOf a) d ∧
        ((s.newEvents t).filter fun f => f.kind.byDevice) = [e] ∧
        (s.cfg.tWcDev ≤ s.cfg.tRecovery → t.deviceFree) ∧ t.memInv

/-- R62: an address outside `[0, ADDR_SPACE)` is latched in all 16 bits, no fault is raised, and the device answers by
`OOR_MODE`: with UNDEFINED a READ samples a fresh draw on every line and a WRITE makes every cell a fresh draw; with
ALIAS both use the cell of the wired lines. -/
def Obligations.OutOfRangeAddress : Prop :=
  ∀ (s : State) (a : Addr) (d : Byte), s.atRest → s.rst = [] → s.memInv → s.deviceFree → s.cfg.CfgOk →
    s.cfg.addrSpace ≤ a.toNat →
      ∃ r w : State, exec (.read a d) s = .next r ∧ exec (.write a d) s = .next w ∧
        r.chain.storage = Bits.ofBitVec a ∧ w.chain.storage = Bits.ofBitVec a ∧ r.faults = s.faults ∧
        w.faults = s.faults ∧
        (s.cfg.oorMode = .undefinedResult →
          (∃ k : Fin 8 → Nat, (∀ i, s.drew r (k i)) ∧ (∀ i j, i ≠ j → k i ≠ k j) ∧
            ∀ i : Fin 8, r.ctrl.rdata[i] = some (Config.freeBit (k i))) ∧
          ∃ k, s.draws ≤ k ∧ k + s.cfg.addrSpace ≤ w.draws ∧
            ∀ x, x < s.cfg.addrSpace → Memory.read w.dev.mem x = Config.freeByte (k + x)) ∧
        (s.cfg.oorMode = .aliased →
          r.ctrl.rdata = Bits.ofBitVec (Memory.read s.dev.mem (a.toNat % s.cfg.addrSpace)) ∧
            ∀ x, Memory.read w.dev.mem x =
              if x = a.toNat % s.cfg.addrSpace then d else Memory.read s.dev.mem x)

/-- R64: a READ leaves the array; a WRITE of the byte a cell already holds leaves it too, with the pin sequence of any
other WRITE of it, and still starts a busy window. -/
def Obligations.RewritingTheSameByte : Prop :=
  ∀ (s : State) (a : Addr) (d : Byte), s.atRest → s.rst = [] →
    (∃ t, exec (.read a d) s = .next t ∧ t.dev.mem = s.dev.mem) ∧
      (s.memInv → s.deviceFree → s.cfg.reaches a → s.cfg.tWpDev ≤ s.cfg.tStrobe →
        Memory.read s.dev.mem (s.cfg.cellOf a) = d →
          ∃ (t : State) (e : Nat), exec (.write a d) s = .next t ∧ t.dev.mem = s.dev.mem ∧
            pinSequence t.trace = pinSequence s.trace ++ writeEvents a d ∧ s.now ≤ e ∧
            t.dev.busyUntil = e + s.cfg.tWcDev ∧ t.dev.wcAddr = Bits.ofBitVec a)

/-- R156: a WRITE issued `n` times gives `n` copies of one pin sequence, the same from every state between commands. -/
def Obligations.RepeatedWritesRepeatThePinSequence : Prop :=
  ∀ (s : State) (a : Addr) (d : Byte) (n : Nat), s.atRest → s.rst = [] →
    ∃ t, execAll (List.replicate n (.write a d)) s = .next t ∧
      pinSequence t.trace = pinSequence s.trace ++ (List.replicate n (writeEvents a d)).flatten ∧
      (s.cfg.CfgOk → s.memInv → s.deviceFree → s.cfg.reaches a → Memory.read s.dev.mem (s.cfg.cellOf a) = d →
        t.dev.mem = s.dev.mem)

/-- R157: a WRITE, then any READs and LATCHes, then a READ of the address: the byte comes back, and no fault. -/
def Obligations.WriteThenRead : Prop :=
  ∀ (s : State) (a : Addr) (d u : Byte) (between : List Instr), s.atRest → s.rst = [] → s.memInv → s.cfg.CfgOk →
    s.deviceFree → s.cfg.reaches a → (∀ i ∈ between, i.isWrite = false) →
      ∃ t, execAll (.write a d :: between ++ [.read a u]) s = .next t ∧ t.ctrl.rdata = Bits.ofBitVec d ∧
        t.faults = s.faults ∧ (∃ e, t.trace.getLast? = some ⟨.rsp .read (some (Bits.ofBitVec d)), e⟩)

/-- 95_test_vectors.md W7, R92, R244: ERASE_ALL leaves 0xFF in every cell, whatever the array held, raises no fault,
accepts its addresses in ascending order, and takes at least its WAITs. -/
def Obligations.EraseAllErasesEveryCell : Prop :=
  ∀ s : State, s.atRest → s.rst = [] → s.memInv → s.cfg.CfgOk → s.deviceFree →
    ∃ t, execAll (eraseAll s.cfg) s = .next t ∧
      (∀ x, x < s.cfg.addrSpace → Memory.read t.dev.mem x = 0xFF#8) ∧ t.faults = s.faults ∧
      s.now + s.cfg.addrSpace * (s.cfg.tStrobe + s.cfg.tRecovery) ≤ t.now ∧
      pinSequence t.trace =
        pinSequence s.trace ++
          (List.range s.cfg.addrSpace).flatMap fun k => writeEvents (BitVec.ofNat 16 k) 0xFF#8

/-- R154, R155: in every WRITE between commands, WE is asserted (event 64) for `T_STROBE` or more until it is
deasserted (event 66), and `T_RECOVERY` or more lies between that and the RSP (event 70). -/
def Obligations.StrobeAndRecoveryTimes : Prop :=
  ∀ (s : State) (a : Addr) (d : Byte), s.atRest → s.rst = [] →
    ∃ (t : State) (x y z : Nat), exec (.write a d) s = .next t ∧ (s.newEvents t).length = 71 ∧
      (s.newEvents t)[64]? = some ⟨.pin .weN false, x⟩ ∧ (s.newEvents t)[66]? = some ⟨.pin .weN true, y⟩ ∧
      (s.newEvents t)[70]? = some ⟨.rsp .write none, z⟩ ∧ x + s.cfg.tStrobe ≤ y ∧ y + s.cfg.tRecovery ≤ z ∧
      z = t.now ∧ ((s.newEvents t).filter fun e => decide (∃ l, e.kind = .pin .weN l)).length = 3

/-- R149: at k = 3 of READ and WRITE, from any state, CE, OE and WE are deasserted, no pulse is active, the device does
not drive, and the direction change raises no fault. -/
def Obligations.SafeEntry : Prop :=
  ∀ (s : State) (c : Config) (a : Bits 16) (us : List Uop), us = readTable c a ∨ us = writeTable c a →
    ∀ t, steps (us.take 3) s = t →
      t.ctrl.ce = false ∧ t.ctrl.oe = false ∧ t.ctrl.we = false ∧ t.dev.pulseActive = false ∧
        t.ctrl.devDrives = false ∧ (steps (us.take 4) s).faults = t.faults

/-- R151, R132, R150: the order of the lines in the two tables, from any state with the clocks low: after `k` µops. -/
def Obligations.EnableOrder : Prop :=
  ∀ (s : State) (a : Addr) (d : Byte) (k : Nat), s.ctrl.sclk = false → s.ctrl.rclk = false →
    (∀ t, steps ((Instr.uops s.cfg (.write a d)).take k) ((Instr.write a d).accepted s) = t →
      (1 ≤ k ∧ k ≤ 62 → t.ctrl.ceN = true) ∧ (3 ≤ k ∧ k ≤ 63 → t.ctrl.weN = true) ∧
        (k = 63 → t.ctrl.ceN = false) ∧ (k = 64 ∨ k = 65 → t.ctrl.ceN = false ∧ t.ctrl.weN = false) ∧
        (53 ≤ k → t.chain.storage = Bits.ofBitVec a) ∧ (4 ≤ k → t.ctrl.allLines .output) ∧
        (62 ≤ k → t.ctrl.dout = Bits.ofBitVec d)) ∧
      ∀ t, steps ((Instr.uops s.cfg (.read a d)).take k) ((Instr.read a d).accepted s) = t →
        (1 ≤ k ∧ k ≤ 54 → t.ctrl.ceN = true) ∧ (2 ≤ k ∧ k ≤ 55 → t.ctrl.oeN = true) ∧
          (k = 55 → t.ctrl.ceN = false) ∧ (56 ≤ k ∧ k ≤ 65 → t.ctrl.ceN = false ∧ t.ctrl.oeN = false) ∧
          (53 ≤ k → t.chain.storage = Bits.ofBitVec a) ∧ (4 ≤ k → t.ctrl.allLines .input)

/-- R152, R153: WRITE never asserts OE and READ never asserts WE: not in the trace from any state, cut by a reset or
not; `oe_n` is 1 from k = 1 of WRITE on, and `we_n` from k = 2 of READ on. -/
def Obligations.WriteKeepsOeAndReadKeepsWeDeasserted : Prop :=
  ∀ (s : State) (a : Addr) (d : Byte),
    (∃ t, exec (.write a d) s = .next t ∧ ∀ e ∈ s.newEvents t, e.kind ≠ .pin .oeN false) ∧
      (∀ k, 2 ≤ k → (steps ((Instr.uops s.cfg (.write a d)).take k) ((Instr.write a d).accepted s)).ctrl.oeN = true) ∧
      (∃ t, exec (.read a d) s = .next t ∧ ∀ e ∈ s.newEvents t, e.kind ≠ .pin .weN false) ∧
      ∀ k, 3 ≤ k → (steps ((Instr.uops s.cfg (.read a d)).take k) ((Instr.read a d).accepted s)).ctrl.weN = true

/-- R232: a reset within the write pulse of a WRITE, which began at `b`, ends the pulse: the target commits if the
pulse was long enough and is a draw if it was not; the busy window starts. A reset after the pulse's end finds the
write committed. -/
def Obligations.ResetWithinTheWritePulse : Prop :=
  ∀ (s : State) (a : Addr) (d : Byte) (n : Nat) (rs : List Nat), s.atRest → s.memInv → s.deviceFree →
    s.cfg.reaches a → s.rst = n :: rs →
      (n = 65 ∨ n = 66 →
        ∃ (t : State) (b : Nat) (v : Byte), exec (.write a d) s = .next t ∧ t.ctrl.phase = .startup ∧ s.now ≤ b ∧
          b ≤ t.now ∧ t.dev.pulseStart = some b ∧ ⟨.pin .weN false, b⟩ ∈ s.newEvents t ∧
          (n = 66 → b + s.cfg.tStrobe ≤ t.now) ∧ t.dev.busyUntil = t.now + s.cfg.tWcDev ∧
          t.dev.pulseActive = false ∧
          (∀ x, Memory.read t.dev.mem x = if x = s.cfg.cellOf a then v else Memory.read s.dev.mem x) ∧
          (s.cfg.tWpDev ≤ t.now - b → v = d) ∧
          (t.now - b < s.cfg.tWpDev → ∃ k, s.drew t k ∧ v = Config.freeByte k)) ∧
      (67 ≤ n ∧ n ≤ 69 → s.cfg.tWpDev ≤ s.cfg.tStrobe →
        ∃ t : State, exec (.write a d) s = .next t ∧ t.ctrl.phase = .startup ∧
          ∀ x, Memory.read t.dev.mem x = if x = s.cfg.cellOf a then d else Memory.read s.dev.mem x) ∧
      (1 ≤ n ∧ n ≤ 64 →
        ∃ t : State, exec (.write a d) s = .next t ∧ t.ctrl.phase = .startup ∧ t.dev.mem = s.dev.mem)

/-- R72: a transfer in read hold that changes a wired address line restarts the valid-output time and raises no fault,
and from then on the device drives the new cell's byte. -/
def Obligations.LatchMovesTheDrivenOutput : Prop :=
  ∀ (s : State) (a : Addr), s.ctrl.readHold → s.ctrl.rclk = false → s.dev.pulseActive = false →
    s.chain.shift = Bits.ofBitVec a →
      ∀ t, ctrlStep (.setRclk true) s = t →
        t.faults = s.faults ∧ t.ctrl.devDrives = true ∧ t.chain.storage = Bits.ofBitVec a ∧
          ((∃ i : Fin 16, i.val < s.cfg.addrBits ∧ s.chain.storage[i] ≠ t.chain.storage[i]) →
            t.dev.lastSelChange = t.now) ∧
          ∀ d : Nat, t.dev.busyUntil ≤ t.now + d → t.cfg.tAccessDev ≤ t.now + d - t.dev.lastSelChange →
            t.cfg.reaches a → ∀ i : Fin 8,
              (t.hostIdle d).line i = .device (some ((Memory.read t.dev.mem (t.cfg.cellOf a)).getLsbD i))

/-- R58, R73, R44: an unstable pulse whose end leaves an address line with no value; a reset leaves all of them so, and
CE deasserted. R73 then names no cell on the address lines: that every cell becomes a fresh draw is the model's reading
(log 8); the order of the draws is its choice (log 11). -/
def Obligations.UnstablePulseAtNoAddressDraws : Prop :=
  (∀ s : State, s.afterEvent s.resetEvent ∧ s.resetEvent.ctrl.ceN = true ∧
    Bits.known s.resetEvent.chain.storage = false) ∧
    ∀ (s t : State) (a : Addr), s.afterEvent t → s.dev.pulseActive = true → t.ctrl.ceN = true ∨ t.ctrl.weN = true →
      s.dev.pulseAddr = Bits.ofBitVec a → s.dev.pulseBusyAtStart = some false → s.cfg.reaches a →
        s.dev.pulseUnstable = true → Bits.known t.chain.storage = false →
          ∃ k, s.draws ≤ k ∧ k + s.cfg.addrSpace ≤ t.draws ∧ t.trace.getLast? = some ⟨.corrupt .all, t.now⟩ ∧
            ∀ x, x < s.cfg.addrSpace → Memory.read t.dev.mem x = Config.freeByte (k + x)
end

