-- ==== Sys2Proof/Laws/Bits.lean ====
section
/-! SUPPORT. Lemmas about bit vectors with unknown bits. -/

namespace Sys2Proof.Machine

@[simp] theorem Bits.getElem_ofBitVec {n : Nat} (v : BitVec n) (i : Nat) (h : i < n) :
    (Bits.ofBitVec v)[i] = some v[i] := by
  simp [Bits.ofBitVec]

@[simp] theorem Bits.getElem_unknown {n : Nat} (i : Nat) (h : i < n) : (Bits.unknown n)[i] = none := by
  simp [Bits.unknown]

@[simp] theorem Bits.getElem_shiftIn {n : Nat} (v : Bits n) (b : TBit) (i : Nat) (h : i < n) :
    (Bits.shiftIn v b)[i] = if i = 0 then b else v[i - 1] := by
  simp [Bits.shiftIn]

theorem Bits.getElem_setBit {n : Nat} (v : Bits n) (i j : Fin n) (b : TBit) :
    (Bits.setBit v i b)[j] = if i = j then b else v[j] := by
  simp [Bits.setBit, Vector.getElem_set, Fin.ext_iff]

theorem Bits.known_iff {n : Nat} (v : Bits n) : Bits.known v = true ↔ ∀ (i : Nat) (h : i < n), v[i].isSome := by
  simp only [Bits.known, List.all_eq_true, Vector.mem_toList_iff, Vector.mem_iff_getElem]
  exact ⟨fun h i hi => h _ ⟨i, hi, rfl⟩, fun h x ⟨i, hi, e⟩ => e ▸ h i hi⟩

@[simp] theorem Bits.known_ofBitVec {n : Nat} (v : BitVec n) : Bits.known (Bits.ofBitVec v) = true := by
  simp [Bits.known_iff]

@[simp] theorem Bits.known_unknown (n : Nat) : Bits.known (Bits.unknown (n + 1)) = false := by
  have h : ¬Bits.known (Bits.unknown (n + 1)) = true := by
    rw [Bits.known_iff]
    intro h
    simpa using h 0 (by omega)
  simpa using h

@[simp] theorem Bits.value?_ofBitVec {n : Nat} (v : BitVec n) : Bits.value? (Bits.ofBitVec v) = some v := by
  simp only [Bits.value?, Bits.known_ofBitVec, if_true, Option.some.injEq]
  apply BitVec.eq_of_getLsbD_eq
  intro i hi
  simp [hi]

theorem Bits.value?_eq_some {n : Nat} (v : Bits n) (w : BitVec n) :
    Bits.value? v = some w ↔ v = Bits.ofBitVec w := by
  refine ⟨fun h => ?_, fun h => h ▸ Bits.value?_ofBitVec w⟩
  simp only [Bits.value?] at h
  split at h
  · next hk =>
    cases h
    rw [Bits.known_iff] at hk
    ext1 i hi
    obtain ⟨b, hb⟩ := Option.isSome_iff_exists.mp (hk i hi)
    simp [hb]
  · cases h

theorem Bits.value?_of_known {n : Nat} (v : Bits n) (h : Bits.known v = true) :
    ∃ w, Bits.value? v = some w ∧ v = Bits.ofBitVec w := by
  have hv : Bits.value? v = some (BitVec.ofFnLE fun i => v[i].getD false) := by simp only [Bits.value?, h, if_true]
  exact ⟨_, hv, (Bits.value?_eq_some v _).mp hv⟩

/-- The bits of `v` are the `k` top bits of `a`, low end first, in the low `k` places: what `k` shifts of the serial
stream of `a` leave. -/
def Bits.holdsTop {n : Nat} (a : BitVec n) (k : Nat) (v : Bits n) : Prop :=
  ∀ (i : Nat) (h : i < n), i < k → v[i] = some (a.getLsbD (n - k + i))

theorem Bits.holdsTop_zero {n : Nat} (a : BitVec n) (v : Bits n) : Bits.holdsTop a 0 v :=
  fun _ _ h => absurd h (by omega)

theorem Bits.holdsTop_shiftIn {n : Nat} (a : BitVec n) (k : Nat) (hk : k < n) (v : Bits n)
    (h : Bits.holdsTop a k v) : Bits.holdsTop a (k + 1) (Bits.shiftIn v (some (a.getLsbD (n - 1 - k)))) := by
  intro i hi hik
  by_cases h0 : i = 0
  · subst h0
    simp only [Bits.getElem_shiftIn, if_true]
    congr 2
    omega
  · simp only [Bits.getElem_shiftIn, h0, if_false]
    rw [h (i - 1) (by omega) (by omega)]
    congr 2
    omega

theorem Bits.holdsTop_full {n : Nat} (a : BitVec n) (v : Bits n) (h : Bits.holdsTop a n v) :
    v = Bits.ofBitVec a := by
  ext1 i hi
  simpa [hi] using h i hi hi

end Sys2Proof.Machine
end

