-- ==== Sys2Proof/Laws/Memory.lean ====
section
/-! SUPPORT. The laws of the device array: read after write, and that every operation keeps the canonical form. -/

namespace Sys2Proof.Machine

/-- Every listed cell of `m` lies at an address above `a`. -/
def Memory.above (a : Nat) (m : Memory) : Bool := m.all fun c => decide (a < c.1)

theorem Memory.wf_cons (a : Nat) (v : Byte) (m : Memory) :
    Memory.wf ((a, v) :: m) = true ↔ v ≠ unlistedByte a ∧ Memory.above a m = true ∧ Memory.wf m = true := by
  simp [Memory.wf, Memory.above, and_assoc]

@[simp] theorem Memory.above_nil (a : Nat) : Memory.above a [] = true := rfl

@[simp] theorem Memory.above_cons (a b : Nat) (v : Byte) (m : Memory) :
    Memory.above a ((b, v) :: m) = true ↔ a < b ∧ Memory.above a m = true := by
  simp [Memory.above]

theorem Memory.above_mono {a b : Nat} {m : Memory} (hab : a ≤ b) (h : Memory.above b m = true) :
    Memory.above a m = true := by
  simp only [Memory.above, List.all_eq_true, decide_eq_true_eq] at *
  exact fun c hc => lt_of_le_of_lt hab (h c hc)

@[simp] theorem Memory.read_nil (a : Nat) : Memory.read [] a = unlistedByte a := rfl

theorem Memory.read_above {a : Nat} {m : Memory} (h : Memory.above a m = true) :
    Memory.read m a = unlistedByte a := by
  induction m with
  | nil => rfl
  | cons c m ih =>
    obtain ⟨b, v⟩ := c
    rw [Memory.above_cons] at h
    simp [Memory.read, Nat.ne_of_lt h.1, ih h.2]

theorem Memory.read_cons {a : Nat} {v : Byte} {m : Memory} (h : Memory.above a m = true) (b : Nat) :
    Memory.read (Memory.cons a v m) b = if b = a then v else Memory.read m b := by
  unfold Memory.cons
  split
  · next hv =>
    split
    · next hb => rw [hb, hv]; exact Memory.read_above h
    · rfl
  · rfl

theorem Memory.cons_wf {a : Nat} {v : Byte} {m : Memory} (h : Memory.above a m = true) (hm : Memory.wf m = true) :
    Memory.wf (Memory.cons a v m) = true := by
  unfold Memory.cons
  split
  · exact hm
  · next hv => exact (Memory.wf_cons a v m).mpr ⟨hv, h, hm⟩

theorem Memory.above_cons_op {a b : Nat} {v : Byte} {m : Memory} (hb : b < a) (h : Memory.above b m = true) :
    Memory.above b (Memory.cons a v m) = true := by
  unfold Memory.cons
  split
  · exact h
  · exact (Memory.above_cons b a v m).mpr ⟨hb, h⟩

theorem Memory.above_write {a b : Nat} {v : Byte} {m : Memory} (hb : b < a) (h : Memory.above b m = true) :
    Memory.above b (Memory.write m a v) = true := by
  induction m with
  | nil => exact Memory.above_cons_op hb h
  | cons c m ih =>
    obtain ⟨d, w⟩ := c
    rw [Memory.above_cons] at h
    simp only [Memory.write]
    split
    · exact Memory.above_cons_op hb ((Memory.above_cons _ _ _ _).mpr h)
    · split
      · exact Memory.above_cons_op hb h.2
      · exact (Memory.above_cons _ _ _ _).mpr ⟨h.1, ih h.2⟩

/-- A write keeps the canonical form. -/
theorem Memory.write_wf {m : Memory} (hm : Memory.wf m = true) (a : Nat) (v : Byte) :
    Memory.wf (Memory.write m a v) = true := by
  induction m with
  | nil => exact Memory.cons_wf rfl rfl
  | cons c m ih =>
    obtain ⟨b, w⟩ := c
    have hm' := (Memory.wf_cons b w m).mp hm
    simp only [Memory.write]
    split
    · next hab =>
      exact Memory.cons_wf ((Memory.above_cons _ _ _ _).mpr ⟨hab, Memory.above_mono (by omega) hm'.2.1⟩) hm
    · split
      · next hab => exact Memory.cons_wf (hab ▸ hm'.2.1) hm'.2.2
      · exact (Memory.wf_cons _ _ _).mpr ⟨hm'.1, Memory.above_write (by omega) hm'.2.1, ih hm'.2.2⟩

/-- Read after write, at the written cell and at every other one. -/
theorem Memory.read_write {m : Memory} (hm : Memory.wf m = true) (a : Nat) (v : Byte) (b : Nat) :
    Memory.read (Memory.write m a v) b = if b = a then v else Memory.read m b := by
  induction m with
  | nil => exact Memory.read_cons rfl b
  | cons c m ih =>
    obtain ⟨d, w⟩ := c
    have hm' := (Memory.wf_cons d w m).mp hm
    simp only [Memory.write]
    split
    · next hab =>
      exact Memory.read_cons ((Memory.above_cons _ _ _ _).mpr ⟨hab, Memory.above_mono (by omega) hm'.2.1⟩) b
    · split
      · next hab =>
        rw [Memory.read_cons (hab ▸ hm'.2.1)]
        by_cases hb : b = a
        · simp [hb]
        · simp [Memory.read, hb, hab ▸ hb]
      · next hlt hne =>
        simp only [Memory.read, ih hm'.2.2]
        by_cases hb : b = d
        · have : d ≠ a := fun h => hne h.symm
          simp [hb, this]
        · simp [hb]

/-- The canonical form is canonical: two such lists that read alike are one list. -/
theorem Memory.ext {m n : Memory} (hm : Memory.wf m = true) (hn : Memory.wf n = true)
    (h : ∀ a, Memory.read m a = Memory.read n a) : m = n := by
  induction m generalizing n with
  | nil =>
    cases n with
    | nil => rfl
    | cons c n =>
      obtain ⟨b, w⟩ := c
      have := h b
      simp only [Memory.read, if_true] at this
      exact absurd this.symm ((Memory.wf_cons b w n).mp hn).1
  | cons c m ih =>
    obtain ⟨b, w⟩ := c
    have hm' := (Memory.wf_cons b w m).mp hm
    cases n with
    | nil =>
      have := h b
      simp only [Memory.read, if_true] at this
      exact absurd this hm'.1
    | cons d n =>
      obtain ⟨e, x⟩ := d
      have hn' := (Memory.wf_cons e x n).mp hn
      have hbe : b = e := by
        rcases Nat.lt_trichotomy b e with hlt | heq | hgt
        · have := h b
          rw [Memory.read_above ((Memory.above_cons _ _ _ _).mpr ⟨hlt, Memory.above_mono (by omega) hn'.2.1⟩)] at this
          simp only [Memory.read, if_true] at this
          exact absurd this hm'.1
        · exact heq
        · have := h e
          rw [Memory.read_above ((Memory.above_cons _ _ _ _).mpr ⟨hgt, Memory.above_mono (by omega) hm'.2.1⟩)] at this
          simp only [Memory.read, if_true] at this
          exact absurd this.symm hn'.1
      subst hbe
      have hw : w = x := by simpa [Memory.read] using h b
      subst hw
      congr 1
      refine ih hm'.2.2 hn'.2.2 fun a => ?_
      by_cases ha : a = b
      · rw [ha, Memory.read_above hm'.2.1, Memory.read_above hn'.2.1]
      · simpa [Memory.read, ha] using h a

theorem Memory.within_cons {size a : Nat} {v : Byte} {m : Memory} (ha : a < size)
    (h : Memory.within size m = true) : Memory.within size (Memory.cons a v m) = true := by
  unfold Memory.cons
  split
  · exact h
  · simpa [Memory.within, ha] using h

/-- A write inside the array keeps every listed cell inside it. -/
theorem Memory.write_within {size : Nat} {m : Memory} (h : Memory.within size m = true) {a : Nat} (ha : a < size)
    (v : Byte) : Memory.within size (Memory.write m a v) = true := by
  induction m with
  | nil => exact Memory.within_cons ha rfl
  | cons c m ih =>
    obtain ⟨b, w⟩ := c
    have h' : b < size ∧ Memory.within size m = true := by simpa [Memory.within] using h
    simp only [Memory.write]
    split
    · exact Memory.within_cons ha h
    · split
      · exact Memory.within_cons ha h'.2
      · have := ih h'.2
        simp only [Memory.within, List.all_cons, Bool.and_eq_true, decide_eq_true_eq] at this ⊢
        exact ⟨h'.1, this⟩

theorem Memory.fillFrom_above (f : Nat → Byte) (n lo b : Nat) (hb : b < lo) :
    Memory.above b (Memory.fillFrom f lo n) = true := by
  induction n generalizing lo with
  | zero => rfl
  | succ n ih => exact Memory.above_cons_op hb (ih (lo + 1) (by omega))

theorem Memory.fillFrom_wf (f : Nat → Byte) (n lo : Nat) : Memory.wf (Memory.fillFrom f lo n) = true := by
  induction n generalizing lo with
  | zero => rfl
  | succ n ih => exact Memory.cons_wf (Memory.fillFrom_above f n (lo + 1) lo (by omega)) (ih (lo + 1))

theorem Memory.fillFrom_read (f : Nat → Byte) (n lo a : Nat) :
    Memory.read (Memory.fillFrom f lo n) a = if lo ≤ a ∧ a < lo + n then f a else unlistedByte a := by
  induction n generalizing lo with
  | zero =>
    have : ¬(lo ≤ a ∧ a < lo + 0) := by omega
    simp [Memory.fillFrom, this]
  | succ n ih =>
    rw [Memory.fillFrom, Memory.read_cons (Memory.fillFrom_above f n (lo + 1) lo (by omega)), ih]
    by_cases h : a = lo
    · subst h
      simp
    · have : (lo + 1 ≤ a ∧ a < lo + 1 + n) ↔ (lo ≤ a ∧ a < lo + (n + 1)) := by omega
      simp only [if_neg h, this]

theorem Memory.fillFrom_within (f : Nat → Byte) (n lo size : Nat) (h : lo + n ≤ size) :
    Memory.within size (Memory.fillFrom f lo n) = true := by
  induction n generalizing lo with
  | zero => rfl
  | succ n ih => exact Memory.within_cons (by omega) (ih (lo + 1) (by omega))

@[simp] theorem Memory.fill_wf (size : Nat) (f : Nat → Byte) : Memory.wf (Memory.fill size f) = true :=
  Memory.fillFrom_wf f size 0

@[simp] theorem Memory.fill_within (size : Nat) (f : Nat → Byte) :
    Memory.within size (Memory.fill size f) = true :=
  Memory.fillFrom_within f size 0 size (by omega)

/-- Every cell of a filled array holds its value. -/
theorem Memory.read_fill {size : Nat} {f : Nat → Byte} {a : Nat} (h : a < size) :
    Memory.read (Memory.fill size f) a = f a := by
  rw [Memory.fill, Memory.fillFrom_read, if_pos ⟨by omega, by omega⟩]

end Sys2Proof.Machine
end

