-- ==== Sys2Proof/Laws/State.lean ====
section
/-! SUPPORT. What each shared operation does to each field of State: one lemma per field. -/

namespace Sys2Proof.Machine

@[simp] theorem State.emit_cfg (k : EventKind) (s : State) : (s.emit k).cfg = s.cfg := rfl

@[simp] theorem State.emit_ctrl (k : EventKind) (s : State) : (s.emit k).ctrl = s.ctrl := rfl

@[simp] theorem State.emit_chain (k : EventKind) (s : State) : (s.emit k).chain = s.chain := rfl

@[simp] theorem State.emit_dev (k : EventKind) (s : State) : (s.emit k).dev = s.dev := rfl

@[simp] theorem State.emit_now (k : EventKind) (s : State) : (s.emit k).now = s.now := rfl

@[simp] theorem State.emit_trace (k : EventKind) (s : State) : (s.emit k).trace = s.trace ++ [⟨k, s.now⟩] := rfl

@[simp] theorem State.emit_faults (k : EventKind) (s : State) : (s.emit k).faults = s.faults := rfl

@[simp] theorem State.emit_refused (k : EventKind) (s : State) : (s.emit k).refused = s.refused := rfl

@[simp] theorem State.emit_host (k : EventKind) (s : State) : (s.emit k).host = s.host := rfl

@[simp] theorem State.emit_rst (k : EventKind) (s : State) : (s.emit k).rst = s.rst := rfl

@[simp] theorem State.emit_draws (k : EventKind) (s : State) : (s.emit k).draws = s.draws := rfl

@[simp] theorem State.passTime_cfg (n : Nat) (s : State) : (s.passTime n).cfg = s.cfg := rfl

@[simp] theorem State.passTime_ctrl (n : Nat) (s : State) : (s.passTime n).ctrl = s.ctrl := rfl

@[simp] theorem State.passTime_chain (n : Nat) (s : State) : (s.passTime n).chain = s.chain := rfl

@[simp] theorem State.passTime_dev (n : Nat) (s : State) : (s.passTime n).dev = s.dev := rfl

@[simp] theorem State.passTime_now (n : Nat) (s : State) : (s.passTime n).now = s.now + (n + Config.freeTime s.draws) := rfl

@[simp] theorem State.passTime_trace (n : Nat) (s : State) : (s.passTime n).trace = s.trace := rfl

@[simp] theorem State.passTime_faults (n : Nat) (s : State) : (s.passTime n).faults = s.faults := rfl

@[simp] theorem State.passTime_refused (n : Nat) (s : State) : (s.passTime n).refused = s.refused := rfl

@[simp] theorem State.passTime_host (n : Nat) (s : State) : (s.passTime n).host = s.host := rfl

@[simp] theorem State.passTime_rst (n : Nat) (s : State) : (s.passTime n).rst = s.rst := rfl

@[simp] theorem State.passTime_draws (n : Nat) (s : State) : (s.passTime n).draws = s.draws + 1 := rfl

@[simp] theorem State.beginEvent_cfg (s : State) : (s.beginEvent).cfg = s.cfg := rfl

@[simp] theorem State.beginEvent_ctrl (s : State) : (s.beginEvent).ctrl = s.ctrl := rfl

@[simp] theorem State.beginEvent_chain (s : State) : (s.beginEvent).chain = s.chain := rfl

@[simp] theorem State.beginEvent_dev (s : State) : (s.beginEvent).dev = s.dev := rfl

@[simp] theorem State.beginEvent_now (s : State) : (s.beginEvent).now = s.now + (0 + Config.freeTime s.draws) := rfl

@[simp] theorem State.beginEvent_trace (s : State) : (s.beginEvent).trace = s.trace := rfl

@[simp] theorem State.beginEvent_faults (s : State) : (s.beginEvent).faults = s.faults := rfl

@[simp] theorem State.beginEvent_refused (s : State) : (s.beginEvent).refused = s.refused := rfl

@[simp] theorem State.beginEvent_host (s : State) : (s.beginEvent).host = s.host := rfl

@[simp] theorem State.beginEvent_rst (s : State) : (s.beginEvent).rst = countDown s.rst := rfl

@[simp] theorem State.beginEvent_draws (s : State) : (s.beginEvent).draws = s.draws + 1 := rfl

@[simp] theorem State.hostIdle_cfg (d : Nat) (s : State) : (s.hostIdle d).cfg = s.cfg := rfl

@[simp] theorem State.hostIdle_ctrl (d : Nat) (s : State) : (s.hostIdle d).ctrl = s.ctrl := rfl

@[simp] theorem State.hostIdle_chain (d : Nat) (s : State) : (s.hostIdle d).chain = s.chain := rfl

@[simp] theorem State.hostIdle_dev (d : Nat) (s : State) : (s.hostIdle d).dev = s.dev := rfl

@[simp] theorem State.hostIdle_now (d : Nat) (s : State) : (s.hostIdle d).now = s.now + d := rfl

@[simp] theorem State.hostIdle_trace (d : Nat) (s : State) : (s.hostIdle d).trace = s.trace := rfl

@[simp] theorem State.hostIdle_faults (d : Nat) (s : State) : (s.hostIdle d).faults = s.faults := rfl

@[simp] theorem State.hostIdle_refused (d : Nat) (s : State) : (s.hostIdle d).refused = s.refused := rfl

@[simp] theorem State.hostIdle_host (d : Nat) (s : State) : (s.hostIdle d).host = s.host := rfl

@[simp] theorem State.hostIdle_rst (d : Nat) (s : State) : (s.hostIdle d).rst = s.rst := rfl

@[simp] theorem State.hostIdle_draws (d : Nat) (s : State) : (s.hostIdle d).draws = s.draws := rfl

@[simp] theorem State.resetFields_cfg (s : State) : (s.resetFields).cfg = s.cfg := rfl

@[simp] theorem State.resetFields_ctrl (s : State) : (s.resetFields).ctrl = Ctrl.reset := rfl

@[simp] theorem State.resetFields_chain (s : State) : (s.resetFields).chain = Chain.reset := rfl

@[simp] theorem State.resetFields_dev (s : State) : (s.resetFields).dev = s.dev := rfl

@[simp] theorem State.resetFields_now (s : State) : (s.resetFields).now = s.now + (0 + Config.freeTime s.draws) := rfl

@[simp] theorem State.resetFields_trace (s : State) : (s.resetFields).trace = s.trace := rfl

@[simp] theorem State.resetFields_faults (s : State) : (s.resetFields).faults = s.faults := rfl

@[simp] theorem State.resetFields_refused (s : State) : (s.resetFields).refused = s.refused := rfl

@[simp] theorem State.resetFields_host (s : State) : (s.resetFields).host = s.host := rfl

@[simp] theorem State.resetFields_rst (s : State) : (s.resetFields).rst = s.rst.tail := rfl

@[simp] theorem State.resetFields_draws (s : State) : (s.resetFields).draws = s.draws + 1 := rfl

@[simp] theorem State.raiseFault_cfg (f : FaultCode) (e : Nat) (s : State) : (s.raiseFault f e).cfg = s.cfg := by
  unfold State.raiseFault; split <;> rfl

@[simp] theorem State.raiseFault_ctrl (f : FaultCode) (e : Nat) (s : State) : (s.raiseFault f e).ctrl = s.ctrl := by
  unfold State.raiseFault; split <;> rfl

@[simp] theorem State.raiseFault_chain (f : FaultCode) (e : Nat) (s : State) : (s.raiseFault f e).chain = s.chain := by
  unfold State.raiseFault; split <;> rfl

@[simp] theorem State.raiseFault_dev (f : FaultCode) (e : Nat) (s : State) : (s.raiseFault f e).dev = s.dev := by
  unfold State.raiseFault; split <;> rfl

@[simp] theorem State.raiseFault_now (f : FaultCode) (e : Nat) (s : State) : (s.raiseFault f e).now = s.now := by
  unfold State.raiseFault; split <;> rfl

@[simp] theorem State.raiseFault_trace (f : FaultCode) (e : Nat) (s : State) : (s.raiseFault f e).trace = s.trace := by
  unfold State.raiseFault; split <;> rfl

@[simp] theorem State.raiseFault_refused (f : FaultCode) (e : Nat) (s : State) : (s.raiseFault f e).refused = s.refused := by
  unfold State.raiseFault; split <;> rfl

@[simp] theorem State.raiseFault_host (f : FaultCode) (e : Nat) (s : State) : (s.raiseFault f e).host = s.host := by
  unfold State.raiseFault; split <;> rfl

@[simp] theorem State.raiseFault_rst (f : FaultCode) (e : Nat) (s : State) : (s.raiseFault f e).rst = s.rst := by
  unfold State.raiseFault; split <;> rfl

@[simp] theorem State.raiseFault_draws (f : FaultCode) (e : Nat) (s : State) : (s.raiseFault f e).draws = s.draws := by
  unfold State.raiseFault; split <;> rfl

@[simp] theorem State.refuse_cfg (r : RefusalReason) (s : State) : (s.refuse r).cfg = s.cfg := by
  unfold State.refuse; split <;> rfl

@[simp] theorem State.refuse_ctrl (r : RefusalReason) (s : State) : (s.refuse r).ctrl = s.ctrl := by
  unfold State.refuse; split <;> rfl

@[simp] theorem State.refuse_chain (r : RefusalReason) (s : State) : (s.refuse r).chain = s.chain := by
  unfold State.refuse; split <;> rfl

@[simp] theorem State.refuse_dev (r : RefusalReason) (s : State) : (s.refuse r).dev = s.dev := by
  unfold State.refuse; split <;> rfl

@[simp] theorem State.refuse_now (r : RefusalReason) (s : State) : (s.refuse r).now = s.now := by
  unfold State.refuse; split <;> rfl

@[simp] theorem State.refuse_trace (r : RefusalReason) (s : State) : (s.refuse r).trace = s.trace := by
  unfold State.refuse; split <;> rfl

@[simp] theorem State.refuse_faults (r : RefusalReason) (s : State) : (s.refuse r).faults = s.faults := by
  unfold State.refuse; split <;> rfl

@[simp] theorem State.refuse_host (r : RefusalReason) (s : State) : (s.refuse r).host = s.host := by
  unfold State.refuse; split <;> rfl

@[simp] theorem State.refuse_rst (r : RefusalReason) (s : State) : (s.refuse r).rst = s.rst := by
  unfold State.refuse; split <;> rfl

@[simp] theorem State.refuse_draws (r : RefusalReason) (s : State) : (s.refuse r).draws = s.draws := by
  unfold State.refuse; split <;> rfl

@[simp] theorem corruptCells_cfg (as : List Nat) (s : State) : (corruptCells as s).cfg = s.cfg := by
  induction as generalizing s with
  | nil => rfl
  | cons a as ih => simp [corruptCells, ih]

@[simp] theorem corruptCells_ctrl (as : List Nat) (s : State) : (corruptCells as s).ctrl = s.ctrl := by
  induction as generalizing s with
  | nil => rfl
  | cons a as ih => simp [corruptCells, ih]

@[simp] theorem corruptCells_chain (as : List Nat) (s : State) : (corruptCells as s).chain = s.chain := by
  induction as generalizing s with
  | nil => rfl
  | cons a as ih => simp [corruptCells, ih]

@[simp] theorem corruptCells_now (as : List Nat) (s : State) : (corruptCells as s).now = s.now := by
  induction as generalizing s with
  | nil => rfl
  | cons a as ih => simp [corruptCells, ih]

@[simp] theorem corruptCells_trace (as : List Nat) (s : State) : (corruptCells as s).trace = s.trace := by
  induction as generalizing s with
  | nil => rfl
  | cons a as ih => simp [corruptCells, ih]

@[simp] theorem corruptCells_faults (as : List Nat) (s : State) : (corruptCells as s).faults = s.faults := by
  induction as generalizing s with
  | nil => rfl
  | cons a as ih => simp [corruptCells, ih]

@[simp] theorem corruptCells_refused (as : List Nat) (s : State) : (corruptCells as s).refused = s.refused := by
  induction as generalizing s with
  | nil => rfl
  | cons a as ih => simp [corruptCells, ih]

@[simp] theorem corruptCells_host (as : List Nat) (s : State) : (corruptCells as s).host = s.host := by
  induction as generalizing s with
  | nil => rfl
  | cons a as ih => simp [corruptCells, ih]

@[simp] theorem corruptCells_rst (as : List Nat) (s : State) : (corruptCells as s).rst = s.rst := by
  induction as generalizing s with
  | nil => rfl
  | cons a as ih => simp [corruptCells, ih]

@[simp] theorem State.corrupt_cfg (set : CellSet) (s : State) : (s.corrupt set).cfg = s.cfg := by
  cases set <;> simp [State.corrupt]

@[simp] theorem State.corrupt_ctrl (set : CellSet) (s : State) : (s.corrupt set).ctrl = s.ctrl := by
  cases set <;> simp [State.corrupt]

@[simp] theorem State.corrupt_chain (set : CellSet) (s : State) : (s.corrupt set).chain = s.chain := by
  cases set <;> simp [State.corrupt]

@[simp] theorem State.corrupt_now (set : CellSet) (s : State) : (s.corrupt set).now = s.now := by
  cases set <;> simp [State.corrupt]

@[simp] theorem State.corrupt_faults (set : CellSet) (s : State) : (s.corrupt set).faults = s.faults := by
  cases set <;> simp [State.corrupt]

@[simp] theorem State.corrupt_refused (set : CellSet) (s : State) : (s.corrupt set).refused = s.refused := by
  cases set <;> simp [State.corrupt]

@[simp] theorem State.corrupt_host (set : CellSet) (s : State) : (s.corrupt set).host = s.host := by
  cases set <;> simp [State.corrupt]

@[simp] theorem State.corrupt_rst (set : CellSet) (s : State) : (s.corrupt set).rst = s.rst := by
  cases set <;> simp [State.corrupt]

@[simp] theorem State.commit_cfg (a : Nat) (v : Byte) (s : State) : (s.commit a v).cfg = s.cfg := rfl

@[simp] theorem State.commit_ctrl (a : Nat) (v : Byte) (s : State) : (s.commit a v).ctrl = s.ctrl := rfl

@[simp] theorem State.commit_chain (a : Nat) (v : Byte) (s : State) : (s.commit a v).chain = s.chain := rfl

@[simp] theorem State.commit_dev (a : Nat) (v : Byte) (s : State) : (s.commit a v).dev = { s.dev with mem := Memory.write s.dev.mem a v } := rfl

@[simp] theorem State.commit_now (a : Nat) (v : Byte) (s : State) : (s.commit a v).now = s.now := rfl

@[simp] theorem State.commit_trace (a : Nat) (v : Byte) (s : State) : (s.commit a v).trace = s.trace ++ [⟨.commit a v, s.now⟩] := rfl

@[simp] theorem State.commit_faults (a : Nat) (v : Byte) (s : State) : (s.commit a v).faults = s.faults := rfl

@[simp] theorem State.commit_refused (a : Nat) (v : Byte) (s : State) : (s.commit a v).refused = s.refused := rfl

@[simp] theorem State.commit_host (a : Nat) (v : Byte) (s : State) : (s.commit a v).host = s.host := rfl

@[simp] theorem State.commit_rst (a : Nat) (v : Byte) (s : State) : (s.commit a v).rst = s.rst := rfl

@[simp] theorem State.commit_draws (a : Nat) (v : Byte) (s : State) : (s.commit a v).draws = s.draws := rfl

@[simp] theorem State.pulseStore_cfg (s : State) : (s.pulseStore).cfg = s.cfg := by
  unfold State.pulseStore; repeat' split
  all_goals simp

@[simp] theorem State.pulseStore_ctrl (s : State) : (s.pulseStore).ctrl = s.ctrl := by
  unfold State.pulseStore; repeat' split
  all_goals simp

@[simp] theorem State.pulseStore_chain (s : State) : (s.pulseStore).chain = s.chain := by
  unfold State.pulseStore; repeat' split
  all_goals simp

@[simp] theorem State.pulseStore_now (s : State) : (s.pulseStore).now = s.now := by
  unfold State.pulseStore; repeat' split
  all_goals simp

@[simp] theorem State.pulseStore_faults (s : State) : (s.pulseStore).faults = s.faults := by
  unfold State.pulseStore; repeat' split
  all_goals simp

@[simp] theorem State.pulseStore_refused (s : State) : (s.pulseStore).refused = s.refused := by
  unfold State.pulseStore; repeat' split
  all_goals simp

@[simp] theorem State.pulseStore_host (s : State) : (s.pulseStore).host = s.host := by
  unfold State.pulseStore; repeat' split
  all_goals simp

@[simp] theorem State.pulseStore_rst (s : State) : (s.pulseStore).rst = s.rst := by
  unfold State.pulseStore; repeat' split
  all_goals simp

@[simp] theorem State.pulseEnd_cfg (s : State) : (s.pulseEnd).cfg = s.cfg := by simp [State.pulseEnd]

@[simp] theorem State.pulseEnd_ctrl (s : State) : (s.pulseEnd).ctrl = s.ctrl := by simp [State.pulseEnd]

@[simp] theorem State.pulseEnd_chain (s : State) : (s.pulseEnd).chain = s.chain := by simp [State.pulseEnd]

@[simp] theorem State.pulseEnd_now (s : State) : (s.pulseEnd).now = s.now := by simp [State.pulseEnd]

@[simp] theorem State.pulseEnd_faults (s : State) : (s.pulseEnd).faults = s.faults := by simp [State.pulseEnd]

@[simp] theorem State.pulseEnd_refused (s : State) : (s.pulseEnd).refused = s.refused := by simp [State.pulseEnd]

@[simp] theorem State.pulseEnd_host (s : State) : (s.pulseEnd).host = s.host := by simp [State.pulseEnd]

@[simp] theorem State.pulseEnd_rst (s : State) : (s.pulseEnd).rst = s.rst := by simp [State.pulseEnd]

@[simp] theorem State.pulseBegin_cfg (s : State) : (s.pulseBegin).cfg = s.cfg := rfl

@[simp] theorem State.pulseBegin_ctrl (s : State) : (s.pulseBegin).ctrl = s.ctrl := rfl

@[simp] theorem State.pulseBegin_chain (s : State) : (s.pulseBegin).chain = s.chain := rfl

@[simp] theorem State.pulseBegin_now (s : State) : (s.pulseBegin).now = s.now := rfl

@[simp] theorem State.pulseBegin_trace (s : State) : (s.pulseBegin).trace = s.trace := rfl

@[simp] theorem State.pulseBegin_faults (s : State) : (s.pulseBegin).faults = s.faults := rfl

@[simp] theorem State.pulseBegin_refused (s : State) : (s.pulseBegin).refused = s.refused := rfl

@[simp] theorem State.pulseBegin_host (s : State) : (s.pulseBegin).host = s.host := rfl

@[simp] theorem State.pulseBegin_rst (s : State) : (s.pulseBegin).rst = s.rst := rfl

@[simp] theorem State.pulseBegin_draws (s : State) : (s.pulseBegin).draws = s.draws := rfl

@[simp] theorem pulseHeld_cfg (old s : State) : (pulseHeld old s).cfg = s.cfg := by
  unfold pulseHeld; split <;> simp

@[simp] theorem pulseHeld_ctrl (old s : State) : (pulseHeld old s).ctrl = s.ctrl := by
  unfold pulseHeld; split <;> simp

@[simp] theorem pulseHeld_chain (old s : State) : (pulseHeld old s).chain = s.chain := by
  unfold pulseHeld; split <;> simp

@[simp] theorem pulseHeld_now (old s : State) : (pulseHeld old s).now = s.now := by
  unfold pulseHeld; split <;> simp

@[simp] theorem pulseHeld_trace (old s : State) : (pulseHeld old s).trace = s.trace := by
  unfold pulseHeld; split <;> simp

@[simp] theorem pulseHeld_refused (old s : State) : (pulseHeld old s).refused = s.refused := by
  unfold pulseHeld; split <;> simp

@[simp] theorem pulseHeld_host (old s : State) : (pulseHeld old s).host = s.host := by
  unfold pulseHeld; split <;> simp

@[simp] theorem pulseHeld_rst (old s : State) : (pulseHeld old s).rst = s.rst := by
  unfold pulseHeld; split <;> simp

@[simp] theorem pulseHeld_draws (old s : State) : (pulseHeld old s).draws = s.draws := by
  unfold pulseHeld; split <;> simp

@[simp] theorem State.checkFaults_cfg (e : Nat) (s : State) : (s.checkFaults e).cfg = s.cfg := by
  simp only [State.checkFaults]; repeat' split
  all_goals simp

@[simp] theorem State.checkFaults_ctrl (e : Nat) (s : State) : (s.checkFaults e).ctrl = s.ctrl := by
  simp only [State.checkFaults]; repeat' split
  all_goals simp

@[simp] theorem State.checkFaults_chain (e : Nat) (s : State) : (s.checkFaults e).chain = s.chain := by
  simp only [State.checkFaults]; repeat' split
  all_goals simp

@[simp] theorem State.checkFaults_dev (e : Nat) (s : State) : (s.checkFaults e).dev = s.dev := by
  simp only [State.checkFaults]; repeat' split
  all_goals simp

@[simp] theorem State.checkFaults_now (e : Nat) (s : State) : (s.checkFaults e).now = s.now := by
  simp only [State.checkFaults]; repeat' split
  all_goals simp

@[simp] theorem State.checkFaults_trace (e : Nat) (s : State) : (s.checkFaults e).trace = s.trace := by
  simp only [State.checkFaults]; repeat' split
  all_goals simp

@[simp] theorem State.checkFaults_refused (e : Nat) (s : State) : (s.checkFaults e).refused = s.refused := by
  simp only [State.checkFaults]; repeat' split
  all_goals simp

@[simp] theorem State.checkFaults_host (e : Nat) (s : State) : (s.checkFaults e).host = s.host := by
  simp only [State.checkFaults]; repeat' split
  all_goals simp

@[simp] theorem State.checkFaults_rst (e : Nat) (s : State) : (s.checkFaults e).rst = s.rst := by
  simp only [State.checkFaults]; repeat' split
  all_goals simp

@[simp] theorem State.checkFaults_draws (e : Nat) (s : State) : (s.checkFaults e).draws = s.draws := by
  simp only [State.checkFaults]; repeat' split
  all_goals simp

@[simp] theorem noteSelect_cfg (old s : State) : (noteSelect old s).cfg = s.cfg := by
  unfold noteSelect; split <;> rfl

@[simp] theorem noteSelect_ctrl (old s : State) : (noteSelect old s).ctrl = s.ctrl := by
  unfold noteSelect; split <;> rfl

@[simp] theorem noteSelect_chain (old s : State) : (noteSelect old s).chain = s.chain := by
  unfold noteSelect; split <;> rfl

@[simp] theorem noteSelect_now (old s : State) : (noteSelect old s).now = s.now := by
  unfold noteSelect; split <;> rfl

@[simp] theorem noteSelect_trace (old s : State) : (noteSelect old s).trace = s.trace := by
  unfold noteSelect; split <;> rfl

@[simp] theorem noteSelect_faults (old s : State) : (noteSelect old s).faults = s.faults := by
  unfold noteSelect; split <;> rfl

@[simp] theorem noteSelect_refused (old s : State) : (noteSelect old s).refused = s.refused := by
  unfold noteSelect; split <;> rfl

@[simp] theorem noteSelect_host (old s : State) : (noteSelect old s).host = s.host := by
  unfold noteSelect; split <;> rfl

@[simp] theorem noteSelect_rst (old s : State) : (noteSelect old s).rst = s.rst := by
  unfold noteSelect; split <;> rfl

@[simp] theorem noteSelect_draws (old s : State) : (noteSelect old s).draws = s.draws := by
  unfold noteSelect; split <;> rfl

@[simp] theorem pulseReact_cfg (old s : State) : (pulseReact old s).cfg = s.cfg := by
  unfold pulseReact; split <;> simp

@[simp] theorem pulseReact_ctrl (old s : State) : (pulseReact old s).ctrl = s.ctrl := by
  unfold pulseReact; split <;> simp

@[simp] theorem pulseReact_chain (old s : State) : (pulseReact old s).chain = s.chain := by
  unfold pulseReact; split <;> simp

@[simp] theorem pulseReact_now (old s : State) : (pulseReact old s).now = s.now := by
  unfold pulseReact; split <;> simp

@[simp] theorem pulseReact_refused (old s : State) : (pulseReact old s).refused = s.refused := by
  unfold pulseReact; split <;> simp

@[simp] theorem pulseReact_host (old s : State) : (pulseReact old s).host = s.host := by
  unfold pulseReact; split <;> simp

@[simp] theorem pulseReact_rst (old s : State) : (pulseReact old s).rst = s.rst := by
  unfold pulseReact; split <;> simp

@[simp] theorem devReact_cfg (old s : State) : (devReact old s).cfg = s.cfg := by simp [devReact]

@[simp] theorem devReact_ctrl (old s : State) : (devReact old s).ctrl = s.ctrl := by simp [devReact]

@[simp] theorem devReact_now (old s : State) : (devReact old s).now = s.now := by simp [devReact]

@[simp] theorem devReact_refused (old s : State) : (devReact old s).refused = s.refused := by simp [devReact]

@[simp] theorem devReact_host (old s : State) : (devReact old s).host = s.host := by simp [devReact]

@[simp] theorem devReact_rst (old s : State) : (devReact old s).rst = s.rst := by simp [devReact]

@[simp] theorem devReact_chain (old s : State) : (devReact old s).chain = s.chain.react old.ctrl s.ctrl := by
  simp [devReact]

@[simp] theorem State.resetEvent_cfg (s : State) : s.resetEvent.cfg = s.cfg := by simp [State.resetEvent]
@[simp] theorem State.resetEvent_ctrl (s : State) : s.resetEvent.ctrl = Ctrl.reset := by simp [State.resetEvent]
@[simp] theorem State.resetEvent_refused (s : State) : s.resetEvent.refused = s.refused := by simp [State.resetEvent]
@[simp] theorem State.resetEvent_host (s : State) : s.resetEvent.host = s.host := by simp [State.resetEvent]
@[simp] theorem State.resetEvent_rst (s : State) : s.resetEvent.rst = s.rst.tail := by simp [State.resetEvent]
@[simp] theorem State.resetEvent_now (s : State) : s.resetEvent.now = s.now + (0 + Config.freeTime s.draws) := by
  simp [State.resetEvent]

end Sys2Proof.Machine
end

