-- ==== Sys2Proof/Laws/Uops.lean ====
section
/-! SUPPORT. What a µop and a CTRL step can do: the fields every µop keeps, the fields every CTRL step keeps, and the
whole reaction where no write pulse and no fault check is involved. -/

namespace Sys2Proof.Machine

/-- What every µop keeps: it writes only CTRL, time, trace, faults and the draw count. -/
theorem execUop_keeps (u : Uop) (s : State) :
    (execUop u s).cfg = s.cfg ∧ (execUop u s).chain = s.chain ∧ (execUop u s).dev = s.dev ∧
      (execUop u s).refused = s.refused ∧ (execUop u s).host = s.host ∧ (execUop u s).rst = s.rst := by
  cases u with
  | setSer b => cases b <;> simp [execUop, State.setSer]
  | setDir d => simp only [execUop, State.setDir]; split <;> simp
  | sample i => simp only [execUop, State.sample]; split <;> simp
  | done => simp only [execUop, State.done]; split <;> simp
  | _ => simp [execUop, State.setSclk, State.setRclk, State.setCe, State.setOe, State.setWe, State.setDout, State.wait]

section
variable (u : Uop) (s : State)

@[simp] theorem execUop_cfg : (execUop u s).cfg = s.cfg := (execUop_keeps u s).1
@[simp] theorem execUop_chain : (execUop u s).chain = s.chain := (execUop_keeps u s).2.1
@[simp] theorem execUop_dev : (execUop u s).dev = s.dev := (execUop_keeps u s).2.2.1
@[simp] theorem execUop_refused : (execUop u s).refused = s.refused := (execUop_keeps u s).2.2.2.1
@[simp] theorem execUop_host : (execUop u s).host = s.host := (execUop_keeps u s).2.2.2.2.1
@[simp] theorem execUop_rst : (execUop u s).rst = s.rst := (execUop_keeps u s).2.2.2.2.2

@[simp] theorem advanceUpc_cfg : (advanceUpc u s).cfg = s.cfg := by cases u <;> rfl
@[simp] theorem advanceUpc_chain : (advanceUpc u s).chain = s.chain := by cases u <;> rfl
@[simp] theorem advanceUpc_dev : (advanceUpc u s).dev = s.dev := by cases u <;> rfl
@[simp] theorem advanceUpc_now : (advanceUpc u s).now = s.now := by cases u <;> rfl
@[simp] theorem advanceUpc_trace : (advanceUpc u s).trace = s.trace := by cases u <;> rfl
@[simp] theorem advanceUpc_faults : (advanceUpc u s).faults = s.faults := by cases u <;> rfl
@[simp] theorem advanceUpc_refused : (advanceUpc u s).refused = s.refused := by cases u <;> rfl
@[simp] theorem advanceUpc_host : (advanceUpc u s).host = s.host := by cases u <;> rfl
@[simp] theorem advanceUpc_rst : (advanceUpc u s).rst = s.rst := by cases u <;> rfl
@[simp] theorem advanceUpc_draws : (advanceUpc u s).draws = s.draws := by cases u <;> rfl

@[simp] theorem ctrlStep_cfg : (ctrlStep u s).cfg = s.cfg := by simp [ctrlStep]
@[simp] theorem ctrlStep_host : (ctrlStep u s).host = s.host := by simp [ctrlStep]
@[simp] theorem ctrlStep_refused : (ctrlStep u s).refused = s.refused := by simp [ctrlStep]
@[simp] theorem ctrlStep_rst : (ctrlStep u s).rst = countDown s.rst := by simp [ctrlStep]

end

@[simp] theorem countDown_nil : countDown [] = [] := rfl
@[simp] theorem countDown_succ (n : Nat) (rs : List Nat) : countDown ((n + 1) :: rs) = n :: rs := rfl

/-- CTRL after the µop's own writes and the advance of `upc`, for a µop that takes no drawn value. -/
def Ctrl.after : Uop → Ctrl → Ctrl
  | .setSer b, c => { c with ser := b.getD c.ser, upc := c.upc + 1 }
  | .setSclk b, c => { c with sclk := b, upc := c.upc + 1 }
  | .setRclk b, c => { c with rclk := b, upc := c.upc + 1 }
  | .setCe x, c => { c with ceN := x.level, upc := c.upc + 1 }
  | .setOe x, c => { c with oeN := x.level, upc := c.upc + 1 }
  | .setWe x, c => { c with weN := x.level, upc := c.upc + 1 }
  | .setDir d, c => { c with dir := Vector.replicate 8 d, upc := c.upc + 1 }
  | .setDout i, c => { c with dout := Bits.setBit c.dout i c.cmdData[i], upc := c.upc + 1 }
  | .sample _, c => { c with upc := c.upc + 1 }
  | .wait _, c => { c with upc := c.upc + 1 }
  | .done, c => { c with phase := .ready, upc := 0 }

/-- The event the µop records, for a µop that takes no drawn value; none for the DONE of STARTUP and for those that
do. -/
def Ctrl.records : Uop → Ctrl → List EventKind
  | .setSer (some b), _ => [.pin .ser b]
  | .setSclk b, _ => [.pin .sclk b]
  | .setRclk b, _ => [.pin .rclk b]
  | .setCe x, _ => [.pin .ceN x.level]
  | .setOe x, _ => [.pin .oeN x.level]
  | .setWe x, _ => [.pin .weN x.level]
  | .setDir d, _ => [.dir d]
  | .setDout i, c => [.dout i c.cmdData[i]]
  | .done, c => if c.phase = .startup then [] else [.rsp c.phase c.response]
  | _, _ => []

/-- The µop takes no drawn value but the gap: all but SAMPLE, WAIT and a SET_SER of `⊥`. -/
def Uop.plain : Uop → Bool
  | .setSer none => false
  | .sample _ => false
  | .wait _ => false
  | _ => true

/-- A µop that takes no drawn value, in closed form but for `faults`. -/
theorem execUop_plain {u : Uop} (h : u.plain = true) (s : State) :
    (advanceUpc u (execUop u s)).ctrl = s.ctrl.after u ∧ (execUop u s).now = s.now ∧
      (execUop u s).draws = s.draws ∧
      (execUop u s).trace = s.trace ++ (s.ctrl.records u).map (fun k => ⟨k, s.now⟩) := by
  cases u with
  | setSer b => 
    cases b with
    | none => simp [Uop.plain] at h
    | some b => simp [execUop, State.setSer, Ctrl.after, Ctrl.records, advanceUpc]
  | setDir d =>
    simp only [execUop, State.setDir]
    split <;> simp [Ctrl.after, Ctrl.records, advanceUpc]
  | sample i => simp [Uop.plain] at h
  | wait n => simp [Uop.plain] at h
  | done =>
    simp only [execUop, State.done]
    split <;> simp_all [Ctrl.after, Ctrl.records, advanceUpc]
  | _ => simp [execUop, State.setSclk, State.setRclk, State.setCe, State.setOe, State.setWe, State.setDout, Ctrl.after,
      Ctrl.records, advanceUpc]

/-- With these levels and address lines no write pulse is driven and no check of R54 steps 2-4 fires. -/
structure Calm (c : Ctrl) (st : Bits 16) : Prop where
  noStrobe : c.strobing = false
  exclusive : (c.oe && c.we) = false
  inputs : c.devDrives = true → c.allLines .input
  defined : c.devDrives = true → Bits.known st = true

theorem Ctrl.drivesSomeLine_input {c : Ctrl} (h : c.allLines .input) : c.drivesSomeLine = false := by
  rw [Ctrl.allLines] at h
  rw [Ctrl.drivesSomeLine, h]
  decide

/-- No fault is added where the levels are calm. -/
theorem checkFaults_calm {s : State} (h : Calm s.ctrl s.chain.storage) (e : Nat) : s.checkFaults e = s := by
  have h2 : (s.ctrl.devDrives && s.ctrl.drivesSomeLine) = false := by
    cases hd : s.ctrl.devDrives with
    | false => rfl
    | true => simp [Ctrl.drivesSomeLine_input (h.inputs hd)]
  have h3 : (s.ctrl.ce && (s.ctrl.oe || s.ctrl.we) && !Bits.known s.chain.storage) = false := by
    have hs := h.noStrobe
    have hi := h.defined
    simp only [Ctrl.strobing, Ctrl.devDrives] at hs hi
    cases hc : s.ctrl.ce <;> cases ho : s.ctrl.oe <;> cases hw : s.ctrl.we <;> simp_all
  simp [State.checkFaults, h.exclusive, h2, h3]

/-- The reaction where no write pulse is active and the levels after the event are calm: the chain's, and the time of a
select change. -/
theorem devReact_calm {old s : State} (hp : old.dev.pulseActive = false)
    (h : Calm s.ctrl (s.chain.react old.ctrl s.ctrl).storage) :
    devReact old s =
      noteSelect old { s with chain := s.chain.react old.ctrl s.ctrl } := by
  rw [devReact, checkFaults_calm (s := { s with chain := s.chain.react old.ctrl s.ctrl }) h]
  have hs : (noteSelect old { s with chain := s.chain.react old.ctrl s.ctrl }).ctrl.strobing = false := by
    simpa using h.noStrobe
  rw [pulseReact, hp, hs]

/-- `noteSelect` changes only `last_sel_change`. -/
theorem noteSelect_dev (old s : State) :
    (noteSelect old s).dev = { s.dev with lastSelChange := (noteSelect old s).dev.lastSelChange } := by
  unfold noteSelect
  split <;> rfl

@[simp] theorem noteSelect_mem (old s : State) : (noteSelect old s).dev.mem = s.dev.mem := by rw [noteSelect_dev]

theorem noteSelect_lastSelChange (old s : State) :
    (noteSelect old s).dev.lastSelChange = if selectChanged old s then s.now else s.dev.lastSelChange := by
  unfold noteSelect
  split <;> rfl

end Sys2Proof.Machine
end

