-- ==== Sys2Proof/Laws/Runs.lean ====
section
/-! SUPPORT. Runs of µops: a table's run without a reset and cut by one, and lists of plain µops whose levels stay
calm, with the latch sequence among them. -/

namespace Sys2Proof.Machine

@[simp] theorem steps_nil (s : State) : steps [] s = s := rfl
@[simp] theorem steps_cons (u : Uop) (us : List Uop) (s : State) : steps (u :: us) s = steps us (ctrlStep u s) := rfl
theorem steps_append (us vs : List Uop) (s : State) : steps (us ++ vs) s = steps vs (steps us s) := by
  simp [steps]

theorem rstDue_nil {s : State} (h : s.rst = []) : s.rstDue = false := by simp [State.rstDue, h]
theorem rstDue_zero {s : State} {rs : List Nat} (h : s.rst = 0 :: rs) : s.rstDue = true := by simp [State.rstDue, h]
theorem rstDue_succ {s : State} {n : Nat} {rs : List Nat} (h : s.rst = (n + 1) :: rs) : s.rstDue = false := by
  simp [State.rstDue, h]

/-- With no reset planned a table runs to its end. -/
theorem runTable_of_no_reset {us : List Uop} {s : State} (h : s.rst = []) : runTable us s = steps us s := by
  induction us generalizing s with
  | nil => rfl
  | cons u us ih => simp [runTable, rstDue_nil h, ih (s := ctrlStep u s) (by simp [h])]

/-- A reset planned after `n` CTRL events cuts a longer table there (R246); a shorter one is over before it. -/
theorem runTable_of_reset {us : List Uop} {s : State} {n : Nat} {rs : List Nat} (h : s.rst = n :: rs) :
    runTable us s = if n < us.length then (steps (us.take n) s).resetEvent else steps us s := by
  induction us generalizing s n with
  | nil => rfl
  | cons u us ih =>
    cases n with
    | zero => simp [runTable, rstDue_zero h]
    | succ n => simp [runTable, rstDue_succ h, ih (s := ctrlStep u s) (n := n) (by simp [h])]

/-- What a run of µops with no fault and no write pulse does besides CTRL and CHAIN: it records events of the kinds
`ks`, in time, and leaves the marks and, but for the select time, the device alone. -/
structure Ran (s t : State) (ks : List EventKind) : Prop where
  cfg : t.cfg = s.cfg
  host : t.host = s.host
  refused : t.refused = s.refused
  faults : t.faults = s.faults
  dev : t.dev = { s.dev with lastSelChange := t.dev.lastSelChange }
  now_le : s.now ≤ t.now
  trace : ∃ evs, t.trace = s.trace ++ evs ∧ evs.map Event.kind = ks ∧ ∀ e ∈ evs, s.now ≤ e.time ∧ e.time ≤ t.now

theorem Ran.refl (s : State) : Ran s s [] where
  cfg := rfl
  host := rfl
  refused := rfl
  faults := rfl
  dev := rfl
  now_le := Nat.le_refl _
  trace := ⟨[], by simp⟩

theorem Ran.trans {s t u : State} {ks ls : List EventKind} (h : Ran s t ks) (g : Ran t u ls) : Ran s u (ks ++ ls) where
  cfg := g.cfg.trans h.cfg
  host := g.host.trans h.host
  refused := g.refused.trans h.refused
  faults := g.faults.trans h.faults
  dev := by rw [g.dev, h.dev]
  now_le := h.now_le.trans g.now_le
  trace := by
    obtain ⟨es, h1, h2, h3⟩ := h.trace
    obtain ⟨fs, g1, g2, g3⟩ := g.trace
    refine ⟨es ++ fs, by rw [g1, h1, List.append_assoc], by rw [List.map_append, h2, g2], fun e he => ?_⟩
    rcases List.mem_append.mp he with he | he
    · exact ⟨(h3 e he).1, (h3 e he).2.trans g.now_le⟩
    · exact ⟨h.now_le.trans (g3 e he).1, (g3 e he).2⟩

theorem Ran.mem {s t : State} {ks : List EventKind} (h : Ran s t ks) : t.dev.mem = s.dev.mem := by rw [h.dev]

theorem Ran.pulseActive {s t : State} {ks : List EventKind} (h : Ran s t ks) :
    t.dev.pulseActive = s.dev.pulseActive := by rw [h.dev]

theorem Ran.pinSequence {s t : State} {ks : List EventKind} (h : Ran s t ks) :
    pinSequence t.trace = pinSequence s.trace ++ ks.filter EventKind.inPinSequence := by
  obtain ⟨es, h1, h2, -⟩ := h.trace
  simp only [Machine.pinSequence, h1, List.map_append, List.filter_append, h2]

/-- SET_DIR does not find OE or WE asserted; every other µop asks nothing. -/
def Uop.dirSafe : Uop → Ctrl → Prop
  | .setDir d, c => c.dirChangeEnabled d = false
  | _, _ => True

theorem execUop_faults {u : Uop} {s : State} (h : u.dirSafe s.ctrl) : (execUop u s).faults = s.faults := by
  cases u with
  | setSer b => cases b <;> simp [execUop, State.setSer]
  | setDir d =>
    have hd : s.ctrl.dirChangeEnabled d = false := h
    simp [execUop, State.setDir, hd]
  | sample i => simp only [execUop, State.sample]; split <;> simp
  | done => simp only [execUop, State.done]; split <;> simp
  | _ => simp [execUop, State.setSclk, State.setRclk, State.setCe, State.setOe, State.setWe, State.setDout, State.wait]

/-- One CTRL step whose levels stay calm: its effect on CTRL and CHAIN, its events being those of the µop. -/
theorem ran_calm {u : Uop} {s : State} (hp : s.dev.pulseActive = false) (hd : u.dirSafe s.ctrl)
    (hc : Calm (advanceUpc u (execUop u s.beginEvent)).ctrl
      (s.chain.react s.ctrl (advanceUpc u (execUop u s.beginEvent)).ctrl).storage)
    {ks : List EventKind} (hn : s.now ≤ (execUop u s.beginEvent).now)
    (ht : (execUop u s.beginEvent).trace = s.trace ++ ks.map (fun k => ⟨k, (execUop u s.beginEvent).now⟩)) :
    Ran s (ctrlStep u s) ks ∧ (ctrlStep u s).ctrl = (advanceUpc u (execUop u s.beginEvent)).ctrl ∧
      (ctrlStep u s).chain = s.chain.react s.ctrl (advanceUpc u (execUop u s.beginEvent)).ctrl := by
  have hr := devReact_calm (old := s) (s := advanceUpc u (execUop u s.beginEvent)) hp (by simpa using hc)
  refine ⟨⟨by simp, by simp, by simp, ?_, ?_, ?_, ?_⟩, by simp [ctrlStep], by simp [ctrlStep]⟩
  · rw [ctrlStep, hr]
    simpa using execUop_faults (s := s.beginEvent) (by simpa using hd)
  · rw [ctrlStep, hr, noteSelect_dev]
    simp
  · simpa [ctrlStep] using hn
  · refine ⟨ks.map (fun k => ⟨k, (execUop u s.beginEvent).now⟩), ?_, ?_, ?_⟩
    · rw [ctrlStep, hr]
      simpa using ht
    · simp [Function.comp_def]
    · intro e he
      obtain ⟨k, -, rfl⟩ := List.mem_map.mp he
      simp [ctrlStep, hn]

/-- One CTRL step with a plain µop whose levels stay calm. -/
theorem ran_plain {u : Uop} {s : State} (hu : u.plain = true) (hp : s.dev.pulseActive = false)
    (hd : u.dirSafe s.ctrl)
    (hc : Calm (s.ctrl.after u) (s.chain.react s.ctrl (s.ctrl.after u)).storage) :
    Ran s (ctrlStep u s) (s.ctrl.records u) ∧ (ctrlStep u s).ctrl = s.ctrl.after u ∧
      (ctrlStep u s).chain = s.chain.react s.ctrl (s.ctrl.after u) := by
  obtain ⟨h1, h2, -, h4⟩ := execUop_plain hu s.beginEvent
  simp only [State.beginEvent_ctrl] at h1 h4
  have := ran_calm (u := u) hp hd (by rw [h1]; exact hc) (ks := s.ctrl.records u)
    (by rw [h2]; simp) (by rw [h4, h2]; simp)
  rwa [h1] at this

/-- CTRL and CHAIN after plain µops. -/
def pinsAfter : List Uop → Ctrl × Chain → Ctrl × Chain
  | [], p => p
  | u :: us, (c, h) => pinsAfter us (c.after u, h.react c (c.after u))

/-- The events plain µops record. -/
def recordsOf : List Uop → Ctrl × Chain → List EventKind
  | [], _ => []
  | u :: us, (c, h) => c.records u ++ recordsOf us (c.after u, h.react c (c.after u))

/-- CHAIN does not react where the two clocks keep their levels. -/
theorem react_of_clocks (c d : Ctrl) (h : Chain) (h1 : d.sclk = c.sclk) (h2 : d.rclk = c.rclk) :
    h.react c d = h := by
  simp [Chain.react, Chain.shifted, h1, h2]

@[simp] theorem react_setSer (b : TBit) (c : Ctrl) (h : Chain) : h.react c (c.after (.setSer b)) = h :=
  react_of_clocks _ _ _ rfl rfl
@[simp] theorem react_setCe (x : Drive) (c : Ctrl) (h : Chain) : h.react c (c.after (.setCe x)) = h :=
  react_of_clocks _ _ _ rfl rfl
@[simp] theorem react_setOe (x : Drive) (c : Ctrl) (h : Chain) : h.react c (c.after (.setOe x)) = h :=
  react_of_clocks _ _ _ rfl rfl
@[simp] theorem react_setWe (x : Drive) (c : Ctrl) (h : Chain) : h.react c (c.after (.setWe x)) = h :=
  react_of_clocks _ _ _ rfl rfl
@[simp] theorem react_setDir (d : Dir) (c : Ctrl) (h : Chain) : h.react c (c.after (.setDir d)) = h :=
  react_of_clocks _ _ _ rfl rfl
@[simp] theorem react_setDout (i : Fin 8) (c : Ctrl) (h : Chain) : h.react c (c.after (.setDout i)) = h :=
  react_of_clocks _ _ _ rfl rfl
@[simp] theorem react_wait (n : Nat) (c : Ctrl) (h : Chain) : h.react c (c.after (.wait n)) = h :=
  react_of_clocks _ _ _ rfl rfl
@[simp] theorem react_done (c : Ctrl) (h : Chain) : h.react c (c.after .done) = h :=
  react_of_clocks _ _ _ rfl rfl

/-- An SCLK edge never moves the address lines (R123, R130). -/
@[simp] theorem react_setSclk_storage (b : Bool) (c : Ctrl) (h : Chain) :
    (h.react c (c.after (.setSclk b))).storage = h.storage := by
  simp [Chain.react, Ctrl.after]

/-- The µops are plain, and the levels after each of them are calm. -/
def CalmRun : List Uop → Ctrl × Chain → Prop
  | [], _ => True
  | u :: us, (c, h) =>
    u.plain = true ∧ u.dirSafe c ∧ Calm (c.after u) (h.react c (c.after u)).storage ∧
      CalmRun us (c.after u, h.react c (c.after u))

theorem pinsAfter_append (us vs : List Uop) (p : Ctrl × Chain) :
    pinsAfter (us ++ vs) p = pinsAfter vs (pinsAfter us p) := by
  induction us generalizing p with
  | nil => rfl
  | cons u us ih => exact ih _

theorem recordsOf_append (us vs : List Uop) (p : Ctrl × Chain) :
    recordsOf (us ++ vs) p = recordsOf us p ++ recordsOf vs (pinsAfter us p) := by
  induction us generalizing p with
  | nil => rfl
  | cons u us ih => simp [recordsOf, pinsAfter, ih]

theorem calmRun_append (us vs : List Uop) (p : Ctrl × Chain) :
    CalmRun (us ++ vs) p ↔ CalmRun us p ∧ CalmRun vs (pinsAfter us p) := by
  induction us generalizing p with
  | nil => simp [CalmRun, pinsAfter]
  | cons u us ih => simp [CalmRun, pinsAfter, ih, and_assoc]

theorem calmRun_take {us : List Uop} {p : Ctrl × Chain} (h : CalmRun us p) (n : Nat) : CalmRun (us.take n) p := by
  rw [← List.take_append_drop n us] at h
  exact ((calmRun_append _ _ _).mp h).1

/-- A run of plain µops whose levels stay calm, in closed form. -/
theorem ran_steps {us : List Uop} {s : State} (hp : s.dev.pulseActive = false) (h : CalmRun us (s.ctrl, s.chain)) :
    Ran s (steps us s) (recordsOf us (s.ctrl, s.chain)) ∧
      ((steps us s).ctrl, (steps us s).chain) = pinsAfter us (s.ctrl, s.chain) := by
  induction us generalizing s with
  | nil => exact ⟨Ran.refl s, rfl⟩
  | cons u us ih =>
    obtain ⟨h1, h2, h3, h4⟩ := h
    obtain ⟨r, rc, rh⟩ := ran_plain h1 hp h2 h3
    rw [← rh, ← rc] at h4
    obtain ⟨g, gp⟩ := ih (s := ctrlStep u s) (by rw [r.pulseActive, hp]) h4
    rw [rc, rh] at g gp
    exact ⟨r.trans g, gp⟩

/-- Calm levels depend on the three control lines, the directions and the address lines alone. -/
theorem Calm.of_levels {c d : Ctrl} {st : Bits 16} (h : Calm c st) (h1 : d.ceN = c.ceN) (h2 : d.oeN = c.oeN)
    (h3 : d.weN = c.weN) (h4 : d.dir = c.dir) : Calm d st := by
  obtain ⟨a1, a2, a3, a4⟩ := h
  refine ⟨?_, ?_, ?_, ?_⟩ <;>
    simp_all [Ctrl.strobing, Ctrl.devDrives, Ctrl.ce, Ctrl.oe, Ctrl.we, Ctrl.allLines]

/-- Known address lines keep calm levels calm. -/
theorem Calm.of_storage {c : Ctrl} {st st' : Bits 16} (h : Calm c st) (h' : Bits.known st' = true) : Calm c st' where
  noStrobe := h.noStrobe
  exclusive := h.exclusive
  inputs := h.inputs
  defined := fun _ => h'

section Latch
variable (a : Addr)

/-- The shift register after the bits `ms` of the serial stream. -/
def shifted (ms : List (Fin 16)) (v : Bits 16) : Bits 16 :=
  ms.foldl (fun w m => Bits.shiftIn w (some (a.getLsbD (15 - m.val)))) v

/-- SER after the bits `ms` of the serial stream. -/
def lastSer (ms : List (Fin 16)) (b : Bool) : Bool := ms.foldl (fun _ m => a.getLsbD (15 - m.val)) b

theorem latchBit_eq (m : Fin 16) :
    latchBit (Bits.ofBitVec a) m = [.setSer (some (a.getLsbD (15 - m.val))), .setSclk true, .setSclk false] := by
  have : 15 - m.val < 16 := by omega
  simp [latchBit, this]

/-- The bits `ms` of the serial stream: calm, 3 events each, and each shifts once (R123, R126, R130). -/
theorem latchBits_run (ms : List (Fin 16)) (c : Ctrl) (h : Chain) (hc : Calm c h.storage) (h1 : c.sclk = false)
    (h2 : c.rclk = false) :
    CalmRun (ms.flatMap (latchBit (Bits.ofBitVec a))) (c, h) ∧
      pinsAfter (ms.flatMap (latchBit (Bits.ofBitVec a))) (c, h) =
        ({ c with ser := lastSer a ms c.ser, upc := c.upc + 3 * ms.length },
          { h with shift := shifted a ms h.shift }) ∧
      recordsOf (ms.flatMap (latchBit (Bits.ofBitVec a))) (c, h) =
        ms.flatMap (fun m => [.pin .ser (a.getLsbD (15 - m.val)), .pin .sclk true, .pin .sclk false]) := by
  induction ms generalizing c h with
  | nil => simp [CalmRun, pinsAfter, recordsOf, shifted, lastSer]
  | cons m ms ih =>
    have hb : pinsAfter (latchBit (Bits.ofBitVec a) m) (c, h) =
        ({ c with ser := a.getLsbD (15 - m.val), upc := c.upc + 3 },
          { h with shift := Bits.shiftIn h.shift (some (a.getLsbD (15 - m.val))) }) := by
      simp [latchBit_eq, pinsAfter, Ctrl.after, Chain.react, Chain.shifted, h1, h2]
    obtain ⟨g1, g2, g3⟩ := ih { c with ser := a.getLsbD (15 - m.val), upc := c.upc + 3 }
      { h with shift := Bits.shiftIn h.shift (some (a.getLsbD (15 - m.val))) }
      (hc.of_levels rfl rfl rfl rfl) h1 h2
    rw [List.flatMap_cons, calmRun_append, pinsAfter_append, recordsOf_append, hb]
    refine ⟨⟨?_, g1⟩, ?_, ?_⟩
    · simp only [latchBit_eq, CalmRun, react_setSclk_storage, react_setSer]
      exact ⟨rfl, trivial, hc.of_levels rfl rfl rfl rfl, rfl, trivial, hc.of_levels rfl rfl rfl rfl, rfl, trivial,
        hc.of_levels rfl rfl rfl rfl, trivial⟩
    · rw [g2]
      simp [shifted, lastSer]
      omega
    · rw [g3]
      simp [latchBit_eq, recordsOf, Ctrl.records]

/-- Sixteen shifts leave the address, whatever the register held (R128). -/
theorem shifted_all (v : Bits 16) : shifted a (List.finRange 16) v = Bits.ofBitVec a := by
  have e : List.finRange 16 = [0, 1, 2, 3, 4, 5, 6, 7, 8, 9, 10, 11, 12, 13, 14, 15] := by decide
  rw [e]
  apply Bits.holdsTop_full
  simp only [shifted, List.foldl_cons, List.foldl_nil]
  iterate 16 refine Bits.holdsTop_shiftIn a _ (by omega) _ ?_
  exact Bits.holdsTop_zero a v

theorem lastSer_all (b : Bool) : lastSer a (List.finRange 16) b = a.getLsbD 0 := by
  have e : List.finRange 16 = [0, 1, 2, 3, 4, 5, 6, 7, 8, 9, 10, 11, 12, 13, 14, 15] := by decide
  rw [e]
  rfl

/-- `LATCH_SEQ(a)` (R126, R128, R131): calm throughout, 50 events, and the address exactly latched. -/
theorem latchSeq_run (c : Ctrl) (h : Chain) (hc : Calm c h.storage) (h1 : c.sclk = false) (h2 : c.rclk = false) :
    CalmRun (latchSeq (Bits.ofBitVec a)) (c, h) ∧
      pinsAfter (latchSeq (Bits.ofBitVec a)) (c, h) =
        ({ c with ser := a.getLsbD 0, upc := c.upc + 50 },
          { shift := Bits.ofBitVec a, storage := Bits.ofBitVec a }) ∧
      recordsOf (latchSeq (Bits.ofBitVec a)) (c, h) = latchEvents a := by
  obtain ⟨g1, g2, g3⟩ := latchBits_run a (List.finRange 16) c h hc h1 h2
  rw [shifted_all, lastSer_all] at g2
  have hk : Calm c (Bits.ofBitVec a) := hc.of_storage (Bits.known_ofBitVec a)
  rw [latchSeq, calmRun_append, pinsAfter_append, recordsOf_append, g2, g3]
  refine ⟨⟨g1, ?_⟩, ?_, ?_⟩
  · simp [CalmRun, Ctrl.after, Chain.react, Chain.shifted, h1, h2, Uop.plain, Uop.dirSafe]
    exact ⟨hk.of_levels rfl rfl rfl rfl, hk.of_levels rfl rfl rfl rfl⟩
  · simp [pinsAfter, Ctrl.after, Chain.react, Chain.shifted, h1, h2]
  · simp [recordsOf, Ctrl.records, latchEvents]

end Latch

end Sys2Proof.Machine
end

