-- ==== Sys2Proof/Laws/Device.lean ====
section
/-! SUPPORT. What DEV's reaction can do: to the array, to the trace, to the marks; and the write pulse of a WRITE, from
its start to its end. -/

namespace Sys2Proof.Machine

/-! ### The array keeps its canonical form -/

theorem addrSpace_pos (c : Config) : 0 < c.addrSpace := Nat.two_pow_pos c.addrBits

theorem wiredCell?_lt {c : Config} {a : Bits 16} {n : Nat} (h : wiredCell? c a = some n) : n < c.addrSpace := by
  simp only [wiredCell?, Option.map_eq_some_iff] at h
  obtain ⟨v, -, rfl⟩ := h
  exact Nat.mod_lt _ (addrSpace_pos c)

theorem reachedCell?_lt {c : Config} {a : Bits 16} {n : Nat} (h : reachedCell? c a = some n) : n < c.addrSpace := by
  unfold reachedCell? at h
  split at h
  · exact wiredCell?_lt h
  · cases h

/-- Every named cell of the set is a cell of the device. -/
def CellSet.inside (size : Nat) : CellSet → Prop
  | .all => True
  | .cells as => ∀ a ∈ as, a < size

theorem CellSet.ofCell?_inside {size : Nat} {o : Option Nat} (h : ∀ n, o = some n → n < size) :
    (CellSet.ofCell? o).inside size := by
  cases o with
  | none => trivial
  | some n => simpa [CellSet.ofCell?, CellSet.inside] using h n rfl

theorem CellSet.union_inside {size : Nat} {x y : CellSet} (hx : x.inside size) (hy : y.inside size) :
    (x.union y).inside size := by
  cases x with
  | all => trivial
  | cells as =>
    cases y with
    | all => trivial
    | cells bs =>
      intro a ha
      rcases List.mem_append.mp ha with h | h
      · exact hx a h
      · exact hy a h

theorem memInv_write {s : State} (h : s.memInv) {a : Nat} (ha : a < s.cfg.addrSpace) (v : Byte) :
    Memory.wf (Memory.write s.dev.mem a v) = true ∧
      Memory.within s.cfg.addrSpace (Memory.write s.dev.mem a v) = true :=
  ⟨Memory.write_wf h.1 a v, Memory.write_within h.2 ha v⟩

theorem memInv_corruptCells {as : List Nat} {s : State} (h : s.memInv) (ha : ∀ a ∈ as, a < s.cfg.addrSpace) :
    (corruptCells as s).memInv := by
  induction as generalizing s with
  | nil => exact h
  | cons a as ih =>
    exact ih (memInv_write h (ha a (List.mem_cons_self ..)) _) fun b hb => ha b (List.mem_cons_of_mem _ hb)

theorem memInv_corrupt {set : CellSet} {s : State} (h : s.memInv) (hs : set.inside s.cfg.addrSpace) :
    (s.corrupt set).memInv := by
  cases set with
  | all => simp [State.corrupt, State.memInv]
  | cells as => exact memInv_corruptCells h hs

theorem memInv_commit {a : Nat} {v : Byte} {s : State} (h : s.memInv) (ha : a < s.cfg.addrSpace) :
    (s.commit a v).memInv :=
  memInv_write h ha v

/-- What a pulse end stores keeps the canonical form. -/
theorem memInv_pulseStore {s : State} (h : s.memInv) : s.pulseStore.memInv := by
  have hw : ∀ b, (CellSet.ofCell? (wiredCell? s.cfg b)).inside s.cfg.addrSpace :=
    fun b => CellSet.ofCell?_inside fun _ => wiredCell?_lt
  have hr : ∀ b, (CellSet.ofCell? (reachedCell? s.cfg b)).inside s.cfg.addrSpace :=
    fun b => CellSet.ofCell?_inside fun _ => reachedCell?_lt
  have hc : ∀ {a b}, reachedCell? s.cfg b = some a → (CellSet.cells [a]).inside s.cfg.addrSpace :=
    fun {a b} hab c hc => by
      obtain rfl := List.mem_singleton.mp hc
      exact reachedCell?_lt hab
  unfold State.pulseStore
  split
  · exact memInv_corrupt h (CellSet.union_inside (hw _) (hr _))
  · split
    · exact memInv_corrupt h trivial
    · next a ha =>
      split
      · exact memInv_corrupt h (CellSet.union_inside (hc ha) (hw _))
      · split
        · split
          · exact memInv_corrupt h (hc ha)
          · exact memInv_commit h (reachedCell?_lt ha)
        · exact memInv_corrupt h (hc ha)

/-- The reaction to an event keeps the canonical form. -/
theorem memInv_devReact {old s : State} (h : s.memInv) : (devReact old s).memInv := by
  have key : ∀ t : State, t.memInv → (pulseReact old t).memInv := by
    intro t ht
    unfold pulseReact
    split
    · exact ht
    · unfold pulseHeld
      split
      · simpa [State.memInv] using ht
      · exact ht
    · simpa [State.pulseEnd, State.memInv] using memInv_pulseStore ht
    · exact ht
  apply key
  simpa [State.memInv] using h

theorem memInv_ctrlStep {u : Uop} {s : State} (h : s.memInv) : (ctrlStep u s).memInv :=
  memInv_devReact (by simpa [State.memInv] using h)

theorem memInv_resetEvent {s : State} (h : s.memInv) : s.resetEvent.memInv :=
  memInv_devReact (by simpa [State.memInv] using h)

/-! ### What the array holds after a corruption or a commit -/

theorem corruptCells_mem_one (a : Nat) (s : State) :
    (corruptCells [a] s).dev.mem = Memory.write s.dev.mem a (Config.freeByte s.draws) := rfl

theorem corruptCells_dev (as : List Nat) (s : State) :
    (corruptCells as s).dev = { s.dev with mem := (corruptCells as s).dev.mem } := by
  induction as generalizing s with
  | nil => rfl
  | cons a as ih => rw [corruptCells, ih]

theorem corrupt_dev (set : CellSet) (s : State) :
    (s.corrupt set).dev = { s.dev with mem := (s.corrupt set).dev.mem } := by
  cases set with
  | all => rfl
  | cells as => simpa [State.corrupt] using corruptCells_dev as s

theorem corrupt_trace (set : CellSet) (s : State) : (s.corrupt set).trace = s.trace ++ [⟨.corrupt set, s.now⟩] := by
  cases set <;> simp [State.corrupt]

/-- A pulse end records one event, COMMIT or CORRUPT, at its time. -/
theorem pulseStore_trace (s : State) :
    ∃ k : EventKind, k.inPinSequence = false ∧ k.byDevice = true ∧ s.pulseStore.trace = s.trace ++ [⟨k, s.now⟩] := by
  unfold State.pulseStore
  repeat' split
  all_goals first
    | exact ⟨_, rfl, rfl, corrupt_trace _ _⟩
    | exact ⟨_, rfl, rfl, State.commit_trace _ _ _⟩

theorem pulseStore_dev (s : State) : s.pulseStore.dev = { s.dev with mem := s.pulseStore.dev.mem } := by
  unfold State.pulseStore
  repeat' split
  all_goals first
    | exact corrupt_dev _ _
    | simp

/-- A pulse end: what it stores, the busy window, and the record closed (R58, R59). -/
theorem pulseEnd_dev (s : State) :
    s.pulseEnd.dev =
      { s.dev with
        mem := s.pulseStore.dev.mem
        busyUntil := s.now + s.cfg.tWcDev
        wcAddr := s.dev.pulseAddr
        pulseActive := false
        pulseUnstable := false } := by
  simp only [State.pulseEnd, State.pulseStore_now, State.pulseStore_cfg]
  rw [pulseStore_dev]

theorem pulseEnd_trace (s : State) : s.pulseEnd.trace = s.pulseStore.trace := rfl

/-! ### The trace and the marks only grow -/

theorem raiseFault_grows (f : FaultCode) (e : Nat) (s : State) : s.faults <+: (s.raiseFault f e).faults := by
  unfold State.raiseFault
  split
  · exact List.prefix_rfl
  · exact List.prefix_append _ _

theorem checkFaults_grows (e : Nat) (s : State) : s.faults <+: (s.checkFaults e).faults := by
  simp only [State.checkFaults]
  have h2 : s.faults <+: (if s.ctrl.oe && s.ctrl.we then s.raiseFault .f2OeWe e else s).faults := by
    split
    · exact raiseFault_grows _ _ _
    · exact List.prefix_rfl
  generalize (if s.ctrl.oe && s.ctrl.we then s.raiseFault .f2OeWe e else s) = s2 at h2 ⊢
  have h3 : s.faults <+:
      (if s.ctrl.devDrives && s.ctrl.drivesSomeLine then s2.raiseFault .f1Contention e else s2).faults := by
    split
    · exact h2.trans (raiseFault_grows _ _ _)
    · exact h2
  split
  · exact h3.trans (raiseFault_grows _ _ _)
  · exact h3

theorem pulseReact_grows (old s : State) :
    s.faults <+: (pulseReact old s).faults ∧ s.trace <+: (pulseReact old s).trace := by
  unfold pulseReact
  split
  · simp
  · unfold pulseHeld
    split
    · exact ⟨raiseFault_grows _ _ _, by simp⟩
    · simp
  · obtain ⟨k, -, -, hk⟩ := pulseStore_trace s
    simp [pulseEnd_trace, hk]
  · simp

/-- The reaction records events of DEV only, at the event's time. -/
theorem pulseReact_trace (old s : State) :
    ∃ evs, (pulseReact old s).trace = s.trace ++ evs ∧ ∀ e ∈ evs, e.kind.byDevice = true ∧ e.time = s.now := by
  unfold pulseReact
  split
  · exact ⟨[], by simp⟩
  · unfold pulseHeld
    split
    · exact ⟨[], by simp⟩
    · exact ⟨[], by simp⟩
  · obtain ⟨k, -, hb, hk⟩ := pulseStore_trace s
    exact ⟨[⟨k, s.now⟩], by simp [pulseEnd_trace, hk], by simp [hb]⟩
  · exact ⟨[], by simp⟩

theorem devReact_trace (old s : State) :
    ∃ evs, (devReact old s).trace = s.trace ++ evs ∧ ∀ e ∈ evs, e.kind.byDevice = true ∧ e.time = s.now := by
  simpa [devReact] using pulseReact_trace old
    (noteSelect old (State.checkFaults old.eventIndex { s with chain := s.chain.react old.ctrl s.ctrl }))

theorem devReact_grows (old s : State) :
    s.faults <+: (devReact old s).faults ∧ s.trace <+: (devReact old s).trace := by
  have h := pulseReact_grows old
    (noteSelect old (State.checkFaults old.eventIndex { s with chain := s.chain.react old.ctrl s.ctrl }))
  have hc := checkFaults_grows old.eventIndex { s with chain := s.chain.react old.ctrl s.ctrl }
  refine ⟨?_, ?_⟩
  · simpa [devReact] using hc.trans (by simpa using h.1)
  · simpa [devReact] using h.2

/-- An event recorded by the µop and then the reaction's. -/
theorem recorded_of_execUop {u : Uop} {s : State} {k : EventKind}
    (h : (execUop u s.beginEvent).trace = s.trace ++ [⟨k, (execUop u s.beginEvent).now⟩]) :
    s.recorded (ctrlStep u s) k := by
  obtain ⟨evs, h1, h2⟩ := devReact_trace s (advanceUpc u (execUop u s.beginEvent))
  refine ⟨evs, ?_, ?_⟩
  · rw [ctrlStep, h1, advanceUpc_trace, h]
    simp
  · simpa [ctrlStep] using h2

theorem recorded_resetEvent (s : State) : s.recorded s.resetEvent .reset := by
  obtain ⟨evs, h1, h2⟩ := devReact_trace s (s.resetFields.emit .reset)
  refine ⟨evs, ?_, ?_⟩
  · rw [State.resetEvent, h1]
    simp
  · simpa [State.resetEvent] using h2

/-- The kinds of event a µop may record. -/
def Uop.mayRecord : Uop → EventKind → Prop
  | .setSer _, k => ∃ l, k = .pin .ser l
  | .setSclk b, k => k = .pin .sclk b
  | .setRclk b, k => k = .pin .rclk b
  | .setCe x, k => k = .pin .ceN x.level
  | .setOe x, k => k = .pin .oeN x.level
  | .setWe x, k => k = .pin .weN x.level
  | .setDir d, k => k = .dir d
  | .setDout i, k => ∃ b, k = .dout i b
  | .sample i, k => ∃ b, k = .sample i b
  | .wait n, k => ∃ d, k = .wait n d
  | .done, k => ∃ ph v, k = .rsp ph v

theorem execUop_trace (u : Uop) (s : State) :
    ∃ evs, (execUop u s).trace = s.trace ++ evs ∧
      ∀ e ∈ evs, u.mayRecord e.kind ∧ e.time = (execUop u s).now := by
  cases u with
  | setSer b => cases b <;> exact ⟨_, rfl, by simp [Uop.mayRecord, execUop, State.setSer]⟩
  | setDir d =>
    refine ⟨[⟨.dir d, s.now⟩], ?_, ?_⟩ <;> simp only [execUop, State.setDir] <;> split <;> simp [Uop.mayRecord]
  | sample i =>
    simp only [execUop, State.sample]
    split <;> exact ⟨_, rfl, by simp [Uop.mayRecord]⟩
  | done =>
    simp only [execUop, State.done]
    split
    · exact ⟨[], by simp⟩
    · exact ⟨_, rfl, by simp [Uop.mayRecord]⟩
  | _ => exact ⟨_, rfl, by simp [Uop.mayRecord, execUop, State.setSclk, State.setRclk, State.setCe, State.setOe,
      State.setWe, State.setDout, State.wait]⟩

/-- All the events of a CTRL step: the µop's and the device's, at one time. -/
theorem ctrlStep_trace (u : Uop) (s : State) :
    ∃ evs, (ctrlStep u s).trace = s.trace ++ evs ∧
      ∀ e ∈ evs, (u.mayRecord e.kind ∨ e.kind.byDevice = true) ∧ e.time = (ctrlStep u s).now := by
  obtain ⟨es, h1, h2⟩ := execUop_trace u s.beginEvent
  obtain ⟨fs, g1, g2⟩ := devReact_trace s (advanceUpc u (execUop u s.beginEvent))
  refine ⟨es ++ fs, ?_, ?_⟩
  · rw [ctrlStep, g1, advanceUpc_trace, h1]
    simp
  · intro e he
    rcases List.mem_append.mp he with he | he
    · exact ⟨.inl (h2 e he).1, by simpa [ctrlStep] using (h2 e he).2⟩
    · exact ⟨.inr (g2 e he).1, by simpa [ctrlStep] using (g2 e he).2⟩

theorem execUop_grows (u : Uop) (s : State) :
    s.faults <+: (execUop u s).faults ∧ s.trace <+: (execUop u s).trace ∧ s.now ≤ (execUop u s).now := by
  cases u with
  | setSer b => cases b <;> simp [execUop, State.setSer]
  | setDir d =>
    simp only [execUop, State.setDir]
    split
    · exact ⟨raiseFault_grows _ _ _, by simp, by simp⟩
    · simp
  | sample i => simp only [execUop, State.sample]; split <;> simp
  | done => simp only [execUop, State.done]; split <;> simp
  | _ => simp [execUop, State.setSclk, State.setRclk, State.setCe, State.setOe, State.setWe, State.setDout, State.wait]

/-- A CTRL step adds to the marks and the trace, and time goes on. -/
theorem ctrlStep_grows (u : Uop) (s : State) :
    s.faults <+: (ctrlStep u s).faults ∧ s.trace <+: (ctrlStep u s).trace ∧ s.now ≤ (ctrlStep u s).now := by
  have h := execUop_grows u s.beginEvent
  have g := devReact_grows s (advanceUpc u (execUop u s.beginEvent))
  simp only [State.beginEvent_faults, State.beginEvent_trace, State.beginEvent_now, advanceUpc_faults,
    advanceUpc_trace] at h g
  refine ⟨h.1.trans g.1, h.2.1.trans g.2, ?_⟩
  have := h.2.2
  simp only [ctrlStep, devReact_now, advanceUpc_now]
  omega

theorem resetEvent_grows (s : State) :
    s.faults <+: s.resetEvent.faults ∧ s.trace <+: s.resetEvent.trace := by
  have g := devReact_grows s (s.resetFields.emit .reset)
  simp only [State.emit_faults, State.emit_trace, State.resetFields_faults, State.resetFields_trace] at g
  exact ⟨g.1, (List.prefix_append _ _).trans g.2⟩

/-! ### Draws are never taken back -/

theorem corruptCells_draws (as : List Nat) (s : State) : (corruptCells as s).draws = s.draws + as.length := by
  induction as generalizing s with
  | nil => rfl
  | cons a as ih =>
    rw [corruptCells, ih]
    simp
    omega

theorem corrupt_draws_le (set : CellSet) (s : State) : s.draws ≤ (s.corrupt set).draws := by
  cases set with
  | all => simp [State.corrupt]
  | cells as => simp [State.corrupt, corruptCells_draws]

theorem pulseStore_draws_le (s : State) : s.draws ≤ s.pulseStore.draws := by
  unfold State.pulseStore
  repeat' split
  all_goals first
    | exact corrupt_draws_le _ _
    | simp

theorem devReact_draws_le (old s : State) : s.draws ≤ (devReact old s).draws := by
  have key : ∀ t : State, t.draws ≤ (pulseReact old t).draws := by
    intro t
    unfold pulseReact
    split
    · simp
    · simp
    · exact pulseStore_draws_le t
    · exact Nat.le_refl _
  simpa [devReact] using key
    (noteSelect old (State.checkFaults old.eventIndex { s with chain := s.chain.react old.ctrl s.ctrl }))

theorem execUop_draws_le (u : Uop) (s : State) : s.draws ≤ (execUop u s).draws := by
  cases u with
  | setSer b => cases b <;> simp [execUop, State.setSer]
  | setDir d => simp only [execUop, State.setDir]; split <;> simp
  | sample i => simp only [execUop, State.sample]; split <;> simp
  | done => simp only [execUop, State.done]; split <;> simp
  | _ => simp [execUop, State.setSclk, State.setRclk, State.setCe, State.setOe, State.setWe, State.setDout, State.wait]

/-- A CTRL step draws at least its gap. -/
theorem ctrlStep_draws_lt (u : Uop) (s : State) : s.draws < (ctrlStep u s).draws := by
  have h1 := execUop_draws_le u s.beginEvent
  have h2 := devReact_draws_le s (advanceUpc u (execUop u s.beginEvent))
  rw [State.beginEvent_draws] at h1
  rw [advanceUpc_draws] at h2
  rw [ctrlStep]
  omega

theorem steps_draws_le (us : List Uop) (s : State) : s.draws ≤ (steps us s).draws := by
  induction us generalizing s with
  | nil => exact Nat.le_refl _
  | cons u us ih => exact (Nat.le_of_lt (ctrlStep_draws_lt u s)).trans (ih (ctrlStep u s))

theorem resetEvent_draws_le (s : State) : s.draws ≤ s.resetEvent.draws := by
  have := devReact_draws_le s (s.resetFields.emit .reset)
  simp only [State.emit_draws, State.resetFields_draws] at this
  rw [State.resetEvent]
  omega

/-! ### Reset -/

/-- A reset's reaction is the select time and the pulse rules alone: no clock rises and no check fires (R230). -/
theorem devReact_reset {s r : State} (h1 : r.ctrl = Ctrl.reset) (h2 : r.chain = Chain.reset) :
    devReact s r = pulseReact s (noteSelect s r) := by
  have hc : r.chain.react s.ctrl r.ctrl = r.chain := by
    rw [h1, h2]
    simp [Chain.react, Chain.shifted, Ctrl.reset]
  have hs : ({ r with chain := r.chain.react s.ctrl r.ctrl } : State) = r := by rw [hc]
  have hf : r.checkFaults s.eventIndex = r := by
    simp [State.checkFaults, h1, Ctrl.reset, Ctrl.devDrives, Ctrl.oe, Ctrl.we, Ctrl.ce]
  simp only [devReact]
  rw [hs, hf]

theorem resetEvent_eq (s : State) :
    s.resetEvent = pulseReact s (noteSelect s (s.resetFields.emit .reset)) :=
  devReact_reset rfl rfl

@[simp] theorem Ctrl.reset_strobing : Ctrl.reset.strobing = false := rfl

@[simp] theorem State.resetEvent_faults (s : State) : s.resetEvent.faults = s.faults := by
  rw [resetEvent_eq, pulseReact]
  cases s.dev.pulseActive <;> simp [State.pulseEnd]

@[simp] theorem State.resetEvent_chain (s : State) : s.resetEvent.chain = Chain.reset := by
  rw [resetEvent_eq]
  simp

/-- With no pulse active a reset leaves the device alone, but for the select time. -/
theorem resetEvent_dev {s : State} (h : s.dev.pulseActive = false) :
    s.resetEvent.dev = { s.dev with lastSelChange := s.resetEvent.dev.lastSelChange } := by
  rw [resetEvent_eq, pulseReact, h]
  simp only [noteSelect_ctrl, State.emit_ctrl, State.resetFields_ctrl, Ctrl.reset_strobing]
  rw [noteSelect_dev]
  simp

end Sys2Proof.Machine
end

