-- ==== Sys2Proof/Laws/Commands.lean ====
section
/-! SUPPORT. The parts of the three commands' tables, each run in closed form: acceptance, the set-up of READ and
WRITE, WAIT, the eight samples, the write pulse. -/

namespace Sys2Proof.Machine

/-! ### Acceptance -/

@[simp] theorem accept_ctrl (ph : Phase) (op : BitVec 2) (a : Addr) (d : Byte) (s : State) :
    (s.accept ph op a d).ctrl =
      { s.ctrl with phase := ph, cmdAddr := Bits.ofBitVec a, cmdData := Bits.ofBitVec d, upc := 0 } := rfl

@[simp] theorem accept_chain (ph : Phase) (op : BitVec 2) (a : Addr) (d : Byte) (s : State) :
    (s.accept ph op a d).chain = s.chain := rfl

@[simp] theorem accept_rst (ph : Phase) (op : BitVec 2) (a : Addr) (d : Byte) (s : State) :
    (s.accept ph op a d).rst = countDown s.rst := rfl

@[simp] theorem accept_cfg (ph : Phase) (op : BitVec 2) (a : Addr) (d : Byte) (s : State) :
    (s.accept ph op a d).cfg = s.cfg := rfl

@[simp] theorem accept_dev (ph : Phase) (op : BitVec 2) (a : Addr) (d : Byte) (s : State) :
    (s.accept ph op a d).dev = s.dev := rfl

/-- Acceptance records its event and leaves the marks and the device alone (R104). -/
theorem accept_ran (ph : Phase) (op : BitVec 2) (a : Addr) (d : Byte) (s : State) :
    Ran s (s.accept ph op a d) [.accept op a d] where
  cfg := rfl
  host := rfl
  refused := rfl
  faults := rfl
  dev := rfl
  now_le := Nat.le_add_right _ _
  trace := ⟨_, rfl, rfl, by simp [State.accept, State.acceptEvent]⟩

/-- With no reset planned a command runs its whole table (R109). -/
theorem runCommand_of_no_reset {ph : Phase} {op : BitVec 2} {a : Addr} {d : Byte} {s : State} (h : s.rst = []) :
    runCommand ph op a d s = steps (table s.cfg (Bits.ofBitVec a) ph) (s.accept ph op a d) := by
  rw [runCommand, runTable_of_no_reset (by simp [h])]
  simp [State.pendingUops]

/-- A reset planned after `n + 1` CTRL events (ACCEPT among them) cuts a command of more than `n` µops (R246). -/
theorem runCommand_of_reset {ph : Phase} {op : BitVec 2} {a : Addr} {d : Byte} {s : State} {n : Nat} {rs : List Nat}
    (h : s.rst = (n + 1) :: rs) :
    runCommand ph op a d s =
      if n < (table s.cfg (Bits.ofBitVec a) ph).length then
        (steps ((table s.cfg (Bits.ofBitVec a) ph).take n) (s.accept ph op a d)).resetEvent
      else steps (table s.cfg (Bits.ofBitVec a) ph) (s.accept ph op a d) := by
  rw [runCommand, runTable_of_reset (n := n) (rs := rs) (by simp [h])]
  simp [State.pendingUops]

/-- A reset already due when the command is accepted cuts it before its first µop. -/
theorem runCommand_of_reset_due {ph : Phase} {op : BitVec 2} {a : Addr} {d : Byte} {s : State} {rs : List Nat}
    (h : s.rst = 0 :: rs) (hp : table s.cfg (Bits.ofBitVec a) ph ≠ []) :
    runCommand ph op a d s = (s.accept ph op a d).resetEvent := by
  rw [runCommand, runTable_of_reset (n := 0) (rs := rs) (by simp [h, countDown])]
  have : 0 < (table s.cfg (Bits.ofBitVec a) ph).length := List.length_pos_iff.mpr hp
  simp [State.pendingUops, this]

/-! ### The set-up of READ and WRITE -/

/-- With CE and OE deasserted the levels are calm. -/
theorem calm_of_ceN {c : Ctrl} {st : Bits 16} (h1 : c.ceN = true) (h2 : c.oeN = true) : Calm c st := by
  refine ⟨?_, ?_, ?_, ?_⟩ <;> simp [Ctrl.strobing, Ctrl.devDrives, Ctrl.ce, Ctrl.oe, h1, h2]

/-- The defensive reset leaves Idle pins, whatever they were (R146), and stays calm. -/
theorem defensive_run (c : Ctrl) (h : Chain) (hc : Calm c h.storage) :
    CalmRun defensiveReset (c, h) ∧
      pinsAfter defensiveReset (c, h) = ({ c with ceN := true, oeN := true, weN := true, upc := c.upc + 3 }, h) ∧
      recordsOf defensiveReset (c, h) = defensiveEvents := by
  have hx := hc.exclusive
  simp only [Ctrl.oe, Ctrl.we] at hx
  simp only [defensiveReset, CalmRun, pinsAfter, recordsOf, react_setCe, react_setOe, react_setWe]
  refine ⟨⟨rfl, trivial, ?_, rfl, trivial, calm_of_ceN rfl rfl, rfl, trivial, calm_of_ceN rfl rfl, trivial⟩, rfl, rfl⟩
  refine ⟨?_, ?_, ?_, ?_⟩ <;> simp_all [Ctrl.after, Drive.level, Ctrl.strobing, Ctrl.devDrives, Ctrl.ce, Ctrl.oe, Ctrl.we]

/-- The first 54 µops of READ and WRITE: Idle, the direction, the address (R146, R143, R126). -/
def setUp (d : Dir) (a : Bits 16) : List Uop := defensiveReset ++ Uop.setDir d :: latchSeq a

theorem setUp_run (d : Dir) (a : Addr) (c : Ctrl) (h : Chain) (hc : Calm c h.storage) (h1 : c.sclk = false)
    (h2 : c.rclk = false) :
    CalmRun (setUp d (Bits.ofBitVec a)) (c, h) ∧
      pinsAfter (setUp d (Bits.ofBitVec a)) (c, h) =
        ({ c with
            ceN := true
            oeN := true
            weN := true
            dir := Vector.replicate 8 d
            ser := a.getLsbD 0
            upc := c.upc + 54 },
          { shift := Bits.ofBitVec a, storage := Bits.ofBitVec a }) ∧
      recordsOf (setUp d (Bits.ofBitVec a)) (c, h) = defensiveEvents ++ EventKind.dir d :: latchEvents a := by
  obtain ⟨d1, d2, d3⟩ := defensive_run c h hc
  obtain ⟨l1, l2, l3⟩ := latchSeq_run a
    (Ctrl.after (.setDir d) { c with ceN := true, oeN := true, weN := true, upc := c.upc + 3 }) h
    (calm_of_ceN rfl rfl) h1 h2
  rw [setUp, calmRun_append, pinsAfter_append, recordsOf_append, d2, d3]
  simp only [CalmRun, pinsAfter, recordsOf, react_setDir, l2, l3]
  refine ⟨⟨d1, rfl, ?_, calm_of_ceN rfl rfl, l1⟩, rfl, rfl⟩
  simp [Uop.dirSafe, Ctrl.dirChangeEnabled, Ctrl.oe, Ctrl.we]

/-- The 56 µops of READ before its WAIT. -/
theorem readSetUp_run (a : Addr) (c : Ctrl) (h : Chain) (hc : Calm c h.storage) (h1 : c.sclk = false)
    (h2 : c.rclk = false) :
    CalmRun (setUp .input (Bits.ofBitVec a) ++ [Uop.setCe .asserted, Uop.setOe .asserted]) (c, h) ∧
      pinsAfter (setUp .input (Bits.ofBitVec a) ++ [Uop.setCe .asserted, Uop.setOe .asserted]) (c, h) =
        ({ c with
            ceN := false
            oeN := false
            weN := true
            dir := Vector.replicate 8 .input
            ser := a.getLsbD 0
            upc := c.upc + 56 },
          { shift := Bits.ofBitVec a, storage := Bits.ofBitVec a }) ∧
      recordsOf (setUp .input (Bits.ofBitVec a) ++ [Uop.setCe .asserted, Uop.setOe .asserted]) (c, h) =
        defensiveEvents ++ EventKind.dir .input :: latchEvents a ++ [EventKind.pin .ceN false, EventKind.pin .oeN false] := by
  obtain ⟨s1, s2, s3⟩ := setUp_run .input a c h hc h1 h2
  rw [calmRun_append, pinsAfter_append, recordsOf_append, s2, s3]
  simp only [CalmRun, pinsAfter, recordsOf, react_setCe, react_setOe]
  refine ⟨⟨s1, rfl, trivial, ?_, rfl, trivial, ?_, trivial⟩, rfl,
    by simp only [Ctrl.records, Drive.level, List.append_nil, List.cons_append, List.nil_append]⟩
  · refine ⟨?_, ?_, ?_, ?_⟩ <;> simp [Ctrl.after, Drive.level, Ctrl.strobing, Ctrl.devDrives, Ctrl.ce, Ctrl.oe, Ctrl.we]
  · refine ⟨?_, ?_, ?_, ?_⟩ <;>
      simp [Ctrl.after, Drive.level, Ctrl.strobing, Ctrl.ce, Ctrl.oe, Ctrl.we, Ctrl.allLines]

/-- Driving the eight lines leaves the command's byte on them (R144, R150). -/
theorem douts_run (d : Byte) (c : Ctrl) (h : Chain) (hd : c.cmdData = Bits.ofBitVec d) (hc : Calm c h.storage) :
    CalmRun (linesDown.map Uop.setDout) (c, h) ∧
      pinsAfter (linesDown.map Uop.setDout) (c, h) = ({ c with dout := Bits.ofBitVec d, upc := c.upc + 8 }, h) ∧
      recordsOf (linesDown.map Uop.setDout) (c, h) =
        linesDown.map (fun i => EventKind.dout i (some (d.getLsbD i))) := by
  simp only [linesDown, List.map_cons, List.map_nil, CalmRun, pinsAfter, recordsOf, react_setDout]
  refine ⟨?_, ?_, ?_⟩
  · iterate 8 refine ⟨rfl, trivial, hc.of_levels rfl rfl rfl rfl, ?_⟩
    trivial
  · simp only [Ctrl.after, hd, Prod.mk.injEq, and_true, Ctrl.mk.injEq, true_and]
    ext1 i hi
    simp only [Bits.setBit, Vector.getElem_set]
    interval_cases i <;> simp
  · simp [Ctrl.records, Ctrl.after, hd]

/-- One more µop at the end of a run. -/
theorem calm_concat {us : List Uop} {u : Uop} {p : Ctrl × Chain} {c : Ctrl} {h : Chain} {ks : List EventKind}
    (hr : CalmRun us p ∧ pinsAfter us p = (c, h) ∧ recordsOf us p = ks) (hu : u.plain = true) (hd : u.dirSafe c)
    (hc : Calm (c.after u) (h.react c (c.after u)).storage) :
    CalmRun (us ++ [u]) p ∧ pinsAfter (us ++ [u]) p = (c.after u, h.react c (c.after u)) ∧
      recordsOf (us ++ [u]) p = ks ++ c.records u := by
  obtain ⟨h1, h2, h3⟩ := hr
  rw [calmRun_append, pinsAfter_append, recordsOf_append, h2, h3]
  exact ⟨⟨h1, hu, hd, hc, trivial⟩, rfl, by simp [recordsOf]⟩

/-- Two runs, one after the other. -/
theorem calm_append {us vs : List Uop} {p q r : Ctrl × Chain} {ks ls : List EventKind}
    (hr : CalmRun us p ∧ pinsAfter us p = q ∧ recordsOf us p = ks)
    (hs : CalmRun vs q ∧ pinsAfter vs q = r ∧ recordsOf vs q = ls) :
    CalmRun (us ++ vs) p ∧ pinsAfter (us ++ vs) p = r ∧ recordsOf (us ++ vs) p = ks ++ ls := by
  obtain ⟨h1, h2, h3⟩ := hr
  obtain ⟨g1, g2, g3⟩ := hs
  rw [calmRun_append, pinsAfter_append, recordsOf_append, h2, h3, g2, g3]
  exact ⟨⟨h1, g1⟩, rfl, rfl⟩

/-- The 63 µops of WRITE before its pulse. -/
theorem writeSetUp_run (a : Addr) (d : Byte) (c : Ctrl) (h : Chain) (hd : c.cmdData = Bits.ofBitVec d)
    (hc : Calm c h.storage) (h1 : c.sclk = false) (h2 : c.rclk = false) :
    CalmRun (setUp .output (Bits.ofBitVec a) ++ linesDown.map Uop.setDout ++ [Uop.setCe .asserted]) (c, h) ∧
      pinsAfter (setUp .output (Bits.ofBitVec a) ++ linesDown.map Uop.setDout ++ [Uop.setCe .asserted]) (c, h) =
        ({ c with
            ceN := false
            oeN := true
            weN := true
            dir := Vector.replicate 8 .output
            dout := Bits.ofBitVec d
            ser := a.getLsbD 0
            upc := c.upc + 63 },
          { shift := Bits.ofBitVec a, storage := Bits.ofBitVec a }) ∧
      recordsOf (setUp .output (Bits.ofBitVec a) ++ linesDown.map Uop.setDout ++ [Uop.setCe .asserted]) (c, h) =
        defensiveEvents ++ EventKind.dir .output :: latchEvents a ++
          linesDown.map (fun i => EventKind.dout i (some (d.getLsbD i))) ++ [EventKind.pin .ceN false] := by
  obtain ⟨r1, r2, r3⟩ := calm_concat (u := .setCe .asserted)
    (calm_append (setUp_run .output a c h hc h1 h2) (douts_run d _ _ hd (calm_of_ceN rfl rfl))) rfl trivial
    (by refine ⟨?_, ?_, ?_, ?_⟩ <;> simp [Ctrl.after, Drive.level, Ctrl.strobing, Ctrl.devDrives, Ctrl.oe, Ctrl.we])
  exact ⟨r1, r2.trans (by rw [react_setCe]; rfl), r3⟩

/-! ### WAIT and SAMPLE -/

/-- `WAIT(n)` with calm levels (R106): `n` or more passes. -/
theorem wait_run (n : Nat) {s : State} (hp : s.dev.pulseActive = false) (hc : Calm s.ctrl s.chain.storage) :
    ∃ d, Ran s (ctrlStep (.wait n) s) [.wait n d] ∧ n ≤ d ∧ s.now + n ≤ (ctrlStep (.wait n) s).now ∧
      (ctrlStep (.wait n) s).ctrl = { s.ctrl with upc := s.ctrl.upc + 1 } ∧
      (ctrlStep (.wait n) s).chain = s.chain ∧
      (ctrlStep (.wait n) s).dev.lastSelChange = s.dev.lastSelChange := by
  have hctrl : (advanceUpc (.wait n) (execUop (.wait n) s.beginEvent)).ctrl =
      { s.ctrl with upc := s.ctrl.upc + 1 } := rfl
  have hre : s.chain.react s.ctrl (advanceUpc (.wait n) (execUop (.wait n) s.beginEvent)).ctrl = s.chain := by
    rw [hctrl]
    exact react_of_clocks _ _ _ rfl rfl
  obtain ⟨r, rc, rh⟩ := ran_calm (u := .wait n) hp trivial
    (by rw [hre, hctrl]; exact hc.of_levels rfl rfl rfl rfl)
    (ks := [.wait n (n + Config.freeTime (s.draws + 1))])
    (by simp [execUop, State.wait]; omega) (by simp [execUop, State.wait])
  refine ⟨_, r, Nat.le_add_right _ _, ?_, rc.trans hctrl, rh.trans hre, ?_⟩
  · simp [ctrlStep, execUop, State.wait]
    omega
  · rw [ctrlStep, devReact_calm hp (by
      rw [advanceUpc_chain, execUop_chain, State.beginEvent_chain, hre, hctrl]
      exact hc.of_levels rfl rfl rfl rfl), noteSelect_lastSelChange]
    simp [selectChanged, hctrl, react_of_clocks]

/-- Read hold with a known address: the levels are calm and the device drives. -/
theorem calm_readHold {c : Ctrl} {st : Bits 16} (h : c.readHold) (hk : Bits.known st = true) :
    Calm c st ∧ c.devDrives = true := by
  obtain ⟨h1, h2, h3, h4⟩ := h
  refine ⟨⟨?_, ?_, fun _ => h4, fun _ => hk⟩, ?_⟩ <;>
    simp [Ctrl.strobing, Ctrl.devDrives, Ctrl.ce, Ctrl.oe, Ctrl.we, h1, h2, h3]

/-- `SAMPLE(i)` in read hold (R145): some level is shifted in, the device's where its output is valid. -/
theorem sample_run (i : Fin 8) {s : State} (hp : s.dev.pulseActive = false) (hr : s.ctrl.readHold)
    (hk : Bits.known s.chain.storage = true) :
    ∃ b, Ran s (ctrlStep (.sample i) s) [.sample i b] ∧
      (ctrlStep (.sample i) s).ctrl =
        { s.ctrl with rdata := Bits.shiftIn s.ctrl.rdata (some b), upc := s.ctrl.upc + 1 } ∧
      (ctrlStep (.sample i) s).chain = s.chain ∧
      (ctrlStep (.sample i) s).dev = s.dev ∧
      (∀ l, s.beginEvent.devOut? i = some l → b = l) ∧
      (s.beginEvent.devOut? i = none → b = Config.freeBit (s.draws + 1)) ∧
      s.draws < (ctrlStep (.sample i) s).draws ∧
      (s.beginEvent.devOut? i = none → s.draws + 1 < (ctrlStep (.sample i) s).draws) := by
  obtain ⟨hcalm, hdrv⟩ := calm_readHold hr hk
  have hin : s.ctrl.dir[i] = .input := by
    have : s.ctrl.dir = Vector.replicate 8 .input := hr.2.2.2
    simp [this]
  have hsmp : s.beginEvent.sampled? i = s.beginEvent.devOut? i := by
    simp only [State.sampled?, State.beginEvent_ctrl, hin, hdrv]
    rfl
  obtain ⟨b, hex, hb1, hb2, hdr, hdr2⟩ : ∃ b : Bool,
      (∃ n, execUop (.sample i) s.beginEvent =
        State.emit (.sample i b)
          { s.beginEvent with
            ctrl := { s.ctrl with rdata := Bits.shiftIn s.ctrl.rdata (some b) }
            draws := n }) ∧
      (∀ l, s.beginEvent.devOut? i = some l → b = l) ∧
      (s.beginEvent.devOut? i = none → b = Config.freeBit (s.draws + 1)) ∧
      s.draws < (execUop (.sample i) s.beginEvent).draws ∧
      (s.beginEvent.devOut? i = none → s.draws + 1 < (execUop (.sample i) s.beginEvent).draws) := by
    cases ho : s.beginEvent.devOut? i with
    | none =>
      refine ⟨Config.freeBit (s.draws + 1), ⟨s.draws + 2, ?_⟩, by simp, fun _ => rfl, ?_, fun _ => ?_⟩ <;>
        simp [execUop, State.sample, hsmp, ho]
    | some l =>
      refine ⟨l, ⟨s.draws + 1, ?_⟩, by simp, by simp, ?_, by simp⟩ <;>
        simp [execUop, State.sample, hsmp, ho]
  obtain ⟨n, hex⟩ := hex
  have hctrl : (advanceUpc (.sample i) (execUop (.sample i) s.beginEvent)).ctrl =
      { s.ctrl with rdata := Bits.shiftIn s.ctrl.rdata (some b), upc := s.ctrl.upc + 1 } := by
    rw [hex]
    rfl
  have hre : s.chain.react s.ctrl (advanceUpc (.sample i) (execUop (.sample i) s.beginEvent)).ctrl = s.chain := by
    rw [hctrl]
    exact react_of_clocks _ _ _ rfl rfl
  obtain ⟨r, rc, rh⟩ := ran_calm (u := .sample i) hp trivial
    (by rw [hre, hctrl]; exact hcalm.of_levels rfl rfl rfl rfl)
    (ks := [.sample i b]) (by rw [hex]; simp) (by rw [hex]; simp)
  have hdv : devReact s (advanceUpc (.sample i) (execUop (.sample i) s.beginEvent)) =
      noteSelect s { advanceUpc (.sample i) (execUop (.sample i) s.beginEvent) with chain := s.chain } := by
    rw [devReact_calm hp (by
      rw [advanceUpc_chain, execUop_chain, State.beginEvent_chain, hre, hctrl]
      exact hcalm.of_levels rfl rfl rfl rfl)]
    simp [hre]
  refine ⟨b, r, rc.trans hctrl, rh.trans hre, ?_, hb1, hb2, ?_, ?_⟩
  · rw [r.dev]
    rw [ctrlStep, hdv, noteSelect_lastSelChange]
    simp [selectChanged, hctrl]
  · rw [ctrlStep, hdv]
    simpa using hdr
  · rw [ctrlStep, hdv]
    simpa using hdr2

end Sys2Proof.Machine
end

