-- ==== Sys2Proof/Laws/Encoding.lean ====
section
/-! SUPPORT. The fields of a command word as numbers: with these every question about decoding and encoding is
arithmetic. -/

namespace Sys2Proof

theorem toNat_opField (w : CmdWord) : (opField w).toNat = w.toNat / 2 ^ 24 := by
  have := w.isLt
  simp only [opField, BitVec.extractLsb'_toNat, Nat.shiftRight_eq_div_pow]
  omega

theorem toNat_addrField (w : CmdWord) : (addrField w).toNat = w.toNat / 2 ^ 8 % 2 ^ 16 := by
  simp only [addrField, BitVec.extractLsb'_toNat, Nat.shiftRight_eq_div_pow]

theorem toNat_dataField (w : CmdWord) : (dataField w).toNat = w.toNat % 2 ^ 8 := by
  simp [dataField, BitVec.extractLsb'_toNat]

/-- The word of a command as a number (R91). -/
theorem toNat_encode (i : Instr) :
    (encode i).toNat = i.op.toNat * 2 ^ 24 + i.addr.toNat * 2 ^ 8 + i.data.toNat := by
  have h1 := i.addr.isLt
  have h2 := i.data.isLt
  have h3 : i.op.toNat <<< 16 ||| i.addr.toNat = i.op.toNat * 2 ^ 16 + i.addr.toNat := by
    rw [Nat.shiftLeft_eq, Nat.mul_comm, Nat.two_pow_add_eq_or_of_lt h1]
  have h4 : ((i.op ++ i.addr).toNat) <<< 8 ||| i.data.toNat = (i.op ++ i.addr).toNat * 2 ^ 8 + i.data.toNat := by
    rw [Nat.shiftLeft_eq, Nat.mul_comm, Nat.two_pow_add_eq_or_of_lt h2]
  rw [encode, BitVec.toNat_append, h4, BitVec.toNat_append, h3]
  omega

@[simp] theorem opField_encode (i : Instr) : opField (encode i) = i.op := by
  have h1 := i.addr.isLt
  have h2 := i.data.isLt
  apply BitVec.eq_of_toNat_eq
  rw [toNat_opField, toNat_encode]
  omega

@[simp] theorem addrField_encode (i : Instr) : addrField (encode i) = i.addr := by
  have h1 := i.addr.isLt
  have h2 := i.data.isLt
  apply BitVec.eq_of_toNat_eq
  rw [toNat_addrField, toNat_encode]
  omega

@[simp] theorem dataField_encode (i : Instr) : dataField (encode i) = i.data := by
  have h1 := i.addr.isLt
  have h2 := i.data.isLt
  apply BitVec.eq_of_toNat_eq
  rw [toNat_dataField, toNat_encode]
  omega

/-- A word is what its three fields say. -/
theorem cmdWord_ext {v w : CmdWord} (h1 : opField v = opField w) (h2 : addrField v = addrField w)
    (h3 : dataField v = dataField w) : v = w := by
  have := v.isLt
  have := w.isLt
  replace h1 := congrArg BitVec.toNat h1
  replace h2 := congrArg BitVec.toNat h2
  replace h3 := congrArg BitVec.toNat h3
  rw [toNat_opField, toNat_opField] at h1
  rw [toNat_addrField, toNat_addrField] at h2
  rw [toNat_dataField, toNat_dataField] at h3
  apply BitVec.eq_of_toNat_eq
  omega

/-- What a successful decode says: the instruction's three parts are the word's fields (R83, R84). -/
theorem decode_fields {w : CmdWord} {i : Instr} (h : decode w = .ok i) :
    i.op = opField w ∧ i.addr = addrField w ∧ i.data = dataField w := by
  unfold decode at h
  repeat' split at h
  all_goals cases h
  all_goals simp_all [Instr.op, Instr.addr, Instr.data]

end Sys2Proof
end

