-- ==== Sys2Proof/Laws/Pulse.lean ====
section
/-! SUPPORT. The write pulse of a WRITE, from the falling to the rising edge of WE, and what its end stores. -/

namespace Sys2Proof.Machine

/-- The reaction where no check fires, CHAIN keeps its state and the device stays selected as it was: the write-pulse
rules alone. -/
theorem devReact_selected {old s : State} (hk : s.chain.react old.ctrl s.ctrl = old.chain) (hc : s.chain = old.chain)
    (h1 : s.ctrl.oeN = true) (h2 : old.ctrl.oeN = true) (h3 : old.ctrl.ceN = s.ctrl.ceN)
    (h4 : Bits.known s.chain.storage = true) : devReact old s = pulseReact old s := by
  have hs : ({ s with chain := s.chain.react old.ctrl s.ctrl } : State) = s := by rw [hk, ← hc]
  have hf : s.checkFaults old.eventIndex = s := by
    simp [State.checkFaults, Ctrl.devDrives, Ctrl.oe, h1, h4]
  have hn : noteSelect old s = s := by simp [noteSelect, selectChanged, hc, h1, h2, h3]
  simp only [devReact]
  rw [hs, hf, hn]

/-- WE asserted with CE: a pulse starts (R57). -/
theorem strobe_run {s : State} (hp : s.dev.pulseActive = false) (h1 : s.ctrl.ceN = false) (h2 : s.ctrl.oeN = true)
    (hk : Bits.known s.chain.storage = true) :
    ctrlStep (.setWe .asserted) s =
      State.pulseBegin
        { State.emit (.pin .weN false) s.beginEvent with
          ctrl := { s.ctrl with weN := false, upc := s.ctrl.upc + 1 } } := by
  refine (devReact_selected (old := s) (s := advanceUpc (.setWe .asserted) (execUop (.setWe .asserted) s.beginEvent))
    (react_of_clocks _ _ _ rfl rfl) rfl h2 h2 rfl hk).trans ?_
  rw [pulseReact]
  simp [execUop, advanceUpc, State.setWe, hp, Ctrl.strobing, Ctrl.ce, Ctrl.we, h1, Drive.level]

/-- WAIT with a pulse active leaves the pulse alone (R73). -/
theorem strobe_wait (n : Nat) {s : State} (hp : s.dev.pulseActive = true) (h1 : s.ctrl.ceN = false)
    (h2 : s.ctrl.oeN = true) (h3 : s.ctrl.weN = false) (hk : Bits.known s.chain.storage = true) :
    ctrlStep (.wait n) s = advanceUpc (.wait n) (s.beginEvent.wait n) := by
  refine (devReact_selected (old := s) (s := advanceUpc (.wait n) (execUop (.wait n) s.beginEvent))
    (react_of_clocks _ _ _ rfl rfl) rfl h2 h2 rfl hk).trans ?_
  rw [pulseReact]
  simp [execUop, advanceUpc, State.wait, hp, Ctrl.strobing, Ctrl.ce, Ctrl.we, h1, h3, pulseHeld, writeInputsChanged]

/-- WE deasserted with a pulse active: the pulse ends (R58). -/
theorem strobe_end {s : State} (hp : s.dev.pulseActive = true) (h2 : s.ctrl.oeN = true)
    (hk : Bits.known s.chain.storage = true) :
    ctrlStep (.setWe .deasserted) s =
      State.pulseEnd
        { State.emit (.pin .weN true) s.beginEvent with
          ctrl := { s.ctrl with weN := true, upc := s.ctrl.upc + 1 } } := by
  refine (devReact_selected (old := s) (s := advanceUpc (.setWe .deasserted) (execUop (.setWe .deasserted) s.beginEvent))
    (react_of_clocks _ _ _ rfl rfl) rfl h2 h2 rfl hk).trans ?_
  rw [pulseReact]
  simp [execUop, advanceUpc, State.setWe, hp, Ctrl.strobing, Ctrl.ce, Ctrl.we, Drive.level]

/-- The device within the pulse that began at `b`. -/
def State.pulsing (s : State) (b : Nat) : Dev :=
  { s.dev with
    pulseActive := true
    pulseStart := some b
    pulseAddr := s.chain.storage
    pulseData := s.ctrl.drivenData
    pulseBusyAtStart := some (decide (b < s.dev.busyUntil))
    pulseUnstable := false }

/-- The state `w` within the pulse that began at `b`, which so far recorded events of the kinds `ks`. -/
structure Pulsing (s w : State) (b : Nat) (ks : List EventKind) : Prop where
  cfg : w.cfg = s.cfg
  host : w.host = s.host
  refused : w.refused = s.refused
  faults : w.faults = s.faults
  chain : w.chain = s.chain
  dev : w.dev = s.pulsing b
  begin_le : s.now ≤ b
  le_now : b ≤ w.now
  draws : s.draws < w.draws
  trace : ∃ evs, w.trace = s.trace ++ evs ∧ evs.map Event.kind = ks ∧ ∀ e ∈ evs, s.now ≤ e.time ∧ e.time ≤ w.now

/-- The pulse's start. -/
theorem pulse_start {s : State} (hp : s.dev.pulseActive = false) (h1 : s.ctrl.ceN = false) (h2 : s.ctrl.oeN = true)
    (hk : Bits.known s.chain.storage = true) :
    ∃ b, Pulsing s (ctrlStep (.setWe .asserted) s) b [.pin .weN false] ∧
      (ctrlStep (.setWe .asserted) s).now = b ∧
      (ctrlStep (.setWe .asserted) s).trace = s.trace ++ [⟨.pin .weN false, b⟩] ∧
      (ctrlStep (.setWe .asserted) s).ctrl = { s.ctrl with weN := false, upc := s.ctrl.upc + 1 } := by
  rw [strobe_run hp h1 h2 hk]
  refine ⟨s.now + (0 + Config.freeTime s.draws), ⟨rfl, rfl, rfl, rfl, rfl, rfl, by simp, by simp, ?_, ⟨_, rfl, rfl, ?_⟩⟩,
    rfl, rfl, rfl⟩
  · exact Nat.lt_succ_self _
  · simp

/-- A wait within the pulse. -/
theorem pulse_wait (n : Nat) {s w : State} {b : Nat} {ks : List EventKind} (hw : Pulsing s w b ks)
    (h1 : w.ctrl.ceN = false) (h2 : w.ctrl.oeN = true) (h3 : w.ctrl.weN = false)
    (hk : Bits.known s.chain.storage = true) :
    ∃ d, Pulsing s (ctrlStep (.wait n) w) b (ks ++ [.wait n d]) ∧ n ≤ d ∧ w.now + n ≤ (ctrlStep (.wait n) w).now ∧
      (ctrlStep (.wait n) w).trace = w.trace ++ [⟨.wait n d, (ctrlStep (.wait n) w).now⟩] ∧
      (ctrlStep (.wait n) w).ctrl = { w.ctrl with upc := w.ctrl.upc + 1 } := by
  obtain ⟨c1, c2, c3, c4, c5, c6, c7, c8, c9, evs, e1, e2, e3⟩ := hw
  rw [strobe_wait n (by rw [c6]; rfl) h1 h2 h3 (by rw [c5]; exact hk)]
  refine ⟨n + Config.freeTime (w.draws + 1), ⟨c1, c2, c3, c4, c5, c6, c7, ?_, ?_, ?_⟩, Nat.le_add_right _ _, ?_, rfl,
    rfl⟩
  · simp [State.wait]
    omega
  · simp [State.wait]
    omega
  · refine ⟨evs ++ [⟨.wait n (n + Config.freeTime (w.draws + 1)), (w.beginEvent.passTime n).now⟩], ?_, ?_, ?_⟩
    · simp [State.wait, e1]
    · simp [e2]
    · intro e he
      rcases List.mem_append.mp he with he | he
      · have := e3 e he
        simp [State.wait]
        omega
      · rw [List.mem_singleton.mp he]
        simp [State.wait]
        omega
  · simp [State.wait]
    omega

/-- The pulse's end: the device reacts to the state `w` at WE's rising edge. -/
theorem pulse_end {s v : State} {b : Nat} {ks : List EventKind} (hv : Pulsing s v b ks) (h2 : v.ctrl.oeN = true)
    (hk : Bits.known s.chain.storage = true) :
    ∃ w, ctrlStep (.setWe .deasserted) v = w.pulseEnd ∧ Pulsing s w b (ks ++ [.pin .weN true]) ∧ v.now ≤ w.now ∧
      w.trace = v.trace ++ [⟨.pin .weN true, w.now⟩] ∧
      w.ctrl = { v.ctrl with weN := true, upc := v.ctrl.upc + 1 } := by
  obtain ⟨c1, c2, c3, c4, c5, c6, c7, c8, c9, evs, e1, e2, e3⟩ := hv
  refine ⟨_, strobe_end (by rw [c6]; rfl) h2 (by rw [c5]; exact hk), ⟨c1, c2, c3, c4, c5, c6, c7, ?_, ?_, ?_⟩,
    by simp, rfl, rfl⟩
  · simp
    omega
  · simp
    omega
  · refine ⟨evs ++ [⟨.pin .weN true, v.beginEvent.now⟩], ?_, ?_, ?_⟩
    · simp [e1]
    · simp [e2]
    · intro e he
      rcases List.mem_append.mp he with he | he
      · have := e3 e he
        simp
        omega
      · rw [List.mem_singleton.mp he]
        simp
        omega

/-- The whole pulse of a WRITE: `w` is the state at WE's rising edge, before the device reacts to it. -/
theorem pulse_run (n : Nat) {s : State} (hp : s.dev.pulseActive = false) (h1 : s.ctrl.ceN = false)
    (h2 : s.ctrl.oeN = true) (hk : Bits.known s.chain.storage = true) :
    ∃ (w : State) (b d e : Nat),
      steps [.setWe .asserted, .wait n, .setWe .deasserted] s = w.pulseEnd ∧
      Pulsing s w b [.pin .weN false, .wait n d, .pin .weN true] ∧ b + n ≤ w.now ∧ n ≤ d ∧
      w.trace = s.trace ++ [⟨.pin .weN false, b⟩, ⟨.wait n d, e⟩, ⟨.pin .weN true, w.now⟩] ∧
      w.ctrl = { s.ctrl with weN := true, upc := s.ctrl.upc + 3 } := by
  obtain ⟨b, p1, n1, t1, c1⟩ := pulse_start hp h1 h2 hk
  simp only [steps_cons, steps_nil]
  generalize ctrlStep (.setWe .asserted) s = s1 at p1 n1 t1 c1 ⊢
  obtain ⟨d, p2, hd, n2, t2, c2⟩ := pulse_wait n p1 (by rw [c1]; exact h1) (by rw [c1]; exact h2) (by rw [c1]) hk
  generalize ctrlStep (.wait n) s1 = s2 at p2 n2 t2 c2 ⊢
  obtain ⟨w, hw, p3, n3, t3, c3⟩ := pulse_end p2 (by rw [c2, c1]; exact h2) hk
  refine ⟨w, b, d, s2.now, hw, p3, by omega, hd, ?_, ?_⟩
  · rw [t3, t2, t1]
    simp
  · rw [c3, c2, c1]

/-! ### What a pulse end stores -/

/-- A commit (R58): not busy at the start, a defined cell, stable inputs, long enough. -/
theorem pulseStore_commit {s : State} {a : Nat} {b : Nat} {v : Byte} (h1 : s.dev.pulseBusyAtStart = some false)
    (h2 : reachedCell? s.cfg s.dev.pulseAddr = some a) (h3 : s.dev.pulseUnstable = false)
    (h4 : s.dev.pulseStart = some b) (h5 : s.dev.pulseData = Bits.ofBitVec v) (h6 : s.cfg.tWpDev ≤ s.now - b) :
    s.pulseStore = s.commit a v := by
  simp only [State.pulseStore, h1, h2, h3, h4, h5, Bits.value?_ofBitVec]
  simp [Nat.not_lt.mpr h6]

/-- Too short a pulse: the cell becomes a draw (R60). -/
theorem pulseStore_short {s : State} {a : Nat} {b : Nat} {v : Byte} (h1 : s.dev.pulseBusyAtStart = some false)
    (h2 : reachedCell? s.cfg s.dev.pulseAddr = some a) (h3 : s.dev.pulseUnstable = false)
    (h4 : s.dev.pulseStart = some b) (h5 : s.dev.pulseData = Bits.ofBitVec v) (h6 : s.now - b < s.cfg.tWpDev) :
    s.pulseStore = s.corrupt (.cells [a]) := by
  simp only [State.pulseStore, h1, h2, h3, h4, h5, Bits.value?_ofBitVec]
  simp [h6]

/-- Out of range with `OOR_MODE = UNDEFINED`: every cell becomes a draw (R62). -/
theorem pulseStore_outOfRange {s : State} (h1 : s.dev.pulseBusyAtStart = some false)
    (h2 : reachedCell? s.cfg s.dev.pulseAddr = none) : s.pulseStore = s.corrupt .all := by
  simp [State.pulseStore, h1, h2]

/-- The inputs changed within the pulse: both cells become draws (R73). -/
theorem pulseStore_unstable {s : State} {a : Nat} (h1 : s.dev.pulseBusyAtStart = some false)
    (h2 : reachedCell? s.cfg s.dev.pulseAddr = some a) (h3 : s.dev.pulseUnstable = true) :
    s.pulseStore = s.corrupt (.union (.cells [a]) (.ofCell? (wiredCell? s.cfg s.chain.storage))) := by
  simp [State.pulseStore, h1, h2, h3]

/-- The device was busy: both cells become draws (R61). -/
theorem pulseStore_busy {s : State} (h1 : s.dev.pulseBusyAtStart = some true) :
    s.pulseStore =
      s.corrupt
        (.union (.ofCell? (wiredCell? s.cfg s.dev.wcAddr)) (.ofCell? (reachedCell? s.cfg s.dev.pulseAddr))) := by
  simp [State.pulseStore, h1]

theorem reachedCell?_of_reaches {c : Config} {a : Addr} (h : c.reaches a) :
    reachedCell? c (Bits.ofBitVec a) = some (c.cellOf a) := by
  rcases h with h | h <;> simp [reachedCell?, inRange, wiredCell?, Config.cellOf, h]

theorem reachedCell?_of_not_reaches {c : Config} {a : Addr} (h : ¬c.reaches a) :
    reachedCell? c (Bits.ofBitVec a) = none := by
  simp only [Config.reaches, not_or] at h
  simp [reachedCell?, inRange, h.1, h.2]

/-- The data lines all driven carry `dout`. -/
theorem drivenData_output {c : Ctrl} (h : c.allLines .output) : c.drivenData = c.dout := by
  have h' : c.dir = Vector.replicate 8 .output := h
  ext1 i hi
  simp [Ctrl.drivenData, h']

end Sys2Proof.Machine
end

