-- ==== Sys2Proof/Laws/Events.lean ====
section
/-! SUPPORT. What one event of CTRL, a µop's or a reset, does to the device: everything about it in one structure, and
the cases of the write pulse drawn from it. -/

namespace Sys2Proof.Machine

/-- CTRL after a step is the µop's doing alone: the reaction leaves it. -/
theorem ctrlStep_ctrl_eq (u : Uop) (s : State)
    : (ctrlStep u s).ctrl = (advanceUpc u (execUop u s.beginEvent)).ctrl := by
  simp [ctrlStep]

/-- The chain after a step: its reaction to the change of CTRL. -/
theorem ctrlStep_chain_eq (u : Uop) (s : State)
    : (ctrlStep u s).chain = s.chain.react s.ctrl (ctrlStep u s).ctrl := by
  simp [ctrlStep]

theorem ctrlStep_chain_of_clocks {u : Uop} {s : State} (h1 : (ctrlStep u s).ctrl.sclk = s.ctrl.sclk)
    (h2 : (ctrlStep u s).ctrl.rclk = s.ctrl.rclk) :
   (ctrlStep u s).chain = s.chain := by rw [ctrlStep_chain_eq]; exact react_of_clocks _ _ _ h1 h2

/-- `t` is what an event leaves from `s`, by way of `x`, the state in which the write-pulse rules
begin (R54 step 6). -/
structure Reacted (s x t : State) : Prop where
  eq : t = pulseReact s x
  ctrl : x.ctrl = t.ctrl
  chain : x.chain = t.chain
  now : x.now = t.now
  cfg : x.cfg = s.cfg
  tcfg : t.cfg = s.cfg
  draws : s.draws < x.draws
  dev : x.dev = { s.dev with lastSelChange := if selectChanged s t then t.now else s.dev.lastSelChange }

/-- Every event of CTRL is of that form. -/
theorem reacted_of_afterEvent (s t : State) (h : s.afterEvent t) : ∃ x, Reacted s x t := by
  rcases h with ⟨u, rfl⟩ | rfl
  · refine ⟨noteSelect s (State.checkFaults s.eventIndex { advanceUpc u (execUop u s.beginEvent) with
        chain := s.chain.react s.ctrl (advanceUpc u (execUop u s.beginEvent)).ctrl }), ?_, by simp [ctrlStep],
        by simp [ctrlStep], by simp [ctrlStep], by simp, by simp, ?_, ?_⟩
    · rw [ctrlStep, devReact]; simp
    · have := execUop_draws_le u s.beginEvent; rw [State.beginEvent_draws] at this; simp; omega
    · rw [noteSelect_dev, noteSelect_lastSelChange]
      simp [selectChanged, ctrlStep]
  · refine ⟨noteSelect s (s.resetFields.emit .reset), resetEvent_eq s, by simp [State.resetEvent], by simp,
        by simp [State.resetEvent], by simp, by simp [State.resetEvent], by simp, ?_⟩
    rw [noteSelect_dev, noteSelect_lastSelChange]
    simp only [State.emit_dev, State.resetFields_dev]
    have h : selectChanged s (s.resetFields.emit .reset) = selectChanged s s.resetEvent := by
      have h1 : s.resetEvent.ctrl = Ctrl.reset := by simp [State.resetEvent]
      have h2 : s.resetEvent.cfg = s.cfg := by simp [State.resetEvent]
      simp only [selectChanged, h1, h2, State.emit_ctrl, State.emit_chain, State.emit_cfg, State.resetFields_ctrl,
          State.resetFields_chain, State.resetFields_cfg, State.resetEvent_chain]
      congr
    rw [h]
    congr 2
    simp [State.resetEvent]

/-- After every event the pulse record agrees with the lines (R57). -/
theorem Reacted.pulseActive {s x t : State} (e : Reacted s x t) : t.dev.pulseActive = t.ctrl.strobing := by
  rw [← e.ctrl, e.eq]
  unfold pulseReact
  split
  · next h1 h2 =>
    rw [h2]
    rfl
  · next h1 h2 =>
    rw [h2]
    unfold pulseHeld
    split <;> simp [e.dev, h1]
  · next h1 h2 =>
    rw [h2]
    rfl
  · next h1 h2 =>
    rw [h2, e.dev]
    exact h1

/-- An event that deasserts CE or WE within a pulse ends it (R58). -/
theorem Reacted.eq_pulseEnd (s t x : State) (e : Reacted s x t) (h1 : s.dev.pulseActive = true)
    (h2 : t.ctrl.ceN = true ∨ t.ctrl.weN = true) : t = x.pulseEnd := by
  have hs : x.ctrl.strobing = false := by
    rw [e.ctrl]; rcases h2 with h | h <;> simp [Ctrl.strobing, Ctrl.ce, Ctrl.we, h]
  rw [e.eq, pulseReact, h1, hs]

/-- Two cells made draws, one after the other. -/
theorem read_corruptCells_pair {s : State} (hm : Memory.wf s.dev.mem = true) (a b : Nat) (x : Nat)
    : Memory.read (corruptCells [a, b] s).dev.mem x = if x = b then Config.freeByte (s.draws + 1)
    else if x = a then Config.freeByte s.draws else Memory.read s.dev.mem x := by
  show Memory.read (Memory.write (Memory.write s.dev.mem a _) b _) x = _
  rw [Memory.read_write (Memory.write_wf hm _ _), Memory.read_write hm]

/-- The wired lines are the same: bit by bit. -/
theorem Bits.low_eq_iff (k : Nat) (v w : Bits 16) : Bits.low k v = Bits.low k w ↔ ∀ i : Fin 16,
    i.val < k → v[i] = w[i] := by
  simp only [Bits.low]
  constructor
  · intro h i hi
    have := congrArg (fun l => l[i.val]?) h
    simpa [List.getElem?_take, hi] using this
  · intro h
    apply List.ext_getElem?
    intro i
    simp only [List.getElem?_take]
    split
    · next hi =>
      by_cases h16 : i < 16
      · have := h ⟨i, h16⟩ hi
        simpa [h16] using this
      · simp [h16]
    · rfl

/-- An event that changes no line of the device leaves the device and adds no event of DEV. -/
theorem Reacted.still {s x t : State} (e : Reacted s x t) (h1 : s.pulseInStep) (h2 : t.ctrl.ceN = s.ctrl.ceN)
    (h2' : t.ctrl.oeN = s.ctrl.oeN) (h3 : t.ctrl.weN = s.ctrl.weN) (h4 : t.chain = s.chain)
    (h5 : t.ctrl.dir = s.ctrl.dir) (h6 : t.ctrl.dout = s.ctrl.dout) : t.dev = s.dev ∧ t.trace = x.trace := by
  have hs : x.ctrl.strobing = s.ctrl.strobing := by rw [e.ctrl]; simp [Ctrl.strobing, Ctrl.ce, Ctrl.we, h2, h3]
  have hp : s.dev.pulseActive = s.ctrl.strobing := h1
  have hx : x.dev = s.dev := by
    rw [e.dev, if_neg]
    simp [selectChanged, h2, h2', h4]
  have hw : writeInputsChanged s x = false := by simp [writeInputsChanged, e.ctrl, e.chain, h4, h5, h6]
  have : t = x := by
    rw [e.eq, pulseReact, hp, hs]
    cases s.ctrl.strobing
    · rfl
    · simp [pulseHeld, hw]
  rw [this]; exact ⟨hx, rfl⟩

/-- With CE and WE kept and the record in step, the step records its own event alone. -/
theorem ctrlStep_trace_still {u : Uop} {s : State} (h : s.pulseInStep) (h1 : (ctrlStep u s).ctrl.ceN = s.ctrl.ceN)
    (h2 : (ctrlStep u s).ctrl.weN = s.ctrl.weN) :
   (ctrlStep u s).trace = (execUop u s.beginEvent).trace := by
  have key : ∀ y : State, y.ctrl.strobing = s.dev.pulseActive → (pulseReact s y).trace = y.trace := by
    intro y hy; unfold pulseReact; rw [hy]; cases s.dev.pulseActive <;> simp
  have hp' : s.dev.pulseActive = s.ctrl.strobing := h
  have e := ctrlStep_ctrl_eq u s
  rw [ctrlStep, devReact, key]
  · simp
  · rw [noteSelect_ctrl, State.checkFaults_ctrl]
    show (advanceUpc u (execUop u s.beginEvent)).ctrl.strobing = _
    rw [← e, hp']; simp [Ctrl.strobing, Ctrl.ce, Ctrl.we, h1, h2]

/-- SAMPLE: the bit it reads, or a draw. -/
theorem sample_cases (s : State) (i : Fin 8) : ∃ b : Bool,
   (∃ n, execUop (.sample i) s.beginEvent = State.emit (.sample i b) { s.beginEvent with
       ctrl := { s.ctrl with rdata := Bits.shiftIn s.ctrl.rdata (some b) }, draws := n }) ∧
   (∀ l, s.beginEvent.sampled? i = some l → b = l) ∧
       (s.beginEvent.sampled? i = none → s.drew (ctrlStep (.sample i) s) (s.draws + 1) ∧
       b = Config.freeBit (s.draws + 1)) := by
  have hd : (execUop (.sample i) s.beginEvent).draws ≤ (ctrlStep (.sample i) s).draws := by
    have := devReact_draws_le s (advanceUpc (.sample i) (execUop (.sample i) s.beginEvent))
    rw [advanceUpc_draws] at this
    exact this
  cases ho : s.beginEvent.sampled? i with
  | none =>
    have e : execUop (.sample i) s.beginEvent = State.emit (.sample i (Config.freeBit (s.draws + 1)))
        { s.beginEvent with
        ctrl := { s.ctrl with rdata := Bits.shiftIn s.ctrl.rdata (some (Config.freeBit (s.draws + 1))) },
        draws := s.draws + 2 } := by
      simp [execUop, State.sample, ho]
    refine ⟨_, ⟨s.draws + 2, e⟩, by simp, fun _ => ⟨⟨by omega, ?_⟩, rfl⟩⟩
    rw [e] at hd
    exact Nat.lt_of_lt_of_le (Nat.lt_succ_self _) hd
  | some l =>
    refine ⟨l, ⟨s.draws + 1, ?_⟩, by simp, by simp⟩
    simp [execUop, State.sample, ho]

/-- A reset within a write pulse: the target commits or is a draw, by the width so far (R232). -/
theorem pulse_cut_by_reset {s1 w : State} {b : Nat} {ks} (a : Addr) (d : Byte) (cfg : Config) (mem : Memory)
    (hP : Pulsing s1 w b ks)
   (hcfg : w.cfg = cfg) (hmem : w.dev.mem = mem) (hm : Memory.wf mem = true)
       (hst : s1.chain.storage = Bits.ofBitVec a) (hdd : s1.ctrl.drivenData = Bits.ofBitVec d)
       (hf : s1.dev.busyUntil ≤ b) (hre : cfg.reaches a) :
   ∃ v : Byte, w.resetEvent.dev.busyUntil = w.resetEvent.now + cfg.tWcDev ∧ w.resetEvent.dev.pulseActive = false ∧
     w.resetEvent.dev.pulseStart = some b ∧
     (∀ x, Memory.read w.resetEvent.dev.mem x = if x = cfg.cellOf a then v else Memory.read mem x) ∧
     (cfg.tWpDev ≤ w.resetEvent.now - b → v = d) ∧ (w.resetEvent.now - b < cfg.tWpDev → ∃ k, w.drew w.resetEvent k ∧
         v = Config.freeByte k) := by
  obtain ⟨x, e⟩ := reacted_of_afterEvent w w.resetEvent (.inr rfl)
  have hact : w.dev.pulseActive = true := by rw [hP.dev]; rfl
  have ht := Reacted.eq_pulseEnd w _ x e hact (by left; simp [State.resetEvent, Ctrl.reset])
  have q1 : x.dev.pulseBusyAtStart = some false := by rw [e.dev, hP.dev]; simp [State.pulsing]; exact hf
  have q2 : reachedCell? x.cfg x.dev.pulseAddr = some (cfg.cellOf a) := by
    rw [e.cfg, hcfg, e.dev, hP.dev]; simp only [State.pulsing, hst]; exact reachedCell?_of_reaches hre
  have q3 : x.dev.pulseUnstable = false := by rw [e.dev, hP.dev]; rfl
  have q4 : x.dev.pulseStart = some b := by rw [e.dev, hP.dev]; rfl
  have q5 : x.dev.pulseData = Bits.ofBitVec d := by rw [e.dev, hP.dev]; exact hdd
  have hxm : x.dev.mem = mem := by rw [e.dev, ← hmem]
  have hdev := pulseEnd_dev x
  rw [← ht, e.now, e.cfg, hcfg] at hdev
  have hdr : w.resetEvent.draws = x.pulseStore.draws := by conv_lhs => rw [ht]
                                                           rfl
  by_cases hl : w.resetEvent.now - b < cfg.tWpDev
  · have hc := pulseStore_short q1 q2 q3 q4 q5 (by rw [e.now, e.cfg, hcfg]; exact hl)
    refine ⟨Config.freeByte x.draws, by rw [hdev], by rw [hdev], by rw [hdev]; exact q4, ?_, by omega,
        fun _ => ⟨x.draws, ⟨by have := e.draws; omega, ?_⟩, rfl⟩⟩
    · intro y; rw [hdev, hc]
      show Memory.read (Memory.write x.dev.mem _ _) y = _
      rw [hxm, Memory.read_write hm]
    · rw [hdr, hc]; exact Nat.lt_succ_self _
  · have hc := pulseStore_commit q1 q2 q3 q4 q5 (by rw [e.now, e.cfg, hcfg]; omega)
    refine ⟨d, by rw [hdev], by rw [hdev], by rw [hdev]; exact q4, ?_, fun _ => rfl, fun h => absurd h hl⟩
    intro y; rw [hdev, hc]
    show Memory.read (Memory.write x.dev.mem _ _) y = _
    rw [hxm, Memory.read_write hm]

end Sys2Proof.Machine
end

