-- ==== Sys2Proof/Laws/Marks.lean ====
section
/-! SUPPORT. What an event adds to the faults: every check of R202, in its order, in one equation. -/

namespace Sys2Proof.Machine

/-- A code is marked: the test of `raiseFault` as list membership. -/
theorem contains_code (l : List FaultMark) (f : FaultCode)
    : (l.map FaultMark.code).contains f = l.any (fun m => decide (m.code = f)) := by
  induction l with
  | nil => rfl
  | cons m l ih =>
    rw [List.map_cons, List.contains_cons, ih, List.any_cons]
    congr 1
    rw [Bool.eq_iff_iff, beq_iff_eq, decide_eq_true_eq]; exact eq_comm

theorem raiseFault_faults (f : FaultCode) (e : Nat) (s : State) : (s.raiseFault f e).faults = s.faults ++
    (if !(s.faults.map FaultMark.code).contains f then [⟨f, e⟩] else []) := by
  unfold State.raiseFault
  rw [contains_code]
  cases h : s.faults.any (fun m => decide (m.code = f)) <;> simp

/-- The marks `l` after the codes are raised in turn at event `e`, none twice (R201). -/
def addMarks (e : Nat) (l : List FaultMark) : List FaultCode → List FaultMark
  | [] => l
  | f :: fs => addMarks e (l ++ (if !(l.map FaultMark.code).contains f then [⟨f, e⟩] else [])) fs

theorem addMarks_append (e : Nat) (l : List FaultMark) (fs gs : List FaultCode) : addMarks e l (fs ++
    gs) = addMarks e (addMarks e l fs) gs := by
  induction fs generalizing l with
  | nil => rfl
  | cons f fs ih => exact ih _

/-- Distinct codes raised in turn: those not marked yet, in their order. -/
theorem addMarks_eq (e : Nat) (l : List FaultMark) (fs : List FaultCode) (h : fs.Nodup) : addMarks e l fs = l ++
    (fs.filter fun f => !(l.map FaultMark.code).contains f).map fun f => ⟨f, e⟩ := by
  induction fs generalizing l with
  | nil => simp [addMarks]
  | cons f fs ih =>
    obtain ⟨h1, h2⟩ := List.nodup_cons.mp h
    rw [addMarks, ih _ h2, List.filter_cons]
    cases hc : (l.map FaultMark.code).contains f
    · simp only [Bool.not_false, if_true, List.map_cons, List.append_assoc, List.singleton_append]
      congr 2
      congr 1
      apply List.filter_congr
      intro g hg
      have : g ≠ f := fun e => h1 (e ▸ hg)
      simp [this]
    · simp only [Bool.not_true, Bool.false_eq_true, if_false, List.append_nil]

/-- The marks `l` after a check of one code. -/
def markIf (b : Bool) (f : FaultCode) (e : Nat) (l : List FaultMark)
    : List FaultMark := addMarks e l (if b then [f] else [])

theorem raiseFault_if_faults (b : Bool) (f : FaultCode) (e : Nat) (s : State)
    : (if b then s.raiseFault f e else s).faults = markIf b f e s.faults := by
  cases b
  · rfl
  · exact raiseFault_faults f e s

/-- The checks of R54 steps 2, 3 and 4. -/
theorem checkFaults_faults (e : Nat) (s : State)
    : (s.checkFaults e).faults = markIf (s.ctrl.ce && (s.ctrl.oe || s.ctrl.we) && !Bits.known s.chain.storage)
    .f5AddrUndefined e
   (markIf (s.ctrl.devDrives && s.ctrl.drivesSomeLine) .f1Contention e (markIf (s.ctrl.oe && s.ctrl.we)
       .f2OeWe e s.faults)) := by
  simp only [State.checkFaults]
  rw [raiseFault_if_faults, raiseFault_if_faults, raiseFault_if_faults]

/-- The check of R73 (R54 step 6). -/
theorem pulseReact_faults (old s : State)
    : (pulseReact old s).faults = markIf (old.dev.pulseActive && s.ctrl.strobing && writeInputsChanged old s)
    .f4WriteUnstable old.trace.length s.faults := by
  unfold pulseReact
  cases h1 : old.dev.pulseActive <;> cases h2 : s.ctrl.strobing <;> simp [State.pulseEnd] <;> try rfl
  unfold pulseHeld
  cases h3 : writeInputsChanged old s
  · rfl
  · exact raiseFault_faults _ _ _

/-- The check F3, made at SET_DIR alone, before its writes (R143, R202). -/
def Uop.dirCheck : Uop → Ctrl → Bool
  | .setDir d, c => c.dirChangeEnabled d
  | _, _ => false

theorem execUop_marks (u : Uop) (s : State) :
    (execUop u s).faults = markIf (u.dirCheck s.ctrl) .f3DirChangeEnabled s.trace.length s.faults := by
  cases u with
  | setDir d =>
    simp only [execUop, State.setDir]
    exact raiseFault_if_faults _ _ _ _
  | _ => exact execUop_faults trivial

/-- What a CTRL step adds to the faults: the five checks in the order of R202, each on the state it is made in. -/
theorem ctrlStep_faults (u : Uop) (s : State) :
    (ctrlStep u s).faults =
      markIf (s.dev.pulseActive && (ctrlStep u s).ctrl.strobing && writeInputsChanged s (ctrlStep u s))
        .f4WriteUnstable s.trace.length
        (markIf ((ctrlStep u s).ctrl.ce && ((ctrlStep u s).ctrl.oe || (ctrlStep u s).ctrl.we) &&
            !Bits.known (ctrlStep u s).chain.storage) .f5AddrUndefined s.trace.length
          (markIf ((ctrlStep u s).ctrl.devDrives && (ctrlStep u s).ctrl.drivesSomeLine) .f1Contention s.trace.length
            (markIf ((ctrlStep u s).ctrl.oe && (ctrlStep u s).ctrl.we) .f2OeWe s.trace.length
              (markIf (u.dirCheck s.ctrl) .f3DirChangeEnabled s.trace.length s.faults)))) := by
  have e : (ctrlStep u s).ctrl = (advanceUpc u (execUop u s.beginEvent)).ctrl := by simp [ctrlStep]
  have c : (ctrlStep u s).chain = s.chain.react s.ctrl (ctrlStep u s).ctrl := by simp [ctrlStep]
  have w : ∀ x : State, x.chain = (ctrlStep u s).chain → x.ctrl = (ctrlStep u s).ctrl →
      writeInputsChanged s x = writeInputsChanged s (ctrlStep u s) := by
    intro x h1 h2
    simp only [writeInputsChanged, h1, h2]
  conv_lhs => rw [ctrlStep, devReact, pulseReact_faults]
  rw [w _ (by simp [c, e]) (by simp [e])]
  simp only [noteSelect_faults, checkFaults_faults, advanceUpc_faults, execUop_marks, State.beginEvent_faults,
    State.beginEvent_ctrl, noteSelect_ctrl, State.checkFaults_ctrl, State.beginEvent_trace]
  rw [e, c, e]
  simp [State.eventIndex]

end Sys2Proof.Machine
end

