-- ==== Sys2Proof/Laws/Step.lean ====
section
/-! SUPPORT. What a step can do, said once, and the two inductions over it: over the µops of a command and over the
steps of a run. -/

namespace Sys2Proof.Machine

/-- Every command answers a next state. -/
theorem exec_next (i : Instr) (s : State) : exec i s = .next (runCommand i.phase i.op i.addr i.data s) := by
  cases i <;> rfl

theorem phase_ne_ready (i : Instr) : i.phase ≠ .ready := by cases i <;> exact fun h => nomatch h

/-- In a phase with a µop at `upc` and no reset due, the step runs that µop (R100). -/
theorem step_uop {s : State} {u : Uop} (h1 : s.rstDue = false) (h2 : s.ctrl.phase ≠ .ready)
    (h3 : s.currentUop = some u) : step s = .next (ctrlStep u s) := by
  unfold step
  simp only [h1]
  cases hp : s.ctrl.phase <;> simp_all

/-- The moves of R110: all a step can do when it answers a next state. -/
theorem step_cases {s t : State} (h : step s = .next t) :
    (s.rstDue = true ∧ t = s.resetEvent) ∨
      (s.rstDue = false ∧ s.ctrl.phase ≠ .ready ∧ ∃ u, s.currentUop = some u ∧ t = ctrlStep u s) ∨
      (s.rstDue = false ∧ s.ctrl.phase = .ready ∧
        ((s.host = [] ∧ t = s.passTime 0) ∨
          (∃ d rest, s.host = .idle d :: rest ∧ t = State.hostIdle d { s with host := rest }) ∨
          (∃ w i rest, s.host = .command w :: rest ∧ decode w = .ok i ∧
            t = runCommand i.phase i.op i.addr i.data { s with host := rest }) ∨
          ∃ w e rest, s.host = .command w :: rest ∧ decode w = .error e ∧
            t = State.acceptReserved w { s with host := rest })) := by
  unfold step at h
  split at h
  · next hr =>
    cases h
    exact .inl ⟨hr, rfl⟩
  · next hr =>
    have hr' : s.rstDue = false := by simpa using hr
    refine .inr ?_
    split at h
    · next hp =>
      refine .inr ⟨hr', hp, ?_⟩
      split at h
      · next hh =>
        cases h
        exact .inl ⟨hh, rfl⟩
      · next d rest hh =>
        cases h
        exact .inr (.inl ⟨d, rest, hh, rfl⟩)
      · next w rest hh =>
        split at h
        · next i hi =>
          rw [exec_next] at h
          cases h
          exact .inr (.inr (.inl ⟨w, i, rest, hh, hi, rfl⟩))
        · next e he =>
          cases h
          exact .inr (.inr (.inr ⟨w, e, rest, hh, he, rfl⟩))
    all_goals
      next hp =>
      refine .inl ⟨hr', (by simp [hp]), ?_⟩
      split at h
      · next u hu =>
        cases h
        exact ⟨u, hu, rfl⟩
      · cases h

/-- What every µop and every reset keeps, a table's run keeps. -/
theorem runTable_keeps {P : State → Prop} (hu : ∀ u s, P s → P (ctrlStep u s)) (hr : ∀ s, P s → P s.resetEvent)
    (us : List Uop) {s : State} (h : P s) : P (runTable us s) := by
  induction us generalizing s with
  | nil => exact h
  | cons u us ih =>
    rw [runTable]
    split
    · exact hr s h
    · exact ih (hu u s h)

/-- What acceptance, every µop and every reset keep, a command keeps. -/
theorem runCommand_keeps {P : State → Prop} (ha : ∀ ph op a d s, P s → P (s.accept ph op a d))
    (hu : ∀ u s, P s → P (ctrlStep u s)) (hr : ∀ s, P s → P s.resetEvent) {ph : Phase} {op : BitVec 2} {a : Addr}
    {d : Byte} {s : State} (h : P s) : P (runCommand ph op a d s) :=
  runTable_keeps hu hr _ (ha ph op a d s h)

@[simp] theorem run_zero (s : State) : run 0 s = .next s := rfl

theorem coreRun_next (M : Host.Core) {s t : M.State} (h : M.step s = .next t) (n : Nat) :
    M.run (n + 1) s = M.run n t := by
  rw [Host.Core.run, h]

theorem coreRun_fault (M : Host.Core) {s : M.State} {f : M.Fault} (h : M.step s = .fault f) (n : Nat) :
    M.run (n + 1) s = .fault f := by
  rw [Host.Core.run, h]

theorem coreRun_refused (M : Host.Core) {s : M.State} {r : M.Refusal} (h : M.step s = .refused r) (n : Nat) :
    M.run (n + 1) s = .refused r := by
  rw [Host.Core.run, h]

/-- A run's first step. -/
theorem run_next {s t : State} (h : step s = .next t) (n : Nat) : run (n + 1) s = run n t := coreRun_next core h n

/-- A run that answers a next state took its first step. -/
theorem run_first {s t : State} {n : Nat} (h : run (n + 1) s = .next t) :
    ∃ s', step s = .next s' ∧ run n s' = .next t := by
  cases hs : step s with
  | next s' => exact ⟨s', rfl, by rw [← run_next hs, h]⟩
  | fault f => exact nomatch (show run (n + 1) s = .fault f from coreRun_fault core hs n).symm.trans h
  | refused r => exact nomatch (show run (n + 1) s = .refused r from coreRun_refused core hs n).symm.trans h

/-- What every step keeps, a run keeps. -/
theorem run_keeps {P : State → Prop} (hs : ∀ s t, P s → step s = .next t → P t) {n : Nat} {s t : State}
    (h : run n s = .next t) (hp : P s) : P t := by
  induction n generalizing s with
  | zero =>
    cases h
    exact hp
  | succ n ih =>
    obtain ⟨s', h1, h2⟩ := run_first h
    exact ih h2 (hs s s' hp h1)

/-- The commands one after the other, as a function: each answers a next state. -/
theorem execAll_cons (i : Instr) (is : List Instr) (s : State) :
    execAll (i :: is) s = execAll is (runCommand i.phase i.op i.addr i.data s) := by
  rw [execAll, exec_next]

end Sys2Proof.Machine
end

