-- ==== Sys2Proof/Laws/Growth.lean ====
section
/-! SUPPORT. What only grows or moves forward, for every event, every command and every step: the trace and time; the
kinds of the events recorded; the times of the ACCEPT events. -/

namespace Sys2Proof.Machine

/-- From `s` to `t` time, the draws and the trace go forward, the configuration is kept, and HOST's
lists only lose from the front. -/
structure Forward (s t : State) : Prop where
  now : s.now ≤ t.now
  draws : s.draws ≤ t.draws
  cfg : t.cfg = s.cfg
  host : t.host <:+ s.host
  rst : t.rst.length ≤ s.rst.length
  ev : ∃ evs, t.trace = s.trace ++ evs ∧ (evs.map Event.time).Pairwise (· ≤ ·) ∧ ∀ e ∈ evs, s.now ≤ e.time ∧
      e.time ≤ t.now

theorem Forward.trans {s t u : State} (h : Forward s t) (g : Forward t u) : Forward s u := by
  refine ⟨h.now.trans g.now, h.draws.trans g.draws, g.cfg.trans h.cfg, g.host.trans h.host, g.rst.trans h.rst, ?_⟩
  obtain ⟨es, h1, h2, h3⟩ := h.ev
  obtain ⟨fs, g1, g2, g3⟩ := g.ev
  refine ⟨es ++ fs, by rw [g1, h1, List.append_assoc], ?_, ?_⟩
  · rw [List.map_append, List.pairwise_append]
    refine ⟨h2, g2, ?_⟩
    intro a ha b hb
    obtain ⟨x, hx, rfl⟩ := List.mem_map.mp ha
    obtain ⟨y, hy, rfl⟩ := List.mem_map.mp hb
    exact (h3 x hx).2.trans (g3 y hy).1
  · intro e he
    rcases List.mem_append.mp he with he | he
    · exact ⟨(h3 e he).1, (h3 e he).2.trans g.now⟩
    · exact ⟨h.now.trans (g3 e he).1, (g3 e he).2⟩

theorem times_pairwise_of_eq {l : List Event} {n : Nat} (h : ∀ e ∈ l,
    e.time = n) : (l.map Event.time).Pairwise (· ≤ ·) := by
  rw [List.pairwise_map]
  rw [List.pairwise_iff_forall_sublist]
  intro a b hab
  have ha : a ∈ l := hab.subset (by simp)
  have hb : b ∈ l := hab.subset (by simp)
  rw [h a ha, h b hb]

theorem countDown_length_le (l : List Nat) : (countDown l).length ≤ l.length := by
  unfold countDown; split <;> simp

/-- Each µop is one CTRL event nearer to the next planned reset. -/
theorem steps_rst_cons (us : List Uop) {s : State} {n : Nat} {rs : List Nat} (h : s.rst = n :: rs)
    (hn : us.length ≤ n) : (steps us s).rst = (n - us.length) :: rs := by
  induction us generalizing s n with
  | nil => exact h
  | cons u us ih =>
    rw [List.length_cons] at hn
    obtain ⟨k, rfl⟩ : ∃ k, n = k + 1 := ⟨n - 1, by omega⟩
    rw [steps_cons, ih (n := k) (by rw [ctrlStep_rst, h]; rfl) (by omega), List.length_cons]
    congr 1
    omega

theorem forward_ctrlStep (u : Uop) (s : State) : Forward s (ctrlStep u s) := by
  refine ⟨(ctrlStep_grows u s).2.2, Nat.le_of_lt (ctrlStep_draws_lt u s), by simp, by simp,
      by simp [countDown_length_le], ?_⟩
  obtain ⟨evs, h1, h2⟩ := ctrlStep_trace u s
  refine ⟨evs, h1, times_pairwise_of_eq fun e he => (h2 e he).2, fun e he => ?_⟩
  rw [(h2 e he).2]; exact ⟨(ctrlStep_grows u s).2.2, Nat.le_refl _⟩

theorem forward_resetEvent (s : State) : Forward s s.resetEvent := by
  have hn : s.now ≤ s.resetEvent.now := by simp [State.resetEvent]
  refine ⟨hn, resetEvent_draws_le s, by simp [State.resetEvent], by simp [State.resetEvent],
      by simp [State.resetEvent], ?_⟩
  obtain ⟨evs, h1, h2⟩ := recorded_resetEvent s
  refine ⟨_, h1, times_pairwise_of_eq (n := s.resetEvent.now) ?_, ?_⟩
  · intro e he
    rcases List.mem_cons.mp he with rfl | he
    · rfl
    · exact (h2 e he).2
  · intro e he
    have : e.time = s.resetEvent.now := by
      rcases List.mem_cons.mp he with rfl | he
      · rfl
      · exact (h2 e he).2
    rw [this]; exact ⟨hn, Nat.le_refl _⟩

theorem forward_accept (ph op a d) (s : State) : Forward s (s.accept ph op a d) := by
  have r := accept_ran ph op a d s
  refine ⟨r.now_le, Nat.le_succ _, rfl, by simp [r.host], by simp [countDown_length_le], ?_⟩
  exact ⟨_, rfl, by simp, by simp [State.accept, State.acceptEvent]⟩

/-- Every event recorded after the first `n` has a kind in `P`. -/
def NewKinds (P : EventKind → Prop) (n : Nat) (s : State) : Prop := n ≤ s.trace.length ∧
    ∀ e ∈ s.trace.drop n, P e.kind

theorem NewKinds.of_append {P : EventKind → Prop} {n : Nat} {s t : State} {evs : List Event} (h : NewKinds P n s)
    (ht : t.trace = s.trace ++ evs) (he : ∀ e ∈ evs, P e.kind) : NewKinds P n t := by
  refine ⟨by rw [ht]; simp; have := h.1; omega, ?_⟩
  rw [ht, List.drop_append_of_le_length h.1]
  intro e hm
  rcases List.mem_append.mp hm with hm | hm
  · exact h.2 e hm
  · exact he e hm

theorem NewKinds.of_steps {P : EventKind → Prop} {n : Nat} {s : State} (us : List Uop) (hu : ∀ u ∈ us, ∀ k,
    (u.mayRecord k ∨ k.byDevice = true) → P k) (h : NewKinds P n s) : NewKinds P n (steps us s) := by
  induction us generalizing s with
  | nil => exact h
  | cons u us ih =>
    obtain ⟨evs, h1, h2⟩ := ctrlStep_trace u s
    exact ih (fun v hv => hu v (List.mem_cons_of_mem _ hv))
        (NewKinds.of_append h h1 (fun e he => hu u (List.mem_cons_self ..) _ (h2 e he).1))

theorem NewKinds.of_resetEvent {P : EventKind → Prop} {n : Nat} {s : State} (hP : ∀ k,
    k = .reset ∨ k.byDevice = true → P k) (h : NewKinds P n s) : NewKinds P n s.resetEvent := by
  obtain ⟨evs, h1, h2⟩ := recorded_resetEvent s
  refine NewKinds.of_append h h1 ?_
  intro e he
  rcases List.mem_cons.mp he with rfl | he
  · exact hP _ (.inl rfl)
  · exact hP _ (.inr (h2 e he).1)

theorem NewKinds.of_runTable {P : EventKind → Prop} {n : Nat} {s : State} (us : List Uop) (hP : ∀ k,
    k = .reset ∨ k.byDevice = true → P k) (hu : ∀ u ∈ us, ∀ k,
    (u.mayRecord k ∨ k.byDevice = true) → P k) (h : NewKinds P n s) : NewKinds P n (runTable us s) := by
  induction us generalizing s with
  | nil => exact h
  | cons u us ih =>
    rw [runTable]; split
    · exact NewKinds.of_resetEvent hP h
    obtain ⟨evs, h1, h2⟩ := ctrlStep_trace u s
    exact ih (fun v hv => hu v (List.mem_cons_of_mem _ hv))
        (NewKinds.of_append h h1 (fun e he => hu u (List.mem_cons_self ..) _ (h2 e he).1))

theorem not_device_rsp {k : EventKind} (h : k.byDevice = true) : ∀ ph v, k ≠ .rsp ph v := by
  rintro ph v rfl; simp [EventKind.byDevice] at h

/-- Every ACCEPT recorded after the first `n` events has time `N` or later. -/
def AcceptsFrom (n N : Nat) (t : State) : Prop := n ≤ t.trace.length ∧
    ∀ e ∈ t.trace.drop n, ∀ op a d, e.kind = .accept op a d → N ≤ e.time

theorem AcceptsFrom.of_append {n N : Nat} {s t : State} {evs : List Event} (h : AcceptsFrom n N s)
    (ht : t.trace = s.trace ++ evs) (he : ∀ e ∈ evs, ∀ op a d,
    e.kind = .accept op a d → N ≤ e.time) : AcceptsFrom n N t := by
  refine ⟨by rw [ht]; simp; have := h.1; omega, ?_⟩
  rw [ht, List.drop_append_of_le_length h.1]
  intro e hm
  rcases List.mem_append.mp hm with hm | hm
  · exact h.2 e hm
  · exact he e hm

theorem not_accept_of_mayRecord {u : Uop} {k : EventKind} (h : u.mayRecord k ∨ k.byDevice = true) : ∀ op a d,
    k ≠ .accept op a d := by
  rintro op a d rfl
  rcases h with h | h
  · cases u <;> simp [Uop.mayRecord] at h
  · simp [EventKind.byDevice] at h

theorem AcceptsFrom.of_ctrlStep {n N : Nat} (u : Uop) {s : State} (h : AcceptsFrom n N s)
    : AcceptsFrom n N (ctrlStep u s) := by
  obtain ⟨evs, h1, h2⟩ := ctrlStep_trace u s
  exact AcceptsFrom.of_append h h1 fun e he op a d hk => absurd hk (not_accept_of_mayRecord (h2 e he).1 op a d)

theorem AcceptsFrom.of_resetEvent {n N : Nat} {s : State} (h : AcceptsFrom n N s) : AcceptsFrom n N s.resetEvent := by
  obtain ⟨evs, h1, h2⟩ := recorded_resetEvent s
  refine AcceptsFrom.of_append h h1 fun e he op a d hk => ?_
  rcases List.mem_cons.mp he with rfl | he
  · cases hk
  · exact absurd (h2 e he).1 (by rw [hk]; simp [EventKind.byDevice])

end Sys2Proof.Machine
end

