-- ==== Sys2Proof/Laws/Tables.lean ====
section
/-! SUPPORT. The µop tables as lists: DONE at the end and nowhere else, and what each step does to `upc`, `phase` and
the latched operands (R100, R109). -/

namespace Sys2Proof.Machine

/-- A table without its DONE. -/
def tableBody (c : Config) (a : Bits 16) : Phase → List Uop
  | .startup => [.wait c.tSettle]
  | .ready => []
  | .latch => latchSeq a
  | .read => defensiveReset ++ Uop.setDir .input :: latchSeq a ++
    Uop.setCe .asserted :: Uop.setOe .asserted :: Uop.wait c.tReadAccess ::
    linesDown.map Uop.sample ++ (if c.readExitDeassert then [.setOe .deasserted, .setCe .deasserted] else [])
  | .write => defensiveReset ++ Uop.setDir .output :: latchSeq a ++ linesDown.map Uop.setDout ++
    [Uop.setCe .asserted, Uop.setWe .asserted, Uop.wait c.tStrobe, Uop.setWe .deasserted, Uop.setCe .deasserted,
      Uop.wait c.tRecovery]

theorem table_eq_body (c : Config) (a : Bits 16) (ph : Phase) (h : ph ≠ .ready) : table c a ph = tableBody c a ph ++
    [.done] := by
  cases ph with
  | ready => exact absurd rfl h
  | startup => rfl
  | latch => rfl
  | read => cases hx : c.readExitDeassert <;> simp [table, readTable, readExit, tableBody, hx]
  | write => simp [table, writeTable, tableBody]

theorem done_not_mem_latchSeq (a : Bits 16) : Uop.done ∉ latchSeq a := by
  simp [latchSeq, latchBit]

theorem done_not_mem_body (c : Config) (a : Bits 16) (ph : Phase) : Uop.done ∉ tableBody c a ph := by
  cases ph with
  | ready => simp [tableBody]
  | startup => simp [tableBody]
  | latch => simpa [tableBody] using done_not_mem_latchSeq a
  | read => cases hx : c.readExitDeassert <;> simp [tableBody, hx, done_not_mem_latchSeq, defensiveReset, linesDown]
  | write => simp [tableBody, done_not_mem_latchSeq, defensiveReset, linesDown]

theorem advanceUpc_upc_phase (u : Uop) (s : State)
    : (advanceUpc u (execUop u s)).ctrl.upc = (if u = .done then 0 else s.ctrl.upc + 1) ∧
   (advanceUpc u (execUop u s)).ctrl.phase = (if u = .done then .ready else s.ctrl.phase) := by
  cases u with
  | setSer b => cases b <;> simp [execUop, advanceUpc, State.setSer]
  | setDir d => simp only [execUop, State.setDir]; split <;> simp [advanceUpc]
  | sample i => simp only [execUop, State.sample]; split <;> simp [advanceUpc]
  | done => simp only [execUop, State.done]; split <;> simp [advanceUpc]
  | _ => simp [execUop, advanceUpc, State.setSclk, State.setRclk, State.setCe, State.setOe, State.setWe,
      State.setDout, State.wait]

theorem ctrlStep_upc_phase (u : Uop) (s : State)
    : (ctrlStep u s).ctrl.upc = (if u = .done then 0 else s.ctrl.upc + 1) ∧
   (ctrlStep u s).ctrl.phase = (if u = .done then .ready else s.ctrl.phase) := by
  rw [ctrlStep_ctrl_eq]; exact advanceUpc_upc_phase u s.beginEvent

theorem ctrlStep_operands (u : Uop) (s : State) : (ctrlStep u s).ctrl.cmdAddr = s.ctrl.cmdAddr ∧
    (ctrlStep u s).ctrl.cmdData = s.ctrl.cmdData := by
  rw [ctrlStep_ctrl_eq]
  cases u with
  | setSer b => cases b <;> simp [execUop, advanceUpc, State.setSer]
  | setDir d => simp only [execUop, State.setDir]; split <;> simp [advanceUpc]
  | sample i => simp only [execUop, State.sample]; split <;> simp [advanceUpc]
  | done => simp only [execUop, State.done]; split <;> simp [advanceUpc]
  | _ => simp [execUop, advanceUpc, State.setSclk, State.setRclk, State.setCe, State.setOe, State.setWe,
      State.setDout, State.wait]

theorem mem_dropLast_of_take (us : List Uop) (n : Nat) (h : n < us.length) : ∀ u ∈ us.take n, u ∈ us.dropLast := by
  intro u hu
  rw [List.dropLast_eq_take]
  have : us.take n = (us.take (us.length - 1)).take n := by rw [List.take_take]; congr 1; omega
  rw [this] at hu
  exact List.mem_of_mem_take hu

end Sys2Proof.Machine
end

