-- ==== Sys2Proof/Laws/Independence.lean ====
section
/-! SUPPORT. What an event does not see: HOST's script, its plan of resets (but for the count of the event), the byte
in `cmd_data` (but for SET_DOUT) and the events recorded before. Every operation of an event commutes with replacing
them. -/

namespace Sys2Proof.Machine

/-- `s` with another script of HOST, its plan of resets changed by `f`, another byte in `cmd_data` and other events in
the place of its first `n`. -/
def State.relabel (f : List Nat → List Nat) (m : List HostMove) (d : Bits 8) (p : List Event) (n : Nat) (s : State) :
    State :=
  { s with
    host := m
    rst := f s.rst
    ctrl := { s.ctrl with cmdData := d }
    trace := p ++ s.trace.drop n }

theorem relabel_self (s : State) : s.relabel id s.host s.ctrl.cmdData [] 0 = s := rfl

section
variable (f : List Nat → List Nat) (m : List HostMove) (d : Bits 8) (p : List Event) (n : Nat)

theorem emit_relabel {s : State} (hn : n ≤ s.trace.length) (k : EventKind) :
    (s.relabel f m d p n).emit k = (s.emit k).relabel f m d p n := by
  simp [State.emit, State.relabel, List.drop_append_of_le_length hn]

theorem eventIndex_relabel {s : State} (hn : n ≤ s.trace.length) (hp : p.length = n) :
    (s.relabel f m d p n).eventIndex = s.eventIndex := by
  simp only [State.eventIndex, State.relabel, List.length_append, List.length_drop]
  omega

theorem raiseFault_relabel (x : FaultCode) (e : Nat) (s : State) :
    (s.relabel f m d p n).raiseFault x e = (s.raiseFault x e).relabel f m d p n := by
  unfold State.raiseFault
  have e : (s.relabel f m d p n).faults = s.faults := rfl
  rw [e]
  split <;> rfl

theorem checkFaults_relabel (e : Nat) (s : State) :
    (s.relabel f m d p n).checkFaults e = (s.checkFaults e).relabel f m d p n := by
  simp only [State.checkFaults]
  have c : (s.relabel f m d p n).ctrl.oe = s.ctrl.oe ∧ (s.relabel f m d p n).ctrl.we = s.ctrl.we ∧
      (s.relabel f m d p n).ctrl.ce = s.ctrl.ce ∧ (s.relabel f m d p n).ctrl.devDrives = s.ctrl.devDrives ∧
      (s.relabel f m d p n).ctrl.drivesSomeLine = s.ctrl.drivesSomeLine ∧
      (s.relabel f m d p n).chain = s.chain := ⟨rfl, rfl, rfl, rfl, rfl, rfl⟩
  obtain ⟨c1, c2, c3, c4, c5, c6⟩ := c
  rw [c1, c2, c3, c4, c5, c6]
  cases s.ctrl.oe && s.ctrl.we <;> cases s.ctrl.devDrives && s.ctrl.drivesSomeLine <;>
    cases s.ctrl.ce && (s.ctrl.oe || s.ctrl.we) && !Bits.known s.chain.storage <;>
    simp only [Bool.false_eq_true, if_true, if_false, raiseFault_relabel]

theorem corruptCells_relabel (as : List Nat) (s : State) :
    corruptCells as (s.relabel f m d p n) = (corruptCells as s).relabel f m d p n := by
  induction as generalizing s with
  | nil => rfl
  | cons a as ih =>
    exact ih { s with
      dev := { s.dev with mem := Memory.write s.dev.mem a (Config.freeByte s.draws) }, draws := s.draws + 1 }

theorem corrupt_relabel {s : State} (hn : n ≤ s.trace.length) (x : CellSet) :
    (s.relabel f m d p n).corrupt x = (s.corrupt x).relabel f m d p n := by
  cases x with
  | all => simp [State.corrupt, State.emit, State.relabel, List.drop_append_of_le_length hn]
  | cells as =>
    simp only [State.corrupt, corruptCells_relabel]
    exact emit_relabel f m d p n (by rw [corruptCells_trace]; exact hn) _

theorem pulseStore_relabel {s : State} (hn : n ≤ s.trace.length) :
    (s.relabel f m d p n).pulseStore = s.pulseStore.relabel f m d p n := by
  have hc : ∀ a v, (s.relabel f m d p n).commit a v = (s.commit a v).relabel f m d p n := fun a v => by
    simp [State.commit, State.emit, State.relabel, List.drop_append_of_le_length hn]
  unfold State.pulseStore
  have e : (s.relabel f m d p n).dev = s.dev ∧ (s.relabel f m d p n).cfg = s.cfg ∧
      (s.relabel f m d p n).chain = s.chain ∧ (s.relabel f m d p n).now = s.now := ⟨rfl, rfl, rfl, rfl⟩
  obtain ⟨e1, e2, e3, e4⟩ := e
  rw [e1, e2, e3, e4]
  simp only [corrupt_relabel f m d p n hn, hc]
  split
  · rfl
  · split
    · rfl
    · split
      · rfl
      · split
        · split <;> rfl
        · rfl

theorem noteSelect_relabel (o s : State) :
    noteSelect (o.relabel f m d p n) (s.relabel f m d p n) = (noteSelect o s).relabel f m d p n := by
  have h : selectChanged (o.relabel f m d p n) (s.relabel f m d p n) = selectChanged o s := rfl
  unfold noteSelect
  rw [h]
  split <;> rfl

theorem pulseReact_relabel {o s : State} (ho : n ≤ o.trace.length) (hs : n ≤ s.trace.length) (hp : p.length = n) :
    pulseReact (o.relabel f m d p n) (s.relabel f m d p n) = (pulseReact o s).relabel f m d p n := by
  have h : writeInputsChanged (o.relabel f m d p n) (s.relabel f m d p n) = writeInputsChanged o s := rfl
  have e : (o.relabel f m d p n).dev.pulseActive = o.dev.pulseActive ∧
      (s.relabel f m d p n).ctrl.strobing = s.ctrl.strobing := ⟨rfl, rfl⟩
  unfold pulseReact
  rw [e.1, e.2]
  split
  · rfl
  · unfold pulseHeld
    rw [h, eventIndex_relabel f m d p n ho hp, raiseFault_relabel]
    split <;> rfl
  · simp only [State.pulseEnd, pulseStore_relabel f m d p n hs]
    rfl
  · rfl

theorem devReact_relabel {o s : State} (ho : n ≤ o.trace.length) (hs : n ≤ s.trace.length) (hp : p.length = n) :
    devReact (o.relabel f m d p n) (s.relabel f m d p n) = (devReact o s).relabel f m d p n := by
  have h := checkFaults_relabel f m d p n o.eventIndex { s with chain := s.chain.react o.ctrl s.ctrl }
  simp only [devReact]
  rw [eventIndex_relabel f m d p n ho hp]
  have h' : ({ s.relabel f m d p n with
      chain := (s.relabel f m d p n).chain.react (o.relabel f m d p n).ctrl (s.relabel f m d p n).ctrl } : State) =
      ({ s with chain := s.chain.react o.ctrl s.ctrl } : State).relabel f m d p n := rfl
  rw [h', h, noteSelect_relabel, pulseReact_relabel f m d p n ho (by simpa using hs) hp]

/-- A µop does not see what is replaced, but for SET_DOUT, which drives a bit of `cmd_data`. -/
theorem execUop_relabel {u : Uop} {s : State} (hu : (∀ i, u ≠ .setDout i) ∨ d = s.ctrl.cmdData)
    (hn : n ≤ s.trace.length) (hp : p.length = n) :
    execUop u (s.relabel f m d p n) = (execUop u s).relabel f m d p n := by
  have hd := fun l => List.drop_append_of_le_length (l₂ := l) hn
  cases u with
  | setSer b => cases b <;> simp [execUop, State.setSer, State.emit, State.relabel, hd]
  | setDir x =>
    simp only [execUop, State.setDir]
    have e : (s.relabel f m d p n).ctrl.dirChangeEnabled x = s.ctrl.dirChangeEnabled x := rfl
    rw [eventIndex_relabel f m d p n hn hp, raiseFault_relabel, e]
    split <;> simp [State.emit, State.relabel, hd]
  | setDout i =>
    rcases hu with hu | rfl
    · exact absurd rfl (hu i)
    · simp [execUop, State.setDout, State.emit, State.relabel, hd]
  | sample i =>
    have e : (s.relabel f m d p n).sampled? i = s.sampled? i := rfl
    simp only [execUop, State.sample, e]
    split <;> simp [State.emit, State.relabel, hd]
  | wait k => exact emit_relabel f m d p n (s := s.passTime k) hn _
  | done =>
    have e : (s.relabel f m d p n).ctrl.phase = s.ctrl.phase ∧
        (s.relabel f m d p n).ctrl.response = s.ctrl.response := ⟨rfl, rfl⟩
    simp only [execUop, State.done]
    rw [e.1, e.2, emit_relabel f m d p n hn]
    split <;> rfl
  | setSclk b => simp [execUop, State.setSclk, State.emit, State.relabel, hd]
  | setRclk b => simp [execUop, State.setRclk, State.emit, State.relabel, hd]
  | setCe x => simp [execUop, State.setCe, State.emit, State.relabel, hd]
  | setOe x => simp [execUop, State.setOe, State.emit, State.relabel, hd]
  | setWe x => simp [execUop, State.setWe, State.emit, State.relabel, hd]

/-- Nor does a CTRL step. -/
theorem ctrlStep_relabel (hf : ∀ l, countDown (f l) = f (countDown l)) {u : Uop} {s : State}
    (hu : (∀ i, u ≠ .setDout i) ∨ d = s.ctrl.cmdData)
    (hn : n ≤ s.trace.length) (hp : p.length = n) :
    ctrlStep u (s.relabel f m d p n) = (ctrlStep u s).relabel f m d p n := by
  have h1 := execUop_relabel f m d p n (u := u) (s := s.beginEvent) hu hn hp
  have h2 : ∀ x : State, advanceUpc u (x.relabel f m d p n) = (advanceUpc u x).relabel f m d p n := by
    intro x
    cases u <;> rfl
  have h3 : (s.relabel f m d p n).beginEvent = s.beginEvent.relabel f m d p n := by
    simp only [State.beginEvent, State.relabel, State.passTime, hf]
  have h4 : n ≤ (execUop u s.beginEvent).trace.length := by
    obtain ⟨es, h, -⟩ := execUop_trace u s.beginEvent
    rw [h, List.length_append, State.beginEvent_trace]
    omega
  rw [ctrlStep, h3, h1, h2, devReact_relabel f m d p n hn (by rw [advanceUpc_trace]; exact h4) hp]
  rfl

/-- A reset event sees none of it, and sets `cmd_data` like the other fields of CTRL. -/
theorem resetEvent_relabel (hf : ∀ l, (f l).tail = f l.tail) {s : State} (hn : n ≤ s.trace.length) (hp : p.length = n) :
    (s.relabel f m d p n).resetEvent = s.resetEvent.relabel f m (Bits.unknown 8) p n := by
  have h := emit_relabel f m (Bits.unknown 8) p n (s := s.resetFields) (by simpa using hn) .reset
  have e : (s.relabel f m d p n).resetFields = s.resetFields.relabel f m (Bits.unknown 8) p n := by
    simp only [State.resetFields, State.relabel, State.passTime, hf]
    rfl
  have h' := devReact_relabel f m (Bits.unknown 8) p n (o := s) (s := s.resetFields.emit .reset) hn
    (by rw [State.emit_trace, List.length_append, State.resetFields_trace]; omega) hp
  have o : ∀ x : State, devReact (s.relabel f m d p n) x = devReact (s.relabel f m (Bits.unknown 8) p n) x := fun _ => rfl
  rw [State.resetEvent, e, h, o, h']
  rfl

end

/-- Nor does a table's run, cut by a reset or not, in which no SET_DOUT stands. -/
theorem runTable_relabel (m : List HostMove) (p : List Event) (n : Nat) (us : List Uop)
    (hu : ∀ u ∈ us, ∀ i, u ≠ .setDout i) (hp : p.length = n) (s : State) (d : Bits 8) (hn : n ≤ s.trace.length) :
    ∃ d', runTable us (s.relabel id m d p n) = (runTable us s).relabel id m d' p n := by
  induction us generalizing s with
  | nil => exact ⟨d, rfl⟩
  | cons u us ih =>
    have hr : (s.relabel id m d p n).rstDue = s.rstDue := rfl
    rw [runTable, runTable, hr]
    split
    · exact ⟨Bits.unknown 8, resetEvent_relabel id m d p n (fun _ => rfl) hn hp⟩
    · rw [ctrlStep_relabel id m d p n (fun _ => rfl) (.inl (hu u (List.mem_cons_self ..))) hn hp]
      refine ih (fun v hv => hu v (List.mem_cons_of_mem _ hv)) (ctrlStep u s) ?_
      obtain ⟨evs, h, -⟩ := ctrlStep_trace u s
      rw [h, List.length_append]
      omega

/-- HOST's plan of resets alone, over a list of µops. -/
theorem steps_rst_irrelevant (us : List Uop) (s : State) :
    steps us { s with rst := [] } = { steps us s with rst := [] } := by
  induction us generalizing s with
  | nil => rfl
  | cons u us ih =>
    have h := ctrlStep_relabel (fun _ => []) s.host s.ctrl.cmdData [] 0 (fun _ => rfl) (u := u) (s := s) (.inr rfl)
      (Nat.zero_le _) rfl
    have h' : ctrlStep u { s with rst := [] } = { ctrlStep u s with rst := [] } := by
      refine Eq.trans h ?_
      rw [← ctrlStep_host u s, ← (ctrlStep_operands u s).2]
      rfl
    rw [steps_cons, steps_cons, h', ih]

/-- HOST's script alone, over a command's whole run without a reset. -/
theorem runCommand_host (i : Instr) (s : State) (m : List HostMove) (h : s.rst = []) :
    runCommand i.phase i.op i.addr i.data { s with host := m } =
      { runCommand i.phase i.op i.addr i.data s with host := m } := by
  have key : ∀ (us : List Uop) (s : State), s.rst = [] →
      runTable us { s with host := m } = { runTable us s with host := m } := by
    intro us
    induction us with
    | nil => exact fun s _ => rfl
    | cons u us ih =>
      intro s h
      have hs := ctrlStep_relabel id m s.ctrl.cmdData [] 0 (fun _ => rfl) (u := u) (s := s) (.inr rfl)
        (Nat.zero_le _) rfl
      have hc : (ctrlStep u s).ctrl.cmdData = s.ctrl.cmdData := (ctrlStep_operands u s).2
      have hs' : ctrlStep u { s with host := m } = { ctrlStep u s with host := m } := by
        refine Eq.trans hs ?_
        rw [← hc]
        rfl
      rw [runTable, runTable, if_neg (by rw [rstDue_nil (s := { s with host := m }) h]; simp),
        if_neg (by rw [rstDue_nil h]; simp), hs', ih _ (by simp [h])]
  exact key _ (s.accept i.phase i.op i.addr i.data) (by rw [accept_rst, h]; rfl)

end Sys2Proof.Machine
end

