-- ==== Sys2Proof/Laws/PerInstr.lean ====
section
/-! SUPPORT. What holds of every command as syntax, one lemma per constructor. -/

namespace Sys2Proof.Laws.TableMatch

/-- The command's word meets the mask and match of its row (30_encoding.md R84), carries its operands in the fields of
R82, and is well formed. -/
def Statement (i : Instr) : Prop :=
  encode i &&& 0x3000000#26 =
      (match i with
        | .read _ _ => 0x1000000#26
        | .write _ _ => 0x2000000#26
        | .latch _ _ => 0x3000000#26) ∧
    addrField (encode i) = i.addr ∧ dataField (encode i) = i.data ∧ i.wellFormed = true

/-- The mask of R84 keeps the field `op` alone. -/
theorem masked (w : CmdWord) : w &&& 0x3000000#26 = (opField w).setWidth 26 <<< 24 := by
  ext k hk
  simp only [opField, BitVec.getElem_and, BitVec.getElem_shiftLeft]
  interval_cases k <;> simp [BitVec.getLsbD_eq_getElem]

theorem read (a : Addr) (u : Byte) : Statement (.read a u) :=
  ⟨by
    rw [masked, opField_encode]
    show BitVec.setWidth 26 0b01#2 <<< 24 = 0x1000000#26
    decide, addrField_encode _, dataField_encode _, rfl⟩

theorem write (a : Addr) (d : Byte) : Statement (.write a d) :=
  ⟨by
    rw [masked, opField_encode]
    show BitVec.setWidth 26 0b10#2 <<< 24 = 0x2000000#26
    decide, addrField_encode _, dataField_encode _, rfl⟩

theorem latch (a : Addr) (u : Byte) : Statement (.latch a u) :=
  ⟨by
    rw [masked, opField_encode]
    show BitVec.setWidth 26 0b11#2 <<< 24 = 0x3000000#26
    decide, addrField_encode _, dataField_encode _, rfl⟩

end Sys2Proof.Laws.TableMatch
end

