-- ==== Sys2Proof/Laws/Samples.lean ====
section
/-! SUPPORT. The eight samples of a READ. -/

namespace Sys2Proof.Machine

/-- Where the device is not busy and its output has settled, it drives the reached cell's bits (R55). -/
theorem devOut?_valid {s : State} {x : Nat} (h1 : s.dev.busyUntil ≤ s.now)
    (h2 : s.cfg.tAccessDev ≤ s.now - s.dev.lastSelChange) (h3 : reachedCell? s.cfg s.chain.storage = some x)
    (i : Fin 8) : s.devOut? i = some ((Memory.read s.dev.mem x).getLsbD i) := by
  have hb : s.busy = false := by simp [State.busy, h1]
  simp [State.devOut?, hb, Nat.not_lt.mpr h2, h3]

/-- Where the address reaches no cell, every bit is a draw (R62). -/
theorem devOut?_none {s : State} (h3 : reachedCell? s.cfg s.chain.storage = none) (i : Fin 8) :
    s.devOut? i = none := by
  simp [State.devOut?, h3]

/-- Samples in read hold: one level each, shifted in one after the other. -/
theorem samples_run (is : List (Fin 8)) {s : State} (hp : s.dev.pulseActive = false) (hr : s.ctrl.readHold)
    (hk : Bits.known s.chain.storage = true) :
    ∃ bs : List Bool, bs.length = is.length ∧
      Ran s (steps (is.map Uop.sample) s) (List.zipWith EventKind.sample is bs) ∧
      (steps (is.map Uop.sample) s).ctrl =
        { s.ctrl with
          rdata := bs.foldl (fun w b => Bits.shiftIn w (some b)) s.ctrl.rdata
          upc := s.ctrl.upc + is.length } ∧
      (steps (is.map Uop.sample) s).chain = s.chain ∧ (steps (is.map Uop.sample) s).dev = s.dev ∧
      (∀ x, s.dev.busyUntil ≤ s.now → s.cfg.tAccessDev ≤ s.now - s.dev.lastSelChange →
        reachedCell? s.cfg s.chain.storage = some x →
        bs = is.map (fun i => (Memory.read s.dev.mem x).getLsbD i)) ∧
      (reachedCell? s.cfg s.chain.storage = none →
        ∃ ks : List Nat, bs = ks.map Config.freeBit ∧ ks.Pairwise (· < ·) ∧
          ∀ k ∈ ks, s.draws < k ∧ k < (steps (is.map Uop.sample) s).draws) := by
  induction is generalizing s with
  | nil => exact ⟨[], rfl, Ran.refl s, rfl, rfl, rfl, by simp, fun _ => ⟨[], by simp⟩⟩
  | cons i is ih =>
    obtain ⟨b, r, c1, c2, c3, c4, c5, c6, c7⟩ := sample_run i hp hr hk
    obtain ⟨bs, g0, g1, g2, g3, g4, g5, g6⟩ := ih (s := ctrlStep (.sample i) s) (by rw [c3]; exact hp)
      (by rw [c1]; exact hr) (by rw [c2]; exact hk)
    refine ⟨b :: bs, by simp [g0], ?_, ?_, ?_, ?_, ?_, ?_⟩
    · exact r.trans g1
    · simp only [List.map_cons, steps_cons, g2, c1, List.foldl_cons, List.length_cons]
      congr 1
      omega
    · exact g3.trans c2
    · exact g4.trans c3
    · intro x hx1 hx2 hx3
      have hm := r.now_le
      have hg := g5 x (by rw [c3]; omega) (by rw [c3, r.cfg]; omega) (by rw [c2, r.cfg]; exact hx3)
      rw [c3] at hg
      have hb := c4 _ (devOut?_valid (s := s.beginEvent) (x := x) (by simp; omega) (by simp; omega) hx3 i)
      rw [hg, hb]
      rfl
    · intro hn
      obtain ⟨ks, k1, k2, k3⟩ := g6 (by rw [c2, r.cfg]; exact hn)
      have hd := devOut?_none (s := s.beginEvent) hn i
      refine ⟨(s.draws + 1) :: ks, by rw [k1, c5 hd]; rfl, ?_, ?_⟩
      · exact List.pairwise_cons.mpr ⟨fun k hk => Nat.lt_trans (c7 hd) (k3 k hk).1, k2⟩
      · intro k hk
        rcases List.mem_cons.mp hk with rfl | hk
        · exact ⟨by omega, Nat.lt_of_lt_of_le (c7 hd) (steps_draws_le _ _)⟩
        · exact ⟨Nat.lt_trans c6 (k3 k hk).1, (k3 k hk).2⟩

/-- The byte of eight sampled levels, line 7 first. -/
def byteOf (bs : List Bool) : Byte := BitVec.ofFnLE fun i : Fin 8 => bs.getD (7 - i.val) false

theorem shiftIn_eight (bs : List Bool) (h : bs.length = 8) (v : Bits 8) :
    bs.foldl (fun w b => Bits.shiftIn w (some b)) v = Bits.ofBitVec (byteOf bs) ∧
      List.zipWith EventKind.sample linesDown bs = linesDown.map (fun i => EventKind.sample i ((byteOf bs).getLsbD i)) := by
  match bs, h with
  | [b7, b6, b5, b4, b3, b2, b1, b0], _ =>
    refine ⟨?_, ?_⟩
    · ext1 i hi
      simp only [List.foldl_cons, List.foldl_nil]
      interval_cases i <;> simp [byteOf]
    · simp [linesDown, byteOf]

theorem lines_byteOf (bs : List Bool) (h : bs.length = 8) :
    linesDown.map (fun i => (byteOf bs).getLsbD i) = bs := by
  match bs, h with
  | [b7, b6, b5, b4, b3, b2, b1, b0], _ => simp [linesDown, byteOf]

theorem byteOf_lines (v : Byte) : byteOf (linesDown.map fun i => v.getLsbD i) = v := by
  apply BitVec.eq_of_getLsbD_eq
  intro i hi
  interval_cases i <;> simp [byteOf, linesDown]

end Sys2Proof.Machine
end

