-- ==== Sys2Proof/Laws/Pins.lean ====
section
/-! SUPPORT. The lines and the chain after a list of µops, from any state at all: where no level is drawn they are
computed by `pinsAfter`. -/

namespace Sys2Proof.Machine

/-- The µop drives no drawn value. -/
def Uop.fixed : Uop → Bool
  | .setSer none => false
  | .sample _ => false
  | _ => true

theorem ctrl_fixed {u : Uop} (h : u.fixed = true) (s : State) : (ctrlStep u s).ctrl = s.ctrl.after u := by
  rw [ctrlStep_ctrl_eq]
  cases u with
  | wait n => rfl
  | sample i => cases h
  | setSer b => cases b with
    | none => cases h
    | some b => rfl
  | _ => exact (execUop_plain rfl s.beginEvent).1

theorem chain_fixed {u : Uop} (h : u.fixed = true) (s : State)
    : (ctrlStep u s).chain = s.chain.react s.ctrl (s.ctrl.after u) := by
  rw [ctrlStep_chain_eq, ctrl_fixed h]

theorem pins_fixed {us : List Uop} (h : ∀ u ∈ us, u.fixed = true) (s : State) : ((steps us s).ctrl,
    (steps us s).chain) = pinsAfter us (s.ctrl, s.chain) := by
  induction us generalizing s with
  | nil => rfl
  | cons u us ih =>
    have hu := h u (List.mem_cons_self ..)
    rw [steps_cons, ih fun v hv => h v (List.mem_cons_of_mem _ hv), ctrl_fixed hu, chain_fixed hu]; rfl

theorem take_fixed {us : List Uop} (h : ∀ u ∈ us, u.fixed = true) (k : Nat) : ∀ u ∈ us.take k,
    u.fixed = true := fun u hu => h u (List.mem_of_mem_take hu)

theorem latchBit_fixed (a : Addr) (m : Fin 16) : ∀ u ∈ latchBit (Bits.ofBitVec a) m, u.fixed = true := by
  rw [latchBit_eq]; intro u hu; simp at hu; rcases hu with rfl | rfl | rfl <;> rfl

theorem latchSeq_fixed (a : Addr) : ∀ u ∈ latchSeq (Bits.ofBitVec a), u.fixed = true := by
  intro u hu
  simp only [latchSeq, List.mem_append, List.mem_flatMap] at hu
  rcases hu with ⟨m, -, hu⟩ | hu
  · exact latchBit_fixed a m u hu
  · simp at hu; rcases hu with rfl | rfl <;> rfl

theorem latchBits_pins (a : Addr) (ms : List (Fin 16)) (c : Ctrl) (h : Chain) (h1 : c.sclk = false)
    (h2 : c.rclk = false) :
      pinsAfter (ms.flatMap (latchBit (Bits.ofBitVec a))) (c, h) =
        ({ c with ser := lastSer a ms c.ser, upc := c.upc + 3 * ms.length },
          { h with shift := shifted a ms h.shift }) := by
  induction ms generalizing c h with
  | nil => simp [pinsAfter, shifted, lastSer]
  | cons m ms ih =>
    have hb : pinsAfter (latchBit (Bits.ofBitVec a) m) (c, h) =
        ({ c with ser := a.getLsbD (15 - m.val), upc := c.upc + 3 },
          { h with shift := Bits.shiftIn h.shift (some (a.getLsbD (15 - m.val))) }) := by
      simp [latchBit_eq, pinsAfter, Ctrl.after, Chain.react, Chain.shifted, h1, h2]
    rw [List.flatMap_cons, pinsAfter_append, hb, ih _ _ (by exact h1) (by exact h2)]
    simp [shifted, lastSer]; omega

/-- The latch sequence from any state with the clocks low (R128). -/
theorem latchSeq_pins (a : Addr) (c : Ctrl) (h : Chain) (h1 : c.sclk = false) (h2 : c.rclk = false) :
      pinsAfter (latchSeq (Bits.ofBitVec a)) (c, h) =
        ({ c with ser := a.getLsbD 0, upc := c.upc + 50 }, ⟨Bits.ofBitVec a, Bits.ofBitVec a⟩) := by
  rw [latchSeq, pinsAfter_append, latchBits_pins a _ c h h1 h2, shifted_all, lastSer_all]
  simp [pinsAfter, Ctrl.after, Chain.react, Chain.shifted, h1, h2]

/-- Without a SET_RCLK the address lines keep their value (R130). -/
theorem storage_fixed (us : List Uop) (h : ∀ u ∈ us, ∀ b,
    u ≠ .setRclk b) (s : State) : (steps us s).chain.storage = s.chain.storage := by
  induction us generalizing s with
  | nil => rfl
  | cons u us ih =>
    rw [steps_cons, ih fun v hv => h v (List.mem_cons_of_mem _ hv), ctrlStep_chain_eq]
    have hr : (ctrlStep u s).ctrl.rclk = s.ctrl.rclk := by
      rw [ctrlStep_ctrl_eq]
      have hu := h u (List.mem_cons_self ..)
      cases u with
      | setSer b => cases b <;> rfl
      | setRclk b => exact absurd rfl (hu b)
      | setDir d => simp only [execUop, State.setDir]; split <;> simp [advanceUpc]
      | sample i => simp only [execUop, State.sample]; split <;> simp [advanceUpc]
      | done => simp only [execUop, State.done]; split <;> simp [advanceUpc]
      | _ => rfl
    simp [Chain.react, hr]

theorem latchSeq_split (a : Bits 16) : latchSeq a = (List.finRange 16).flatMap (latchBit a) ++ [.setRclk true,
    .setRclk false] := rfl

theorem latchBits_len (a : Bits 16) : ((List.finRange 16).flatMap (latchBit a)).length = 48 := rfl

theorem setUp_fixed (d : Dir) (a : Addr) : ∀ u ∈ setUp d (Bits.ofBitVec a), u.fixed = true := by
  intro u hu
  simp only [setUp, defensiveReset, List.mem_append, List.mem_cons, List.not_mem_nil, or_false] at hu
  rcases hu with (rfl | rfl | rfl) | rfl | hu
  · rfl
  · rfl
  · rfl
  · rfl
  · exact latchSeq_fixed a u hu

/-- The first 54 µops of READ and WRITE, from any state with the clocks low. -/
theorem setUp_pins (d : Dir) (a : Addr) (c : Ctrl) (h : Chain) (h1 : c.sclk = false) (h2 : c.rclk = false) :
   pinsAfter (setUp d (Bits.ofBitVec a)) (c, h) = ({ c with
       ceN := true, oeN := true, weN := true, dir := Vector.replicate 8 d, ser := a.getLsbD 0, upc := c.upc + 54 },
       ⟨Bits.ofBitVec a, Bits.ofBitVec a⟩) := by
  have e : pinsAfter (defensiveReset ++ [.setDir d]) (c, h) = ({ c with
      ceN := true, oeN := true, weN := true, dir := Vector.replicate 8 d, upc := c.upc + 4 }, h) := by
    simp only [defensiveReset, List.cons_append, List.nil_append, pinsAfter, react_setCe, react_setOe, react_setWe,
        react_setDir]; rfl
  have e2 : setUp d (Bits.ofBitVec a) = (defensiveReset ++ [.setDir d]) ++ latchSeq (Bits.ofBitVec a) := by
      simp [setUp]
  rw [e2, pinsAfter_append, e, latchSeq_pins a _ _ (by exact h1) (by exact h2)]

theorem readTable_eq (c : Config) (a : Bits 16) : readTable c a = (setUp .input a ++ [Uop.setCe .asserted,
    Uop.setOe .asserted]) ++ ([.wait c.tReadAccess] ++ (linesDown.map Uop.sample ++ readExit c)) := by
  simp [readTable, setUp]

theorem writeTable_eq (c : Config) (a : Bits 16) : writeTable c a = (setUp .output a ++ linesDown.map Uop.setDout ++
    [Uop.setCe .asserted]) ++ ([Uop.setWe .asserted, Uop.wait c.tStrobe,
    Uop.setWe .deasserted] ++ ([Uop.setCe .deasserted] ++ ([Uop.wait c.tRecovery] ++ [Uop.done]))) := by
  simp [writeTable, setUp]

theorem writeTable_fixed (c : Config) (a : Addr) : ∀ u ∈ writeTable c (Bits.ofBitVec a), u.fixed = true := by
  intro u hu
  simp only [writeTable, List.mem_append, List.mem_cons, defensiveReset, linesDown, List.map_cons, List.map_nil,
      List.not_mem_nil, or_false] at hu
  have := latchSeq_fixed a u
  rcases hu with ((((rfl | rfl | rfl) | rfl | hu) | _) | _)
  · rfl
  · rfl
  · rfl
  · rfl
  · exact this hu
  · rename_i h; rcases h with h | h | h | h | h | h | h | h <;> subst h <;> rfl
  · rename_i h; rcases h with h | h | h | h | h | h | h <;> subst h <;> rfl

/-- A sample changes `rdata` alone. -/
theorem ctrl_sample (i : Fin 8) (s : State) : ∃ b, (ctrlStep (.sample i) s).ctrl = { s.ctrl with
    rdata := Bits.shiftIn s.ctrl.rdata (some b), upc := s.ctrl.upc + 1 } ∧
    (ctrlStep (.sample i) s).chain = s.chain := by
  obtain ⟨b, ⟨n, hex⟩, -, -⟩ := sample_cases s i
  have e : (ctrlStep (.sample i) s).ctrl = { s.ctrl with
      rdata := Bits.shiftIn s.ctrl.rdata (some b), upc := s.ctrl.upc + 1 } := by rw [ctrlStep_ctrl_eq, hex]; rfl
  exact ⟨b, e, ctrlStep_chain_of_clocks (by rw [e]) (by rw [e])⟩

theorem ctrl_samples (is : List (Fin 8)) (s : State) : ∃ bs : List Bool, bs.length = is.length ∧
    (steps (is.map Uop.sample) s).ctrl = { s.ctrl with
    rdata := bs.foldl (fun w b => Bits.shiftIn w (some b)) s.ctrl.rdata, upc := s.ctrl.upc + is.length } ∧
    (steps (is.map Uop.sample) s).chain = s.chain := by
  induction is generalizing s with
  | nil => exact ⟨[], rfl, rfl, rfl⟩
  | cons i is ih =>
    obtain ⟨b, e1, e2⟩ := ctrl_sample i s
    obtain ⟨bs, h1, h2, h3⟩ := ih (ctrlStep (.sample i) s)
    refine ⟨b :: bs, by simp [h1], ?_, by rw [List.map_cons, steps_cons, h3, e2]⟩
    rw [List.map_cons, steps_cons, h2, e1]
    simp; omega

theorem mayRecord_notDev (u : Uop) : ∀ k, u.mayRecord k → k.byDevice = false := by
  intro k h; cases u <;> simp only [Uop.mayRecord] at h
  all_goals first
   | (obtain ⟨_, rfl⟩ := h; rfl)
   | (obtain ⟨_, _, rfl⟩ := h; rfl)

/-- A step records the µop's own event, then DEV's. -/
theorem ctrlStep_kinds (u : Uop) (s : State) (hu : ∀ k, u.mayRecord k → k.byDevice = false) : ∃ es fs,
    (ctrlStep u s).trace = s.trace ++ (es ++ fs) ∧ (execUop u s.beginEvent).trace = s.trace ++ es ∧
    (∀ e ∈ fs, e.kind.byDevice = true) ∧
    ((es ++ fs).map Event.kind).filter (fun k => !k.byDevice) = es.map Event.kind := by
  obtain ⟨es, h1, h2⟩ := execUop_trace u s.beginEvent
  obtain ⟨fs, g1, g2⟩ := devReact_trace s (advanceUpc u (execUop u s.beginEvent))
  refine ⟨es, fs, ?_, by simpa using h1, fun e he => (g2 e he).1, ?_⟩
  · rw [ctrlStep, g1, advanceUpc_trace, h1]; simp
  · rw [List.map_append, List.filter_append]
    have a1 : (fs.map Event.kind).filter (fun k => !k.byDevice) = [] := by
      rw [List.filter_eq_nil_iff]; intro k hk; obtain ⟨e, he, rfl⟩ := List.mem_map.mp hk; simp [(g2 e he).1]
    have a2 : (es.map Event.kind).filter (fun k => !k.byDevice) = es.map Event.kind := by
      rw [List.filter_eq_self]; intro k hk; obtain ⟨e, he, rfl⟩ := List.mem_map.mp hk; simp [hu _ (h2 e he).1]
    rw [a1, a2, List.append_nil]

/-- The events of CTRL in a list of µops, DEV's left out. -/
theorem kinds_steps {us : List Uop} (h : ∀ u ∈ us, u.plain = true) (s : State) : ∃ evs,
    (steps us s).trace = s.trace ++ evs ∧
   (evs.map Event.kind).filter (fun k => !k.byDevice) = recordsOf us (s.ctrl, s.chain) := by
  induction us generalizing s with
  | nil => exact ⟨[], by simp, rfl⟩
  | cons u us ih =>
    have hu := h u (List.mem_cons_self ..)
    have hfx : u.fixed = true := by cases u with
      | setSer b => cases b <;> first | rfl | exact absurd hu (by simp [Uop.plain])
      | sample i => exact absurd hu (by simp [Uop.plain])
      | wait i => exact absurd hu (by simp [Uop.plain])
      | _ => rfl
    obtain ⟨es, fs, h1, h2, h3, h4⟩ := ctrlStep_kinds u s (mayRecord_notDev u)
    obtain ⟨gs, g1, g2⟩ := ih (fun v hv => h v (List.mem_cons_of_mem _ hv)) (ctrlStep u s)
    refine ⟨es ++ fs ++ gs, by rw [steps_cons, g1, h1]; simp, ?_⟩
    have hk : es.map Event.kind = s.ctrl.records u := by
      have := (execUop_plain hu s.beginEvent).2.2.2
      rw [this] at h2
      have := List.append_cancel_left h2
      rw [← this]; simp [Function.comp_def]
    rw [List.map_append, List.filter_append, h4, g2, ctrl_fixed hfx, chain_fixed hfx, hk]; rfl

theorem latchBits_rec (a : Addr) (ms : List (Fin 16)) (p : Ctrl × Chain)
    : recordsOf (ms.flatMap (latchBit (Bits.ofBitVec a)))
    p = ms.flatMap (fun m => [.pin .ser (a.getLsbD (15 - m.val)), .pin .sclk true, .pin .sclk false]) := by
  induction ms generalizing p with
  | nil => rfl
  | cons m ms ih => rw [List.flatMap_cons, recordsOf_append, ih, latchBit_eq]; simp [recordsOf, Ctrl.records]

theorem count_filter (evs : List Event) (k0 : EventKind) (hk : k0.byDevice = false)
    : (evs.countP fun e => decide (e.kind = k0))
    = ((evs.map Event.kind).filter (fun k => !k.byDevice)).countP (fun k => decide (k = k0)) := by
  rw [List.countP_filter, List.countP_map]
  apply List.countP_congr
  intro e _
  simp only [Function.comp]
  by_cases h : e.kind = k0 <;> simp [h, hk]

/-- CE, OE, WE and the directions after the µop. -/
def levelAfter (l : Bool × Bool × Bool × Vector Dir 8) : Uop → Bool × Bool × Bool × Vector Dir 8
  | .setCe x => (x.level, l.2)
  | .setOe x => (l.1, x.level, l.2.2)
  | .setWe x => (l.1, l.2.1, x.level, l.2.2.2)
  | .setDir d => (l.1, l.2.1, l.2.2.1, Vector.replicate 8 d)
  | _ => l

/-- CE, OE, WE and the directions. -/
def Ctrl.levels (c : Ctrl) : Bool × Bool × Bool × Vector Dir 8 := (c.ceN, c.oeN, c.weN, c.dir)

theorem levels_ctrlStep (u : Uop) (s : State) : (ctrlStep u s).ctrl.levels = levelAfter s.ctrl.levels u := by
  by_cases h : u.fixed = true
  · rw [ctrl_fixed h]; cases u <;> rfl
  · cases u with
    | sample i => obtain ⟨b, e, -⟩ := ctrl_sample i s; rw [e]; rfl
    | setSer b =>
      cases b with
      | none => rw [ctrlStep_ctrl_eq]; rfl
      | some b => exact absurd rfl h
    | _ => exact absurd rfl h

theorem levels_steps (us : List Uop) (s : State) :
    (steps us s).ctrl.levels = us.foldl levelAfter s.ctrl.levels := by
  induction us generalizing s with
  | nil => rfl
  | cons u us ih => rw [steps_cons, ih, levels_ctrlStep]; rfl

/-- The µop drives no control line and no direction. -/
def Uop.offLevels : Uop → Bool
  | .setCe _ => false
  | .setOe _ => false
  | .setWe _ => false
  | .setDir _ => false
  | _ => true

theorem foldl_offLevels {us : List Uop} (h : ∀ u ∈ us, u.offLevels = true) (l) : us.foldl levelAfter l = l := by
  induction us generalizing l with
  | nil => rfl
  | cons u us ih =>
    have hu := h u (List.mem_cons_self ..)
    rw [List.foldl_cons, ih fun v hv => h v (List.mem_cons_of_mem _ hv)]
    cases u <;> first | rfl | cases hu

theorem latchSeq_offLevels (a : Bits 16) : ∀ u ∈ latchSeq a, u.offLevels = true := by
  intro u hu
  simp only [latchSeq, latchBit, List.mem_append, List.mem_flatMap, List.mem_cons, List.not_mem_nil, or_false] at hu
  rcases hu with ⟨m, -, rfl | rfl | rfl⟩ | rfl | rfl <;> rfl

/-- The levels after a part of a list of µops whose middle drives none. -/
theorem levels_take {pre mid post : List Uop} (h : ∀ u ∈ mid, u.offLevels = true) (k : Nat) (l) :
    ((pre ++ mid ++ post).take k).foldl levelAfter l = (post.take (k - pre.length - mid.length)).foldl levelAfter
        ((pre.take k).foldl levelAfter l) := by
  rw [List.append_assoc, List.take_append, List.foldl_append, List.take_append, List.foldl_append,
    foldl_offLevels fun u hu => h u (List.mem_of_mem_take hu)]

/-- Only SET_DOUT writes the latches of the data lines (R27). -/
theorem ctrl_dout {u : Uop} (h : ∀ i, u ≠ .setDout i) (s : State) : (ctrlStep u s).ctrl.dout = s.ctrl.dout := by
  by_cases hf : u.fixed = true
  · rw [ctrl_fixed hf]; cases u <;> first | rfl | exact absurd rfl (h _)
  · cases u with
    | sample i => obtain ⟨b, e, -⟩ := ctrl_sample i s; rw [e]
    | setSer b =>
      cases b with
      | none => rw [ctrlStep_ctrl_eq]; rfl
      | some b => exact absurd rfl hf
    | _ => exact absurd rfl hf

theorem steps_dout {us : List Uop} (h : ∀ u ∈ us, ∀ i,
    u ≠ .setDout i) (s : State) : (steps us s).ctrl.dout = s.ctrl.dout := by
  induction us generalizing s with
  | nil => rfl
  | cons u us ih => rw [steps_cons, ih fun v hv => h v (List.mem_cons_of_mem _ hv),
      ctrl_dout (h u (List.mem_cons_self ..))]

theorem douts_pins (d : Byte) (c : Ctrl) (h : Chain) (hd : c.cmdData = Bits.ofBitVec d)
    : pinsAfter (linesDown.map Uop.setDout) (c, h) = ({ c with dout := Bits.ofBitVec d, upc := c.upc + 8 }, h) := by
      have := (douts_run d { c with ceN := true, oeN := true } h hd (calm_of_ceN rfl rfl)).2.1
      simp only [linesDown, List.map_cons, List.map_nil, pinsAfter, react_setDout] at this ⊢
      simp only [Ctrl.after, Prod.mk.injEq, Ctrl.mk.injEq, and_true, true_and] at this ⊢
      exact this

end Sys2Proof.Machine
end

