-- ==== Sys2Proof/Laws/Whole.lean ====
section
/-! SUPPORT. The three commands whole, from a state between commands with no reset planned: what each leaves, in one
structure each, with what follows from it. -/

namespace Sys2Proof.Machine

theorem calm_of_quiet {s : State} (h : s.quietPins) : Calm s.ctrl s.chain.storage := by
  obtain ⟨h1, -, -, -, h5⟩ := h
  refine ⟨?_, ?_, fun hd => (h5 hd).1, fun hd => (h5 hd).2⟩ <;> simp [Ctrl.strobing, Ctrl.oe, Ctrl.we, h1]

theorem calm_accept {s : State} (h : s.quietPins) (ph op a d)
    : Calm (s.accept ph op a d).ctrl (s.accept ph op a d).chain.storage :=
  (calm_of_quiet h).of_levels rfl rfl rfl rfl

/-- No µop of the list adds a fault, run from `s`. -/
def FaultFree : List Uop → State → Prop
  | [], _ => True
  | u :: us, s => (ctrlStep u s).faults = s.faults ∧ FaultFree us (ctrlStep u s)

theorem faultFree_append {us vs : List Uop} {s : State} : FaultFree (us ++ vs) s ↔ FaultFree us s ∧
    FaultFree vs (steps us s) := by
  induction us generalizing s with
  | nil => simp [FaultFree]
  | cons u us ih => simp [FaultFree, ih, and_assoc]

theorem faultFree_calm {us : List Uop} {s : State} (hp : s.dev.pulseActive = false) (h : CalmRun us (s.ctrl,
    s.chain)) : FaultFree us s := by
  induction us generalizing s with
  | nil => trivial
  | cons u us ih =>
    obtain ⟨h1, h2, h3, h4⟩ := h
    obtain ⟨r, rc, rh⟩ := ran_plain h1 hp h2 h3
    rw [← rh, ← rc] at h4
    exact ⟨r.faults, ih (by rw [r.pulseActive, hp]) h4⟩

theorem faultFree_runTable {us : List Uop} {s : State} (h : FaultFree us s) : (runTable us s).faults = s.faults := by
  induction us generalizing s with
  | nil => rfl
  | cons u us ih =>
    rw [runTable]; split
    · simp
    · exact (ih h.2).trans h.1

theorem calm_snoc {us : List Uop} {u : Uop} {p : Ctrl × Chain} {c : Ctrl} {h : Chain} {ks : List EventKind}
    (hr : CalmRun us p ∧ pinsAfter us p = (c, h) ∧ recordsOf us p = ks) (hu : u.plain = true) (hd : u.dirSafe c)
    (hh : h.react c (c.after u) = h) (hc : Calm (c.after u) h.storage) :
    CalmRun (us ++ [u]) p ∧ pinsAfter (us ++ [u]) p = (c.after u, h) ∧
        recordsOf (us ++ [u]) p = ks ++ c.records u := by
  have := calm_concat hr hu hd (by rw [hh]; exact hc)
  rwa [hh] at this

theorem latch_closed {s s0 : State} (a : Addr) (u : Byte) (hs : s.quietPins) (h0 : s0 = s.accept .latch 0b11#2 a u) :
    CalmRun (latchTable (Bits.ofBitVec a)) (s0.ctrl, s0.chain) ∧
      Ran s0 (steps (latchTable (Bits.ofBitVec a)) s0) (latchEvents a ++ [.rsp .latch none]) ∧
      (steps (latchTable (Bits.ofBitVec a)) s0).ctrl = { s.ctrl with
          phase := .ready, upc := 0, cmdAddr := Bits.ofBitVec a, cmdData := Bits.ofBitVec u, ser := a.getLsbD 0 } ∧
      (steps (latchTable (Bits.ofBitVec a)) s0).chain = ⟨Bits.ofBitVec a, Bits.ofBitVec a⟩ := by
  have hc : Calm s0.ctrl s0.chain.storage := by rw [h0]; exact calm_accept hs .latch 0b11#2 a u
  have h1 : s0.ctrl.sclk = false := by rw [h0]; exact hs.2.1
  have h2 : s0.ctrl.rclk = false := by rw [h0]; exact hs.2.2.1
  have hp : s0.dev.pulseActive = false := by rw [h0]; exact hs.2.2.2.1
  have hl := latchSeq_run a s0.ctrl s0.chain hc h1 h2
  obtain ⟨g1, g2, g3⟩ := calm_snoc (u := .done) hl rfl trivial (react_done _ _)
      ((hc.of_storage (Bits.known_ofBitVec a)).of_levels rfl rfl rfl rfl)
  have e : latchTable (Bits.ofBitVec a) = latchSeq (Bits.ofBitVec a) ++ [Uop.done] := rfl
  rw [e]
  obtain ⟨r, rp⟩ := ran_steps (s := s0) hp g1
  rw [g3] at r
  rw [g2] at rp
  have hph : s0.ctrl.phase = .latch := by rw [h0]; rfl
  refine ⟨g1, ?_, ?_, (Prod.mk.inj rp).2⟩
  · simpa [Ctrl.records, Ctrl.response, hph] using r
  · rw [(Prod.mk.inj rp).1, h0]; rfl

theorem lastSelChange_setOe {s : State} (hp : s.dev.pulseActive = false) (h : s.ctrl.oeN = true)
    (hc : Calm (s.ctrl.after (.setOe .asserted)) s.chain.storage) :
   (ctrlStep (.setOe .asserted) s).dev.lastSelChange = (ctrlStep (.setOe .asserted) s).now := by
  have hk : (advanceUpc (.setOe .asserted) (execUop (.setOe .asserted) s.beginEvent)).chain.react s.ctrl
       (advanceUpc (.setOe .asserted) (execUop (.setOe .asserted)
           s.beginEvent)).ctrl = s.chain := react_of_clocks _ _ _ rfl rfl
  rw [ctrlStep, devReact_calm hp (by rw [hk]; exact hc), noteSelect_lastSelChange, if_pos]
  · simp
  · simp [selectChanged, h, execUop, advanceUpc, State.setOe, Drive.level]

/-- The events of the end of READ. -/
def exitEvents (c : Config) (v : Byte) : List EventKind := (if c.readExitDeassert then [.pin .oeN true,
    .pin .ceN true] else []) ++ [.rsp .read (some (Bits.ofBitVec v))]

theorem readExit_closed {s : State} (v : Byte) (hp : s.dev.pulseActive = false) (hh : s.ctrl.readHold)
    (hk : Bits.known s.chain.storage = true)
   (hph : s.ctrl.phase = .read) (hv : s.ctrl.rdata = Bits.ofBitVec v) :
   CalmRun (readExit s.cfg) (s.ctrl, s.chain) ∧ Ran s (steps (readExit s.cfg) s) (exitEvents s.cfg v) ∧
    (steps (readExit s.cfg) s).ctrl = {s.ctrl with
        phase := .ready, upc := 0, ceN := s.cfg.readExitDeassert, oeN := s.cfg.readExitDeassert } ∧
    (steps (readExit s.cfg) s).chain = s.chain := by
  obtain ⟨g1, g2, g3, g4⟩ := hh
  have hcalm := (calm_readHold ⟨g1, g2, g3, g4⟩ hk).1
  cases hx : s.cfg.readExitDeassert
  · have hr : CalmRun (readExit s.cfg) (s.ctrl, s.chain) := by
      simp only [readExit, hx, Bool.false_eq_true, if_false, CalmRun, react_done]
      exact ⟨rfl, trivial, hcalm.of_levels rfl rfl rfl rfl, trivial⟩
    obtain ⟨r, rp⟩ := ran_steps hp hr
    have hrec : recordsOf (readExit s.cfg) (s.ctrl, s.chain) = exitEvents s.cfg v := by
      simp [readExit, exitEvents, hx, recordsOf, Ctrl.records, hph, Ctrl.response, hv]
    rw [hrec] at r
    have hpin : pinsAfter (readExit s.cfg) (s.ctrl, s.chain) = ({s.ctrl with
        phase := .ready, upc := 0, ceN := false, oeN := false }, s.chain) := by
      simp only [readExit, hx, Bool.false_eq_true, if_false, pinsAfter, react_done]
      simp only [Ctrl.after]
      congr 2
    rw [hpin] at rp
    exact ⟨hr, r, (Prod.mk.inj rp).1, (Prod.mk.inj rp).2⟩
  · have hr : CalmRun (readExit s.cfg) (s.ctrl, s.chain) := by
      simp only [readExit, hx, if_true, CalmRun, react_done, react_setCe, react_setOe]
      refine ⟨rfl, trivial, ?_, rfl, trivial, ?_, rfl, trivial, ?_, trivial⟩
      · refine ⟨?_, ?_, ?_, ?_⟩ <;> simp [Ctrl.after, Ctrl.strobing, Ctrl.devDrives, Ctrl.ce, Ctrl.oe, Ctrl.we,
            Drive.level, g3]
      · exact calm_of_ceN rfl rfl
      · exact calm_of_ceN rfl rfl
    obtain ⟨r, rp⟩ := ran_steps hp hr
    have hrec : recordsOf (readExit s.cfg) (s.ctrl, s.chain) = exitEvents s.cfg v := by
      simp [readExit, exitEvents, hx, recordsOf, Ctrl.records, Ctrl.after, hph, Ctrl.response, hv, Drive.level]
    rw [hrec] at r
    have hpin : pinsAfter (readExit s.cfg) (s.ctrl, s.chain) = ({s.ctrl with
        phase := .ready, upc := 0, ceN := true, oeN := true }, s.chain) := by
      simp only [readExit, hx, if_true, pinsAfter, react_done, react_setCe, react_setOe]
      rfl
    rw [hpin] at rp
    exact ⟨hr, r, (Prod.mk.inj rp).1, (Prod.mk.inj rp).2⟩

theorem faultFree_samples (is : List (Fin 8)) {s : State} (hp : s.dev.pulseActive = false) (hr : s.ctrl.readHold)
    (hk : Bits.known s.chain.storage = true) : FaultFree (is.map Uop.sample) s := by
  induction is generalizing s with
  | nil => trivial
  | cons i is ih =>
    obtain ⟨b, r, c1, c2, c3, -⟩ := sample_run i hp hr hk
    exact ⟨r.faults, ih (by rw [c3]; exact hp) (by rw [c1]; exact hr) (by rw [c2]; exact hk)⟩

theorem read_closed {s s0 t : State} (a : Addr) (u : Byte) (hs : s.quietPins) (h0 : s0 = s.accept .read 0b01#2 a u)
    (ht0 : t = steps (readTable s.cfg (Bits.ofBitVec a)) s0) :
    FaultFree (readTable s.cfg (Bits.ofBitVec a)) s0 ∧
    ∃ (v : Byte) (d : Nat),
      Ran s0 t (defensiveEvents ++ EventKind.dir .input :: latchEvents a ++ [EventKind.pin .ceN false,
          EventKind.pin .oeN false] ++ [.wait s.cfg.tReadAccess d] ++
         linesDown.map (fun i => EventKind.sample i (v.getLsbD i)) ++ exitEvents s.cfg v) ∧
      t.ctrl = { s.ctrl with
          phase := .ready, upc := 0, cmdAddr := Bits.ofBitVec a, cmdData := Bits.ofBitVec u,
          rdata := Bits.ofBitVec v, ceN := s.cfg.readExitDeassert, oeN := s.cfg.readExitDeassert, weN := true,
          dir := Vector.replicate 8 .input, ser := a.getLsbD 0 } ∧
      t.chain = ⟨Bits.ofBitVec a, Bits.ofBitVec a⟩ ∧ s.now + s.cfg.tReadAccess ≤ t.now ∧
      (s.cfg.tAccessDev ≤ s.cfg.tReadAccess → s.deviceFree → s.cfg.reaches a →
          v = Memory.read s.dev.mem (s.cfg.cellOf a)) ∧
      (¬s.cfg.reaches a → ∃ ks : List Nat, linesDown.map (fun i => v.getLsbD i) = ks.map Config.freeBit ∧
          ks.Pairwise (· < ·) ∧ ∀ k ∈ ks, s.draws < k ∧ k < t.draws) ∧
      (∀ k, k ≤ 7 → ∀ x, x = steps ((readTable s.cfg (Bits.ofBitVec a)).take (57 + k)) s0 → x.ctrl.devDrives = true ∧
          s.cfg.tReadAccess ≤ x.now - x.dev.lastSelChange) := by
  have hc : Calm s0.ctrl s0.chain.storage := by rw [h0]; exact calm_accept hs .read 0b01#2 a u
  have hs1 : s0.ctrl.sclk = false := by rw [h0]; exact hs.2.1
  have hs2 : s0.ctrl.rclk = false := by rw [h0]; exact hs.2.2.1
  have hp0 : s0.dev.pulseActive = false := by rw [h0]; exact hs.2.2.2.1
  obtain ⟨a1, a2, a3⟩ := readSetUp_run a s0.ctrl s0.chain hc hs1 hs2
  obtain ⟨r1, p1⟩ := ran_steps (s := s0) hp0 a1
  have ff1 := faultFree_calm (s := s0) hp0 a1
  rw [a2] at p1; rw [a3] at r1
  have hsplit : setUp .input (Bits.ofBitVec a) ++ [Uop.setCe .asserted,
      Uop.setOe .asserted] = (setUp .input (Bits.ofBitVec a) ++ [Uop.setCe .asserted]) ++ [Uop.setOe .asserted] := by
      simp
  have hlsc : (steps (setUp .input (Bits.ofBitVec a) ++ [Uop.setCe .asserted,
      Uop.setOe .asserted]) s0).dev.lastSelChange = (steps (setUp .input (Bits.ofBitVec a) ++ [Uop.setCe .asserted,
      Uop.setOe .asserted]) s0).now := by
    rw [hsplit, steps_append, steps_cons, steps_nil]
    rw [hsplit, calmRun_append] at a1
    obtain ⟨b1, b2⟩ := a1
    obtain ⟨q, qp⟩ := ran_steps (s := s0) hp0 b1
    rw [← qp] at b2
    rw [pinsAfter_append, (setUp_run .input a s0.ctrl s0.chain hc hs1 hs2).2.1] at qp
    have hq := (Prod.mk.inj qp).1
    obtain ⟨-, -, b5, -⟩ := b2
    rw [react_setOe] at b5
    exact lastSelChange_setOe (by rw [q.pulseActive]; exact hp0) (by rw [hq]; rfl) b5
  have ht : t = steps (readExit s.cfg) (steps (linesDown.map Uop.sample) (ctrlStep (.wait s.cfg.tReadAccess)
      (steps (setUp .input (Bits.ofBitVec a) ++ [Uop.setCe .asserted, Uop.setOe .asserted]) s0))) := by
    rw [ht0, readTable_eq, steps_append, steps_append, steps_append, steps_cons, steps_nil]
  have htake : ∀ k, k ≤ 7 → (readTable s.cfg (Bits.ofBitVec a)).take (57 + k) = (setUp .input (Bits.ofBitVec a) ++
      [Uop.setCe .asserted, Uop.setOe .asserted]) ++ ([.wait s.cfg.tReadAccess] ++
      (linesDown.take k).map Uop.sample) := by
    intro k hk
    rw [readTable_eq]
    have e56 : (setUp .input (Bits.ofBitVec a) ++ [Uop.setCe .asserted, Uop.setOe .asserted]).length = 56 := by
        simp [setUp, defensiveReset, latchSeq, latchBit]
    generalize (setUp .input (Bits.ofBitVec a) ++ [Uop.setCe .asserted, Uop.setOe .asserted]) = X at e56
    rw [List.take_append, e56, List.take_of_length_le (by omega), show 57 + k - 56 = k + 1 by omega]
    simp only [List.cons_append, List.nil_append, List.take_succ_cons]
    rw [List.take_append_of_le_length (by simp [linesDown]; omega), ← List.map_take]
  generalize hs1' : steps (setUp .input (Bits.ofBitVec a) ++ [Uop.setCe .asserted, Uop.setOe .asserted]) s0 = s1 at *
  have c1 := (Prod.mk.inj p1).1
  have h1 := (Prod.mk.inj p1).2
  have hp1 : s1.dev.pulseActive = false := by rw [r1.pulseActive]; exact hp0
  have hh1 : s1.ctrl.readHold := by rw [c1]; exact ⟨rfl, rfl, rfl, rfl⟩
  have hk1 : Bits.known s1.chain.storage = true := by rw [h1]; simp
  obtain ⟨d, r2, hd, n2, c2, h2, l2⟩ := wait_run s.cfg.tReadAccess hp1 (calm_readHold hh1 hk1).1
  generalize hs2' : ctrlStep (.wait s.cfg.tReadAccess) s1 = s2 at *
  have hp2 : s2.dev.pulseActive = false := by rw [r2.pulseActive]; exact hp1
  have hh2 : s2.ctrl.readHold := by rw [c2]; exact hh1
  have hk2 : Bits.known s2.chain.storage = true := by rw [h2]; exact hk1
  obtain ⟨bs, b0, r3, c3, h3, d3, g5, g6⟩ := samples_run linesDown hp2 hh2 hk2
  have ff3 := faultFree_samples linesDown hp2 hh2 hk2
  obtain ⟨e1, e2⟩ := shiftIn_eight bs (by rw [b0]; rfl) s2.ctrl.rdata
  rw [e2] at r3
  rw [e1] at c3
  have hcfg2 : s2.cfg = s.cfg := r2.cfg.trans (r1.cfg.trans (by rw [h0]; rfl))
  generalize hs3' : steps (linesDown.map Uop.sample) s2 = s3 at *
  have hcfg3 : s3.cfg = s.cfg := r3.cfg.trans hcfg2
  have hx := readExit_closed (s := s3) (byteOf bs) (by rw [d3]; exact hp2) (by rw [c3]; exact hh2)
      (by rw [h3]; exact hk2) (by rw [c3, c2, c1, h0]; rfl) (by rw [c3])
  rw [hcfg3] at hx
  obtain ⟨x1, r4, c4, h4⟩ := hx
  rw [ht]
  have hst2 : s2.chain.storage = Bits.ofBitVec a := by rw [h2, h1]
  have hmem2 : s2.dev.mem = s.dev.mem := by rw [r2.mem, r1.mem, h0]; rfl
  have hbus2 : s2.dev.busyUntil = s.dev.busyUntil := by rw [r2.dev, r1.dev, h0]; rfl
  have n0 : s.now ≤ s0.now := by rw [h0]; exact Nat.le_add_right _ _
  refine ⟨?_, byteOf bs, d, ?_, ?_, ?_, ?_, ?_, ?_, ?_⟩
  · rw [readTable_eq]
    refine faultFree_append.mpr ⟨ff1, faultFree_append.mpr ⟨⟨?_, trivial⟩, faultFree_append.mpr ?_⟩⟩
    · rw [hs1', hs2']; exact r2.faults
    · rw [hs1', steps_cons, steps_nil, hs2', hs3']
      exact ⟨ff3, faultFree_calm (by rw [d3]; exact hp2) x1⟩
  · exact (((r1.trans r2).trans r3).trans r4)
  · rw [c4, c3, c2, c1, h0]; rfl
  · rw [h4, h3, h2, h1]
  · have := r1.now_le; have := r3.now_le; have := r4.now_le; omega
  · intro ha hf hr
    have hrc := reachedCell?_of_reaches hr
    have := r1.now_le
    have hf' : s.dev.busyUntil ≤ s.now := hf
    have := g5 (s.cfg.cellOf a) (by rw [hbus2]; omega) (by rw [hcfg2, l2, hlsc]; omega)
        (by rw [hcfg2, hst2]; exact hrc)
    rw [this, byteOf_lines, hmem2]
  · intro hr
    have hrc := reachedCell?_of_not_reaches hr
    obtain ⟨ks, k1, k2, k3⟩ := g6 (by rw [hcfg2, hst2]; exact hrc)
    refine ⟨ks, ?_, k2, ?_⟩
    · rw [← k1, lines_byteOf bs (by rw [b0]; rfl)]
    · intro k hk
      obtain ⟨h1, h1'⟩ := k3 k hk
      have h2 := steps_draws_le (setUp .input (Bits.ofBitVec a) ++ [Uop.setCe .asserted, Uop.setOe .asserted]) s0
      rw [hs1'] at h2
      have h3 := ctrlStep_draws_lt (.wait s.cfg.tReadAccess) s1
      rw [hs2'] at h3
      have h4 : s.draws < s0.draws := by rw [h0]; exact Nat.lt_succ_self _
      have h5 := steps_draws_le (readExit s.cfg) s3
      omega
  · intro k hk x hx
    rw [htake k hk, steps_append, hs1', steps_append, steps_cons, steps_nil, hs2'] at hx
    obtain ⟨bs', -, q1, q2, q3, q4, -⟩ := samples_run (linesDown.take k) hp2 hh2 hk2
    rw [← hx] at q1 q2 q3 q4
    refine ⟨?_, ?_⟩
    · rw [q2]; exact (calm_readHold hh2 hk2).2
    · rw [q4, l2, hlsc]; have := q1.now_le; omega

theorem pulseEnd_calm (s : State) : s.pulseEnd.dev.pulseActive = false := by rw [pulseEnd_dev]

theorem write_closed {s s0 t : State} (a : Addr) (d : Byte) (hs : s.quietPins) (h0 : s0 = s.accept .write 0b10#2 a d)
    (ht0 : t = steps (writeTable s.cfg (Bits.ofBitVec a)) s0) :
    FaultFree (writeTable s.cfg (Bits.ofBitVec a)) s0 ∧
    ∃ (s1 w : State) (b e dw dr : Nat) (k : EventKind),
      -- before the pulse
      s1 = steps ((writeTable s.cfg (Bits.ofBitVec a)).take 63) s0 ∧
      Ran s0 s1 (defensiveEvents ++ EventKind.dir .output :: latchEvents a ++
          linesDown.map (fun i => EventKind.dout i (some (d.getLsbD i))) ++ [EventKind.pin .ceN false]) ∧
      Pulsing s1 w b [.pin .weN false, .wait s.cfg.tStrobe dw, .pin .weN true] ∧ b + s.cfg.tStrobe ≤ w.now ∧
      s1.chain.storage = Bits.ofBitVec a ∧ s1.ctrl.drivenData = Bits.ofBitVec d ∧
      w.trace = s1.trace ++ [⟨.pin .weN false, b⟩, ⟨.wait s.cfg.tStrobe dw, e⟩, ⟨.pin .weN true, w.now⟩] ∧
      k.inPinSequence = false ∧ k.byDevice = true ∧ w.pulseStore.trace = w.trace ++ [⟨k, w.now⟩] ∧
      steps ((writeTable s.cfg (Bits.ofBitVec a)).take 66) s0 = w.pulseEnd ∧
      Ran w.pulseEnd t [.pin .ceN true, .wait s.cfg.tRecovery dr, .rsp .write none] ∧
      w.now + s.cfg.tRecovery ≤ t.now ∧
      t.trace.getLast? = some ⟨.rsp .write none, t.now⟩ ∧
      t.ctrl = { s.ctrl with
          phase := .ready, upc := 0, cmdAddr := Bits.ofBitVec a, cmdData := Bits.ofBitVec d, ceN := true,
          oeN := true, weN := true, dir := Vector.replicate 8 .output, dout := Bits.ofBitVec d, ser := a.getLsbD 0 } ∧
      t.chain = ⟨Bits.ofBitVec a, Bits.ofBitVec a⟩ ∧ s.draws < w.draws ∧ w.pulseEnd.draws ≤ t.draws := by
  have hc : Calm s0.ctrl s0.chain.storage := by rw [h0]; exact calm_accept hs .write 0b10#2 a d
  have hs1 : s0.ctrl.sclk = false := by rw [h0]; exact hs.2.1
  have hs2 : s0.ctrl.rclk = false := by rw [h0]; exact hs.2.2.1
  have hp0 : s0.dev.pulseActive = false := by rw [h0]; exact hs.2.2.2.1
  have hd0 : s0.ctrl.cmdData = Bits.ofBitVec d := by rw [h0]; rfl
  obtain ⟨a1, a2, a3⟩ := writeSetUp_run a d s0.ctrl s0.chain hd0 hc hs1 hs2
  obtain ⟨r1, p1⟩ := ran_steps (s := s0) hp0 a1
  have hdr1 : s.draws < (steps (setUp .output (Bits.ofBitVec a) ++ linesDown.map Uop.setDout ++
      [Uop.setCe .asserted]) s0).draws :=
    Nat.lt_of_lt_of_le (by rw [h0]; exact Nat.lt_succ_self _) (steps_draws_le _ _)
  have ff1 := faultFree_calm (s := s0) hp0 a1
  rw [a2] at p1; rw [a3] at r1
  have e63 : (setUp .output (Bits.ofBitVec a) ++ linesDown.map Uop.setDout ++
      [Uop.setCe .asserted]).length = 63 := by simp [setUp, defensiveReset, latchSeq, latchBit, linesDown]
  have htake63 : (writeTable s.cfg (Bits.ofBitVec a)).take 63 = (setUp .output (Bits.ofBitVec a) ++
      linesDown.map Uop.setDout ++ [Uop.setCe .asserted]) := by
    rw [writeTable_eq, List.take_append_of_le_length (by rw [e63]), ← e63, List.take_length]
  have htake66 : (writeTable s.cfg (Bits.ofBitVec a)).take 66 = (setUp .output (Bits.ofBitVec a) ++
      linesDown.map Uop.setDout ++ [Uop.setCe .asserted]) ++ [Uop.setWe .asserted, Uop.wait s.cfg.tStrobe,
      Uop.setWe .deasserted] := by
    rw [writeTable_eq, List.take_append, e63, List.take_of_length_le (by rw [e63]; omega)]
    rfl
  rw [htake63, htake66, steps_append (setUp .output (Bits.ofBitVec a) ++ linesDown.map Uop.setDout ++
      [Uop.setCe .asserted]) [Uop.setWe .asserted, Uop.wait s.cfg.tStrobe, Uop.setWe .deasserted]]
  rw [writeTable_eq, steps_append, steps_append, steps_append, steps_append] at ht0
  rw [writeTable_eq]
  have ff : ∀ vs, FaultFree vs (steps (setUp .output (Bits.ofBitVec a) ++ linesDown.map Uop.setDout ++
      [Uop.setCe .asserted]) s0) → FaultFree ((setUp .output (Bits.ofBitVec a) ++ linesDown.map Uop.setDout ++
      [Uop.setCe .asserted]) ++ vs) s0 :=
    fun vs h => faultFree_append.mpr ⟨ff1, h⟩
  generalize steps (setUp .output (Bits.ofBitVec a) ++ linesDown.map Uop.setDout ++
      [Uop.setCe .asserted]) s0 = s1 at *
  have c1 := (Prod.mk.inj p1).1
  have h1 := (Prod.mk.inj p1).2
  have hp1 : s1.dev.pulseActive = false := by rw [r1.pulseActive]; exact hp0
  have hk1 : Bits.known s1.chain.storage = true := by rw [h1]; simp
  obtain ⟨w, b, dw, e, hw, pw, n1, hdw, tw, cw⟩ := pulse_run s.cfg.tStrobe hp1 (by rw [c1]) (by rw [c1]) hk1
  obtain ⟨k, k1, k2, k3⟩ := pulseStore_trace w
  -- fault free in the pulse
  have ff2 : FaultFree [Uop.setWe .asserted, Uop.wait s.cfg.tStrobe, Uop.setWe .deasserted] s1 := by
    obtain ⟨b', q1, -, -, cc1⟩ := pulse_start hp1 (by rw [c1]) (by rw [c1]) hk1
    obtain ⟨d', q2, -, -, -, cc2⟩ := pulse_wait s.cfg.tStrobe q1 (by rw [cc1, c1]) (by rw [cc1, c1]) (by rw [cc1]) hk1
    obtain ⟨w', hw', q3, -, -, cc3⟩ := pulse_end q2 (by rw [cc2, cc1, c1]) hk1
    refine ⟨q1.faults, q2.faults.trans q1.faults.symm, ?_, trivial⟩
    rw [hw', State.pulseEnd_faults]
    exact q3.faults.trans q2.faults.symm
  rw [hw] at ht0 ⊢
  -- after the pulse
  have hp2 := pulseEnd_calm w
  have hcw : w.pulseEnd.ctrl = { s1.ctrl with weN := true, upc := s1.ctrl.upc + 3 } := by rw [State.pulseEnd_ctrl, cw]
  have hchw : w.pulseEnd.chain = s1.chain := by rw [State.pulseEnd_chain, pw.chain]
  have hcfw : w.pulseEnd.cfg = s.cfg := by rw [State.pulseEnd_cfg, pw.cfg, r1.cfg, h0]; rfl
  have hoe : s1.ctrl.oeN = true := by rw [c1]
  obtain ⟨r3, c3, h3⟩ := ran_plain (u := .setCe .deasserted) (s := w.pulseEnd)
      rfl hp2 trivial (by rw [react_setCe]; exact calm_of_ceN rfl (by show w.pulseEnd.ctrl.oeN = true; rw [hcw]; exact hoe))
  rw [react_setCe] at h3
  rw [show steps [Uop.setCe Drive.deasserted] w.pulseEnd = ctrlStep (Uop.setCe Drive.deasserted)
      w.pulseEnd from rfl] at ht0
  generalize hs3 : ctrlStep (Uop.setCe Drive.deasserted) w.pulseEnd = s3 at *
  have hp3 : s3.dev.pulseActive = false := by rw [r3.pulseActive, hp2]
  have hcalm3 : Calm s3.ctrl s3.chain.storage := by
      rw [c3]; exact calm_of_ceN rfl (by show w.pulseEnd.ctrl.oeN = true; rw [hcw]; exact hoe)
  obtain ⟨dr, r4, hdr, n4, c4, h4, -⟩ := wait_run s.cfg.tRecovery hp3 hcalm3
  rw [show steps [Uop.wait s.cfg.tRecovery] s3 = ctrlStep (Uop.wait s.cfg.tRecovery) s3 from rfl] at ht0
  generalize hs4 : ctrlStep (Uop.wait s.cfg.tRecovery) s3 = s4 at *
  have hp4 : s4.dev.pulseActive = false := by rw [r4.pulseActive, hp3]
  have hcalm4 : Calm s4.ctrl s4.chain.storage := by rw [h4, c4]; exact hcalm3.of_levels rfl rfl rfl rfl
  obtain ⟨r5, c5, h5⟩ := ran_plain (u := .done) (s := s4)
      rfl hp4 trivial (by rw [react_done]; exact hcalm4.of_levels rfl rfl rfl rfl)
  rw [react_done] at h5
  rw [show steps [Uop.done] s4 = ctrlStep Uop.done s4 from rfl] at ht0
  rw [← ht0] at r5 c5 h5
  have hph : s4.ctrl.phase = .write := by rw [c4, c3, Ctrl.after, hcw, c1, h0]; rfl
  have hrec : s4.ctrl.records .done = [.rsp .write none] := by simp [Ctrl.records, hph, Ctrl.response]
  rw [hrec] at r5
  have hmain : t.ctrl = { s.ctrl with
      phase := .ready, upc := 0, cmdAddr := Bits.ofBitVec a, cmdData := Bits.ofBitVec d, ceN := true, oeN := true,
      weN := true, dir := Vector.replicate 8 .output, dout := Bits.ofBitVec d, ser := a.getLsbD 0 } := by
    rw [c5, c4, c3, hcw, c1, h0]; rfl
  refine ⟨?_, s1, w, b, e, dw, dr, k, rfl, r1, pw, n1, ?_, ?_, tw, k1, k2, k3, rfl, ?_, ?_, ?_, hmain, ?_⟩
  · apply ff
    refine faultFree_append.mpr ⟨ff2, ?_⟩
    rw [hw]
    refine ⟨?_, ?_⟩
    · rw [hs3]; exact r3.faults
    · show FaultFree (_ ++ _) _
      rw [hs3]
      refine ⟨by rw [hs4]; exact r4.faults, ?_⟩
      show FaultFree [Uop.done] _
      rw [hs4]
      exact ⟨by rw [← ht0]; exact r5.faults, trivial⟩
  · rw [h1]
  · rw [drivenData_output (by rw [c1]; rfl), c1]
  · exact (r3.trans r4).trans r5
  · have := r3.now_le; have := r5.now_le
    have e2 : w.pulseEnd.now = w.now := by simp
    omega
  · obtain ⟨evs, q1, q2, -⟩ := r5.trace
    obtain ⟨ev, rfl, hk⟩ := List.map_eq_singleton_iff.mp q2
    obtain ⟨fs, f1, f2⟩ := ctrlStep_trace .done s4
    rw [← ht0] at f1 f2
    have hfs : fs = [ev] := List.append_cancel_left (f1.symm.trans q1)
    have htm := (f2 ev (by rw [hfs]; simp)).2
    rw [q1]
    cases ev
    simp_all
  · refine ⟨by rw [h5, h4, h3, hchw, h1], Nat.lt_trans hdr1 pw.draws, ?_⟩
    have q3 := ctrlStep_draws_lt (Uop.setCe Drive.deasserted) w.pulseEnd
    have q4 := ctrlStep_draws_lt (Uop.wait s.cfg.tRecovery) s3
    have q5 := ctrlStep_draws_lt Uop.done s4
    rw [hs3] at q3
    rw [hs4] at q4
    rw [← ht0] at q5
    omega

theorem newEvents_eq {s t : State} {evs : List Event} (h : t.trace = s.trace ++ evs) : s.newEvents t = evs := by
  simp [State.newEvents, h]

theorem exec_eq_steps (i : Instr) (s : State) (h : s.rst = [])
    : exec i s = .next (steps (table s.cfg (Bits.ofBitVec i.addr) i.phase) (s.accept i.phase i.op i.addr i.data))
    := by
  rw [exec_next, runCommand_of_no_reset h]

theorem latchEvents_filter (a : Addr) : (latchEvents a).filter EventKind.inPinSequence = latchEvents a := by
  rw [List.filter_eq_self]
  intro k hk
  simp only [latchEvents, List.mem_append, List.mem_flatMap] at hk
  rcases hk with ⟨m, -, hk⟩ | hk
  · simp at hk; rcases hk with rfl | rfl | rfl <;> rfl
  · simp at hk; rcases hk with rfl | rfl <;> rfl

theorem latchEvents_length (a : Addr) : (latchEvents a).length = 50 := by
  simp [latchEvents]

theorem steps_rst_nil (us : List Uop) (s : State) (h : s.rst = []) : (steps us s).rst = [] := by
  induction us generalizing s with
  | nil => exact h
  | cons u us ih => exact ih _ (by simp [h])

/-- What LATCH leaves, from a state between commands. -/
structure LatchBetween (s t : State) (a : Addr) (u : Byte) : Prop where
  ran : Ran s t (.accept 0b11#2 a u :: (latchEvents a ++ [.rsp .latch none]))
  ctrl : t.ctrl = { s.ctrl with
      phase := .ready, upc := 0, cmdAddr := Bits.ofBitVec a, cmdData := Bits.ofBitVec u, ser := a.getLsbD 0 }
  chain : t.chain = ⟨Bits.ofBitVec a, Bits.ofBitVec a⟩
  rst : t.rst = []
  rest : t.atRest

theorem latch_between {s : State} (a : Addr) (u : Byte) (hs : s.atRest) (hr : s.rst = []) :
    ∃ t, exec (.latch a u) s = .next t ∧ LatchBetween s t a u := by
  refine ⟨_, exec_eq_steps (.latch a u) s hr, ?_⟩
  have h := latch_closed (s := s) (s0 := s.accept .latch 0b11#2 a u) a u hs.2.2 rfl
  have e : steps (table s.cfg (Bits.ofBitVec (Instr.latch a u).addr) (Instr.latch a u).phase)
      (State.accept (Instr.latch a u).phase (Instr.latch a u).op (Instr.latch a u).addr (Instr.latch a u).data s)
      = steps (latchTable (Bits.ofBitVec a)) (s.accept .latch 0b11#2 a u) := rfl
  rw [e]
  have hrs : (steps (latchTable (Bits.ofBitVec a))
      (s.accept .latch 0b11#2 a u)).rst = [] := steps_rst_nil _ _ (by simp [hr])
  generalize steps (latchTable (Bits.ofBitVec a)) (s.accept .latch 0b11#2 a u) = t at *
  obtain ⟨-, r, c, ch⟩ := h
  refine ⟨(accept_ran _ _ _ _ _).trans r, c, ch, hrs, ?_⟩
  refine ⟨by rw [c], by rw [c], ?_⟩
  obtain ⟨q1, q2, q3, q4, q5⟩ := hs.2.2
  refine ⟨by rw [c]; exact q1, by rw [c]; exact q2, by rw [c]; exact q3, ?_, ?_⟩
  · rw [r.pulseActive]; exact q4
  · intro hd
    rw [c] at hd ⊢
    rw [ch]
    exact ⟨(q5 hd).1, by simp⟩

/-- What READ leaves, from a state between commands: the answered byte is `v`. -/
structure ReadBetween (s t : State) (a : Addr) (u v : Byte) : Prop where
  ran : ∃ d, Ran s t (.accept 0b01#2 a u :: (defensiveEvents ++ EventKind.dir .input :: latchEvents a ++
      [EventKind.pin .ceN false, EventKind.pin .oeN false] ++ [.wait s.cfg.tReadAccess d] ++
         linesDown.map (fun i => EventKind.sample i (v.getLsbD i)) ++ exitEvents s.cfg v))
  ctrl : t.ctrl = { s.ctrl with
      phase := .ready, upc := 0, cmdAddr := Bits.ofBitVec a, cmdData := Bits.ofBitVec u, rdata := Bits.ofBitVec v,
      ceN := s.cfg.readExitDeassert, oeN := s.cfg.readExitDeassert, weN := true, dir := Vector.replicate 8 .input,
      ser := a.getLsbD 0 }
  chain : t.chain = ⟨Bits.ofBitVec a, Bits.ofBitVec a⟩
  rst : t.rst = []
  rest : t.atRest
  time : s.now + s.cfg.tReadAccess ≤ t.now
  good : s.cfg.tAccessDev ≤ s.cfg.tReadAccess → s.deviceFree → s.cfg.reaches a →
      v = Memory.read s.dev.mem (s.cfg.cellOf a)
  bad : ¬s.cfg.reaches a → ∃ ks : List Nat, linesDown.map (fun i => v.getLsbD i) = ks.map Config.freeBit ∧
      ks.Pairwise (· < ·) ∧ ∀ k ∈ ks, s.draws < k ∧ k < t.draws

theorem read_between {s : State} (a : Addr) (u : Byte) (hs : s.atRest) (hr : s.rst = []) :
    ∃ t v, exec (.read a u) s = .next t ∧ ReadBetween s t a u v := by
  obtain ⟨-, v, d, r, c, ch, tm, g, b, -⟩ := read_closed (s := s) (s0 := s.accept .read 0b01#2 a u) a u hs.2.2 rfl rfl
  refine ⟨_, v, exec_eq_steps (.read a u) s hr, ?_⟩
  have e : steps (table s.cfg (Bits.ofBitVec (Instr.read a u).addr) (Instr.read a u).phase)
      (State.accept (Instr.read a u).phase (Instr.read a u).op (Instr.read a u).addr (Instr.read a u).data s)
      = steps (readTable s.cfg (Bits.ofBitVec a)) (s.accept .read 0b01#2 a u) := rfl
  rw [e]
  have hrs : (steps (readTable s.cfg (Bits.ofBitVec a))
      (s.accept .read 0b01#2 a u)).rst = [] := steps_rst_nil _ _ (by simp [hr])
  generalize steps (readTable s.cfg (Bits.ofBitVec a)) (s.accept .read 0b01#2 a u) = t at *
  obtain ⟨q1, q2, q3, q4, q5⟩ := hs.2.2
  refine ⟨⟨d, (accept_ran _ _ _ _ _).trans r⟩,
      c, ch, hrs, ⟨by rw [c], by rw [c], by rw [c], by rw [c]; exact q2, by rw [c]; exact q3, ?_, ?_⟩, tm, g, ?_⟩
  · rw [r.pulseActive]; exact q4
  · intro _; rw [c, ch]; exact ⟨rfl, by simp⟩
  · intro hb
    obtain ⟨ks, k1, k2, k3⟩ := b hb
    exact ⟨ks, k1, k2, k3⟩

theorem readEvents_eq (c : Config) (a : Addr) (u v : Byte) (n d : Nat) :
  List.filter EventKind.inPinSequence (.accept 0b01#2 a u :: (defensiveEvents ++
      EventKind.dir .input :: latchEvents a ++ [EventKind.pin .ceN false, EventKind.pin .oeN false] ++ [.wait n d] ++
         linesDown.map (fun i => EventKind.sample i (v.getLsbD i)) ++
             exitEvents c v)) = readEvents c.readExitDeassert a u v := by
  rw [List.filter_cons_of_pos rfl]
  simp only [List.filter_append, List.filter_cons, latchEvents_filter, readEvents, exitEvents]
  cases c.readExitDeassert <;> simp [List.filter_cons, defensiveEvents, EventKind.inPinSequence, linesDown]

theorem ReadBetween.free {s t : State} {a u v} (r : ReadBetween s t a u v) (h : s.deviceFree) : t.deviceFree := by
  obtain ⟨d, ran⟩ := r.ran
  show t.dev.busyUntil ≤ t.now
  rw [ran.dev]; have := ran.now_le; have : s.dev.busyUntil ≤ s.now := h; simp only; omega

theorem write_between {s : State} (a : Addr) (d : Byte) (hs : s.atRest) (hr : s.rst = []) :
   ∃ (t w : State) (b : Nat) (evs1 : List Event) (k : EventKind) (dw x dr y z : Nat), exec (.write a d) s = .next t ∧
     t.trace = s.trace ++ evs1 ++ [⟨.pin .weN false, b⟩, ⟨.wait s.cfg.tStrobe dw, x⟩, ⟨.pin .weN true, w.now⟩,
         ⟨k, w.now⟩, ⟨.pin .ceN true, y⟩, ⟨.wait s.cfg.tRecovery dr, z⟩, ⟨.rsp .write none, t.now⟩] ∧
     evs1.map Event.kind = (.accept 0b10#2 a d :: (defensiveEvents ++ EventKind.dir .output :: latchEvents a ++
          linesDown.map (fun i => EventKind.dout i (some (d.getLsbD i))) ++ [EventKind.pin .ceN false])) ∧
     k.inPinSequence = false ∧ k.byDevice = true ∧ s.now ≤ b ∧ b + s.cfg.tStrobe ≤ w.now ∧
         w.now + s.cfg.tRecovery ≤ t.now ∧
     w.pulseStore.trace = w.trace ++ [⟨k, w.now⟩] ∧ s.draws < w.draws ∧ w.pulseEnd.draws ≤ t.draws ∧
     w.cfg = s.cfg ∧ t.cfg = s.cfg ∧ t.faults = s.faults ∧ t.refused = s.refused ∧ t.host = s.host ∧ t.rst = [] ∧
         t.atRest ∧
     w.dev = { s.dev with
         pulseActive := true, pulseStart := some b, pulseAddr := Bits.ofBitVec a, pulseData := Bits.ofBitVec d,
         pulseBusyAtStart := some (decide (b < s.dev.busyUntil)), pulseUnstable := false,
         lastSelChange := w.dev.lastSelChange } ∧
     t.dev = { w.pulseEnd.dev with lastSelChange := t.dev.lastSelChange } := by
  obtain ⟨-, s1, w, b, e, dw, dr, k, -, r1, pw, n1, hst, hdd, tw, k1, k2, k3, -, r3, n3, hlast, hc, hch, hdraw1,
      hdraw⟩ := write_closed (s := s) (s0 := s.accept .write 0b10#2 a d) a d hs.2.2 rfl rfl
  have hrs : (steps (writeTable s.cfg (Bits.ofBitVec a))
      (s.accept .write 0b10#2 a d)).rst = [] := steps_rst_nil _ _ (by simp [hr])
  have hex : exec (.write a d) s = .next (steps (writeTable s.cfg (Bits.ofBitVec a)) (s.accept .write 0b10#2 a d))
      := exec_eq_steps (.write a d) s hr
  generalize steps (writeTable s.cfg (Bits.ofBitVec a)) (s.accept .write 0b10#2 a d) = t at *
  have R1 := (accept_ran .write 0b10#2 a d s).trans r1
  obtain ⟨evs1, q1, q2, q3⟩ := R1.trace
  obtain ⟨evs3, u1, u2, u3⟩ := r3.trace
  match evs3, u2 with
  | [⟨e1, t1⟩, ⟨e2, t2⟩, ⟨e3, t3⟩], u2 =>
    simp at u2
    obtain ⟨rfl, rfl, rfl⟩ := u2
    have ht3 : t3 = t.now := by rw [u1] at hlast; simpa using hlast
    subst ht3
    obtain ⟨g1, g2, g3, g4, g5⟩ := hs.2.2
    have hcfg : w.cfg = s.cfg := pw.cfg.trans R1.cfg
    refine ⟨t, w, b, evs1, k, dw, e, dr, t1, t2, hex, ?_, q2, k1, k2, R1.now_le.trans pw.begin_le, n1, n3, k3,
        hdraw1, hdraw, hcfg, ?_, ?_, ?_, ?_, hrs, ?_, ?_, ?_⟩
    · rw [u1, pulseEnd_trace, k3, tw, q1]; simp
    · rw [r3.cfg]; simp [hcfg]
    · rw [r3.faults]; simp [pw.faults, R1.faults]
    · rw [r3.refused]; simp [pw.refused, R1.refused]
    · rw [r3.host]; simp [pw.host, R1.host]
    · refine ⟨by rw [hc], by rw [hc], by rw [hc], by rw [hc]; exact g2, by rw [hc]; exact g3, ?_, ?_⟩
      · rw [r3.pulseActive, pulseEnd_calm]
      · rw [State.drivenSafely, hc]; simp [Ctrl.devDrives, Ctrl.ce]
    · rw [pw.dev]; simp only [State.pulsing, hst, hdd]; rw [R1.dev]
    · exact r3.dev

/-- What WRITE leaves, from a state between commands: `w` is the state at the end of its pulse,
which began at `b`. -/
structure WriteBetween (s t w : State) (a : Addr) (d : Byte) (b : Nat) (evs1 : List Event) (k : EventKind)
    (dw x dr y z : Nat) : Prop where
  run : exec (.write a d) s = .next t
  trace : t.trace = s.trace ++ evs1 ++ [⟨.pin .weN false, b⟩, ⟨.wait s.cfg.tStrobe dw, x⟩, ⟨.pin .weN true, w.now⟩,
      ⟨k, w.now⟩, ⟨.pin .ceN true, y⟩, ⟨.wait s.cfg.tRecovery dr, z⟩, ⟨.rsp .write none, t.now⟩]
  kinds : evs1.map Event.kind = (.accept 0b10#2 a d :: (defensiveEvents ++ EventKind.dir .output :: latchEvents a ++
          linesDown.map (fun i => EventKind.dout i (some (d.getLsbD i))) ++ [EventKind.pin .ceN false]))
  notPin : k.inPinSequence = false
  dev' : k.byDevice = true
  beg : s.now ≤ b
  strobe : b + s.cfg.tStrobe ≤ w.now
  recov : w.now + s.cfg.tRecovery ≤ t.now
  store : w.pulseStore.trace = w.trace ++ [⟨k, w.now⟩]
  dr1 : s.draws < w.draws
  dr2 : w.pulseEnd.draws ≤ t.draws
  wcfg : w.cfg = s.cfg
  cfg : t.cfg = s.cfg
  faults : t.faults = s.faults
  refused : t.refused = s.refused
  host : t.host = s.host
  rst : t.rst = []
  rest : t.atRest
  wdev : w.dev = { s.dev with
      pulseActive := true, pulseStart := some b, pulseAddr := Bits.ofBitVec a, pulseData := Bits.ofBitVec d,
      pulseBusyAtStart := some (decide (b < s.dev.busyUntil)), pulseUnstable := false,
      lastSelChange := w.dev.lastSelChange }
  dev : t.dev = { w.pulseEnd.dev with lastSelChange := t.dev.lastSelChange }
  storage : t.chain.storage = Bits.ofBitVec a

theorem write_between' {s : State} (a : Addr) (d : Byte) (hs : s.atRest) (hr : s.rst = []) :
    ∃ t w b evs1 k dw x dr y z, WriteBetween s t w a d b evs1 k dw x dr y z := by
  obtain ⟨t, w, b, evs1, k, dw, x, dr, y, z, h1, h2, h3, h4, h5, h6, h7, h8, h9, h10, h11, h12, h13, h14, h15, h16,
      h17, h18, h19, h20⟩ := write_between a d hs hr
  refine ⟨t, w, b, evs1, k, dw, x, dr, y, z, h1, h2, h3, h4, h5, h6, h7, h8, h9, h10, h11, h12, h13, h14, h15, h16,
      h17, h18, h19, h20, ?_⟩
  obtain ⟨-, s1, w, b, e, dw, dr, k, -, r1, pw, n1, hst, hdd, tw, k1, k2, k3, -, r3, n3, hlast, hc, hch,
      -⟩ := write_closed (s := s) (s0 := s.accept .write 0b10#2 a d) a d hs.2.2 rfl rfl
  have hex : exec (.write a d) s = .next (steps (writeTable s.cfg (Bits.ofBitVec a)) (s.accept .write 0b10#2 a d))
      := exec_eq_steps (.write a d) s hr
  generalize steps (writeTable s.cfg (Bits.ofBitVec a)) (s.accept .write 0b10#2 a d) = t' at *
  have := h1.symm.trans hex
  injection this with this
  rw [this, hch]

variable {s t w : State} {a : Addr} {d : Byte} {b : Nat} {evs1 : List Event} {k : EventKind} {dw x dr y z : Nat}

theorem WriteBetween.busyFlag (h : WriteBetween s t w a d b evs1 k dw x dr y z) (hf : s.deviceFree)
    : w.dev.pulseBusyAtStart = some false := by
  rw [h.wdev]; simp; have := h.beg; have : s.dev.busyUntil ≤ s.now := hf; omega

theorem WriteBetween.addr (h : WriteBetween s t w a d b evs1 k dw x dr y z) : w.dev.pulseAddr = Bits.ofBitVec a := by
    rw [h.wdev]

theorem WriteBetween.stable (h : WriteBetween s t w a d b evs1 k dw x dr y z) : w.dev.pulseUnstable = false := by
    rw [h.wdev]

theorem WriteBetween.pstart (h : WriteBetween s t w a d b evs1 k dw x dr y z) : w.dev.pulseStart = some b := by
    rw [h.wdev]

theorem WriteBetween.data (h : WriteBetween s t w a d b evs1 k dw x dr y z) : w.dev.pulseData = Bits.ofBitVec d := by
    rw [h.wdev]

theorem WriteBetween.wmem (h : WriteBetween s t w a d b evs1 k dw x dr y z) : w.dev.mem = s.dev.mem := by rw [h.wdev]

theorem WriteBetween.tmem (h : WriteBetween s t w a d b evs1 k dw x dr y z) : t.dev.mem = w.pulseStore.dev.mem := by
    rw [h.dev, pulseEnd_dev]

theorem WriteBetween.reached (h : WriteBetween s t w a d b evs1 k dw x dr y z) (hr : s.cfg.reaches a)
    : reachedCell? w.cfg w.dev.pulseAddr = some (s.cfg.cellOf a) := by
  rw [h.addr, h.wcfg]; exact reachedCell?_of_reaches hr

theorem WriteBetween.commit (h : WriteBetween s t w a d b evs1 k dw x dr y z) (hf : s.deviceFree)
    (hr : s.cfg.reaches a) (hw : s.cfg.tWpDev ≤ s.cfg.tStrobe) :
    w.pulseStore = w.commit (s.cfg.cellOf a) d :=
  pulseStore_commit (h.busyFlag hf) (h.reached hr) h.stable h.pstart h.data (by rw [h.wcfg]; have := h.strobe; omega)

theorem WriteBetween.pins (h : WriteBetween s t w a d b evs1 k dw x dr y z)
    : pinSequence t.trace = pinSequence s.trace ++ writeEvents a d := by
  rw [h.trace]
  simp only [pinSequence, List.map_append, List.filter_append, h.kinds, List.append_assoc]
  congr 1
  rw [List.filter_cons_of_pos rfl]
  simp only [List.filter_append, List.filter_cons, latchEvents_filter, writeEvents, h.notPin, List.map_cons,
      List.map_nil, defensiveEvents, linesDown, List.filter_nil]
  simp [EventKind.inPinSequence]

theorem WriteBetween.len (h : WriteBetween s t w a d b evs1 k dw x dr y z) : evs1.length = 64 := by
  rw [← List.length_map (f := Event.kind), h.kinds]
  simp [defensiveEvents, latchEvents_length, linesDown]

theorem WriteBetween.new (h : WriteBetween s t w a d b evs1 k dw x dr y z) : s.newEvents t = evs1 ++
    [⟨.pin .weN false, b⟩, ⟨.wait s.cfg.tStrobe dw, x⟩, ⟨.pin .weN true, w.now⟩, ⟨k, w.now⟩, ⟨.pin .ceN true, y⟩,
    ⟨.wait s.cfg.tRecovery dr, z⟩, ⟨.rsp .write none, t.now⟩] :=
  newEvents_eq (by rw [h.trace, List.append_assoc])

theorem WriteBetween.inv (h : WriteBetween s t w a d b evs1 k dw x dr y z) (hm : s.memInv) : w.memInv := by
  unfold State.memInv; rw [h.wmem, h.wcfg]; exact hm

theorem WriteBetween.tinv (h : WriteBetween s t w a d b evs1 k dw x dr y z) (hm : s.memInv) : t.memInv := by
  have := memInv_pulseStore (h.inv hm)
  unfold State.memInv at *; rw [h.tmem, h.cfg]; rw [State.pulseStore_cfg, h.wcfg] at this; exact this

theorem WriteBetween.other (h : WriteBetween s t w a d b evs1 k dw x dr y z) (hm : s.memInv) (hf : s.deviceFree)
    (hr : s.cfg.reaches a) (x : Nat) (hx : x ≠ s.cfg.cellOf a) :
    Memory.read t.dev.mem x = Memory.read s.dev.mem x := by
  have hwf : Memory.wf w.dev.mem = true := (h.inv hm).1
  rw [h.tmem]
  by_cases hl : w.now - b < w.cfg.tWpDev
  · rw [pulseStore_short (h.busyFlag hf) (h.reached hr) h.stable h.pstart h.data hl]
    show Memory.read (Memory.write w.dev.mem _ _) x = _
    rw [Memory.read_write hwf, if_neg hx, h.wmem]
  · rw [pulseStore_commit (h.busyFlag hf) (h.reached hr) h.stable h.pstart h.data (by omega)]
    show Memory.read (Memory.write w.dev.mem _ _) x = _
    rw [Memory.read_write hwf, if_neg hx, h.wmem]

theorem WriteBetween.mem_same {s t w : State} {a : Addr} {d : Byte} {b : Nat} {evs1 : List Event} {k : EventKind}
    {dw x dr y z : Nat}
   (h : WriteBetween s t w a d b evs1 k dw x dr y z) (hm : s.memInv) (hf : s.deviceFree) (hre : s.cfg.reaches a)
       (hw : s.cfg.tWpDev ≤ s.cfg.tStrobe)
    (hv : Memory.read s.dev.mem (s.cfg.cellOf a) = d) : t.dev.mem = s.dev.mem := by
  apply Memory.ext (h.tinv hm).1 hm.1
  intro x
  rw [h.tmem, h.commit hf hre hw]
  show Memory.read (Memory.write w.dev.mem _ _) x = _
  rw [Memory.read_write (h.inv hm).1, h.wmem]
  split
  · next e => rw [e, hv]
  · rfl

theorem WriteBetween.free {s t w : State} {a : Addr} {d : Byte} {b : Nat} {evs1 : List Event} {k : EventKind}
    {dw x dr y z : Nat}
   (h : WriteBetween s t w a d b evs1 k dw x dr y z) (hc : s.cfg.tWcDev ≤ s.cfg.tRecovery) : t.deviceFree := by
  show t.dev.busyUntil ≤ t.now
  rw [h.dev, pulseEnd_dev, h.wcfg]
  have := h.recov
  simp only; omega

theorem execAll_append (is js : List Instr) (s t : State) (h : execAll is s = .next t) : execAll (is ++
    js) s = execAll js t := by
  induction is generalizing s with
  | nil => cases h; rfl
  | cons i is ih =>
    rw [List.cons_append, execAll]
    rw [execAll] at h
    cases hx : exec i s with
    | next u => rw [hx] at h; exact ih u h
    | fault f => rw [hx] at h; cases h
    | refused f => rw [hx] at h; cases h

end Sys2Proof.Machine
end

