-- ==== Sys2Proof/Laws/Protocol.lean ====
section
/-! SUPPORT. The rows of the three tables one by one, between two rows of a command: what each row adds to what the rows
before it established. -/

namespace Sys2Proof.Machine

/-! ### The latch sequence -/

/-- The element `3 m + r` of a concatenation of lists of three. -/
theorem getElem?_flatMap_three {α β : Type} (f : α → List β) (hf : ∀ x, (f x).length = 3) (l : List α) (m r : Nat)
    (hr : r < 3) : (l.flatMap f)[3 * m + r]? = l[m]?.bind fun x => (f x)[r]? := by
  induction l generalizing m with
  | nil => rfl
  | cons x l ih =>
    rw [List.flatMap_cons]
    cases m with
    | zero =>
      rw [List.getElem?_append_left (by rw [hf]; omega)]
      simp
    | succ m =>
      rw [List.getElem?_append_right (by rw [hf]; omega), hf, show 3 * (m + 1) + r - 3 = 3 * m + r by omega, ih m]
      rfl

/-- The rows `3 m`, `3 m + 1` and `3 m + 2` of the latch sequence (R126). -/
theorem latchSeq_getElem? (a : Addr) {m : Nat} (hm : m < 16) :
    (latchSeq (Bits.ofBitVec a))[3 * m]? = some (.setSer (some (a.getLsbD (15 - m)))) ∧
      (latchSeq (Bits.ofBitVec a))[3 * m + 1]? = some (.setSclk true) ∧
      (latchSeq (Bits.ofBitVec a))[3 * m + 2]? = some (.setSclk false) := by
  have h := latchBit_eq a ⟨m, hm⟩
  have hs : ∀ r, r < 3 → (latchSeq (Bits.ofBitVec a))[3 * m + r]? = (latchBit (Bits.ofBitVec a) ⟨m, hm⟩)[r]? := by
    intro r hr
    rw [latchSeq, List.getElem?_append_left (by rw [latchBits_len]; omega),
      getElem?_flatMap_three _ (fun _ => rfl) _ _ _ hr]
    simp [hm]
  rw [hs 1 (by omega), hs 2 (by omega), show 3 * m = 3 * m + 0 from rfl, hs 0 (by omega), h]
  exact ⟨rfl, rfl, rfl⟩

/-- Row `j` of the latch sequence: it changes SER and the two clocks alone. -/
theorem latching_row {c : Ctrl} {h : Chain} {a : Addr} {j : Nat} (hl : Latching c h a j) (hj : j < 50) :
    ∃ (u : Uop) (x y z : Bool), (latchSeq (Bits.ofBitVec a))[j]? = some u ∧ u.plain = true ∧ u.dirSafe c ∧ u ≠ .done ∧
      c.after u = { c with ser := x, sclk := y, rclk := z, upc := c.upc + 1 } ∧
      Latching (c.after u) (h.react c (c.after u)) a (j + 1) := by
  obtain ⟨h1, h2, h3, h4, h5⟩ := hl
  by_cases hj48 : j < 48
  · obtain ⟨m, r, hr, rfl⟩ : ∃ m r, r < 3 ∧ j = 3 * m + r := ⟨j / 3, j % 3, by omega, by omega⟩
    obtain ⟨r0, r1, r2⟩ := latchSeq_getElem? a (m := m) (by omega)
    have hk : c.rclk = false := by
      rw [h2, decide_eq_false_iff_not]
      omega
    obtain rfl | rfl | rfl : r = 0 ∨ r = 1 ∨ r = 2 := by omega
    · refine ⟨_, _, _, _, r0, rfl, trivial, nofun, rfl, ?_, ?_, ?_, ?_, ?_⟩
      · rw [show (Ctrl.after _ c).sclk = c.sclk from rfl, h1, decide_eq_decide]
        omega
      · rw [show (Ctrl.after _ c).rclk = c.rclk from rfl, h2, decide_eq_decide]
        omega
      · intro _
        rw [show 15 - (3 * m + 0 + 1 - 1) / 3 = 15 - m by omega]
        rfl
      · rw [react_setSer, show (3 * m + 0 + 1 + 1) / 3 = (3 * m + 0 + 1) / 3 by omega]
        exact h4
      · omega
    · refine ⟨_, _, _, _, r1, rfl, trivial, nofun, rfl, ?_, ?_, ?_, ?_, ?_⟩
      · rw [show (Ctrl.after _ c).sclk = true from rfl, eq_comm, decide_eq_true_iff]
        omega
      · rw [show (Ctrl.after _ c).rclk = c.rclk from rfl, h2, decide_eq_decide]
        omega
      · intro _
        rw [show 15 - (3 * m + 1 + 1 - 1) / 3 = 15 - (3 * m + 1 - 1) / 3 by omega]
        exact h3 (by omega)
      · intro i hi
        have hs : c.sclk = false := by
          rw [h1, decide_eq_false_iff_not]
          omega
        have e : (h.react c (c.after (.setSclk true))).shift = Bits.shiftIn h.shift (some c.ser) := by
          simp [Chain.react, Chain.shifted, Ctrl.after, hs]
        show (h.react c (c.after (.setSclk true))).shift[i.val] = _
        simp only [e, Bits.getElem_shiftIn]
        rw [show (3 * m + 1 + 1 + 1) / 3 = m + 1 by omega]
        split
        · next h0 =>
          rw [h3 (by omega), h0]
          congr 2
          omega
        · next h0 =>
          have := h4 ⟨i.val - 1, by omega⟩ (by simp only; omega)
          rw [show (3 * m + 1 + 1) / 3 = m by omega] at this
          exact this.trans (by congr 2; simp only; omega)
      · omega
    · refine ⟨_, _, _, _, r2, rfl, trivial, nofun, rfl, ?_, ?_, ?_, ?_, ?_⟩
      · rw [show (Ctrl.after _ c).sclk = false from rfl, eq_comm, decide_eq_false_iff_not]
        omega
      · rw [show (Ctrl.after _ c).rclk = c.rclk from rfl, h2, decide_eq_decide]
        omega
      · intro _
        rw [show 15 - (3 * m + 2 + 1 - 1) / 3 = 15 - (3 * m + 2 - 1) / 3 by omega]
        exact h3 (by omega)
      · have e : (h.react c (c.after (.setSclk false))).shift = h.shift := by
          simp [Chain.react, Chain.shifted, Ctrl.after]
        rw [e, show (3 * m + 2 + 1 + 1) / 3 = (3 * m + 2 + 1) / 3 by omega]
        exact h4
      · intro h49
        rw [show 3 * m + 2 + 1 = 48 by omega] at h49
        omega
  · have hs : c.sclk = false := by
      rw [h1, decide_eq_false_iff_not]
      omega
    have hf : h.shift = Bits.ofBitVec a := by
      ext1 i hi
      have := h4 ⟨i, hi⟩ (by simp only; omega)
      refine Eq.trans this ?_
      rw [Bits.getElem_ofBitVec, show 16 - (j + 1) / 3 + i = i by omega]
      simp [hi]
    obtain rfl | rfl : j = 48 ∨ j = 49 := by omega
    · have hk : c.rclk = false := by simp [h2]
      have e : h.react c (c.after (.setRclk true)) = ⟨h.shift, h.shift⟩ := by
        simp [Chain.react, Chain.shifted, Ctrl.after, hs, hk]
      refine ⟨.setRclk true, _, _, _, rfl, rfl, trivial, nofun, rfl, ?_, ?_, ?_, ?_, ?_⟩
      · simp [Ctrl.after, hs]
      · simp [Ctrl.after]
      · exact fun _ => h3 (by omega)
      · rw [e]
        exact h4
      · rw [e]
        exact fun _ => hf
    · have e : h.react c (c.after (.setRclk false)) = h := by
        simp [Chain.react, Chain.shifted, Ctrl.after]
      refine ⟨.setRclk false, _, _, _, rfl, rfl, trivial, nofun, rfl, ?_, ?_, ?_, ?_, ?_⟩
      · simp [Ctrl.after, hs]
      · simp [Ctrl.after]
      · exact fun _ => h3 (by omega)
      · rw [e]
        intro i _
        exact h4 i (by omega)
      · rw [e]
        exact fun _ => h5 (by omega)

/-- What the sequence left stays, whatever is run after it. -/
theorem Latching.later {c : Ctrl} {h : Chain} {a : Addr} {j : Nat} (hl : Latching c h a j) (hj : 50 ≤ j) :
    Latching c h a (j + 1) := by
  obtain ⟨h1, h2, h3, h4, h5⟩ := hl
  refine ⟨?_, ?_, ?_, ?_, ?_⟩
  · rw [h1, decide_eq_decide]
    omega
  · rw [h2, decide_eq_decide]
    omega
  · intro _
    rw [h3 (by omega)]
    congr 1
    omega
  · intro i _
    rw [h4 i (by omega)]
    congr 2
    omega
  · exact fun _ => h5 (by omega)

/-- The chain, SER and the clocks decide it alone. -/
theorem Latching.of_clocks {c d : Ctrl} {h : Chain} {a : Addr} {j : Nat} (hl : Latching c h a j) (h1 : d.ser = c.ser)
    (h2 : d.sclk = c.sclk) (h3 : d.rclk = c.rclk) : Latching d h a j := by
  unfold Latching
  rw [h1, h2, h3]
  exact hl

/-! ### The rows of a table -/

/-- The rows of a table that begins with the set-up of READ and WRITE. -/
theorem setUp_row (d : Dir) (a : Bits 16) (us : List Uop) (k : Nat) :
    (setUp d a ++ us)[k]? =
      if k < 4 then ([.setCe .deasserted, .setOe .deasserted, .setWe .deasserted, .setDir d] : List Uop)[k]?
      else if k < 54 then (latchSeq a)[k - 4]?
      else us[k - 54]? := by
  have e : setUp d a ++ us =
      [.setCe .deasserted, .setOe .deasserted, .setWe .deasserted, .setDir d] ++ (latchSeq a ++ us) := by
    simp [setUp, defensiveReset]
  have hl : (latchSeq a).length = 50 := rfl
  rw [e]
  split
  · rw [List.getElem?_append_left (by simp only [List.length_cons, List.length_nil]; omega)]
  · rw [List.getElem?_append_right (by simp only [List.length_cons, List.length_nil]; omega)]
    simp only [List.length_cons, List.length_nil]
    split
    · rw [List.getElem?_append_left (by omega)]
    · rw [List.getElem?_append_right (by omega), hl, Nat.sub_sub]

theorem readTable_setUp (c : Config) (a : Bits 16) :
    readTable c a =
      setUp .input a ++
        ([.setCe .asserted, .setOe .asserted, .wait c.tReadAccess] ++ (linesDown.map Uop.sample ++ readExit c)) := by
  simp [readTable, setUp]

theorem writeTable_setUp (c : Config) (a : Bits 16) :
    writeTable c a =
      setUp .output a ++
        (linesDown.map Uop.setDout ++
          [.setCe .asserted, .setWe .asserted, .wait c.tStrobe, .setWe .deasserted, .setCe .deasserted,
            .wait c.tRecovery, .done]) := by
  simp [writeTable, setUp]

/-- Levels with WE deasserted, on a bus driven safely, are calm. -/
theorem calm_of_weN {c : Ctrl} {st : Bits 16} (h1 : c.weN = true)
    (h2 : c.devDrives = true → c.allLines .input ∧ Bits.known st = true) : Calm c st := by
  refine ⟨?_, ?_, fun h => (h2 h).1, fun h => (h2 h).2⟩ <;> simp [Ctrl.strobing, Ctrl.oe, Ctrl.we, h1]

/-- One row with no drawn value, or a WAIT, that leaves the levels calm. -/
theorem calm_row {u : Uop} {s : State} (hu : u.plain = true ∨ ∃ n, u = .wait n) (hp : s.dev.pulseActive = false)
    (hd : u.dirSafe s.ctrl) (hc : Calm (s.ctrl.after u) (s.chain.react s.ctrl (s.ctrl.after u)).storage) :
    (ctrlStep u s).ctrl = s.ctrl.after u ∧ (ctrlStep u s).chain = s.chain.react s.ctrl (s.ctrl.after u) ∧
      (ctrlStep u s).faults = s.faults ∧ (ctrlStep u s).dev.pulseActive = false := by
  rcases hu with hu | ⟨n, rfl⟩
  · obtain ⟨r, rc, rh⟩ := ran_plain hu hp hd hc
    exact ⟨rc, rh, r.faults, by rw [r.pulseActive, hp]⟩
  · rw [react_wait] at hc ⊢
    obtain ⟨d, r, -, -, rc, rh, -⟩ := wait_run n hp (hc.of_levels rfl rfl rfl rfl)
    exact ⟨rc, rh, r.faults, by rw [r.pulseActive, hp]⟩

/-- The last row, DONE, from calm levels: READY, and nothing else changes. -/
theorem done_row {s : State} (hp : s.dev.pulseActive = false) (hwe : s.ctrl.weN = true) (hs : s.drivenSafely)
    (h1 : s.ctrl.sclk = false) (h2 : s.ctrl.rclk = false) :
    (ctrlStep .done s).faults = s.faults ∧ (ctrlStep .done s).atRest := by
  have hc : Calm (s.ctrl.after .done) (s.chain.react s.ctrl (s.ctrl.after .done)).storage := by
    rw [react_done]
    exact (calm_of_weN hwe hs).of_levels rfl rfl rfl rfl
  obtain ⟨rc, rh, rf, rp⟩ := calm_row (u := .done) (.inl rfl) hp trivial hc
  rw [react_done] at rh
  refine ⟨rf, by rw [rc]; rfl, by rw [rc]; rfl, by rw [rc]; exact hwe, by rw [rc]; exact h1, by rw [rc]; exact h2,
    rp, ?_⟩
  rw [State.drivenSafely, rc, rh]
  exact hs

/-! ### LATCH -/

/-- A row of LATCH. -/
theorem inLatch_row {s : State} {u : Uop} (h : s.inLatch) (hu : s.currentUop = some u) :
    (ctrlStep u s).faults = s.faults ∧ ((ctrlStep u s).atRest ∨ (ctrlStep u s).inLatch) := by
  obtain ⟨hph, hk, hwe, hp, hs, a, ha, hl⟩ := h
  rw [State.currentUop, hph, ha] at hu
  have hu : (latchSeq (Bits.ofBitVec a) ++ [Uop.done])[s.ctrl.upc]? = some u := hu
  by_cases h50 : s.ctrl.upc < 50
  · obtain ⟨v, x, y, z, hv, h1, h2, h3, h4, h5⟩ := latching_row hl h50
    rw [List.getElem?_append_left (by exact h50), hv] at hu
    cases hu
    have hsafe : (s.ctrl.after u).devDrives = true → (s.ctrl.after u).allLines .input ∧
        Bits.known (s.chain.react s.ctrl (s.ctrl.after u)).storage = true := by
      intro hd
      have hd' := hs (by rw [h4] at hd; exact hd)
      refine ⟨by rw [h4]; exact hd'.1, ?_⟩
      by_cases h48 : s.ctrl.upc = 48
      · rw [h5.2.2.2.2 (by omega)]
        simp
      · have : (s.chain.react s.ctrl (s.ctrl.after u)).storage = s.chain.storage := by
          by_cases h49 : s.ctrl.upc = 49
          · rw [h5.2.2.2.2 (by omega), hl.2.2.2.2 (by omega)]
          · have e1 : (s.ctrl.after u).rclk = false := by
              rw [h5.2.1, decide_eq_false_iff_not]
              omega
            simp [Chain.react, e1]
        rw [this]
        exact hd'.2
    obtain ⟨rc, rh, rf, rp⟩ := calm_row (.inl h1) hp h2 (calm_of_weN (by rw [h4]; exact hwe) hsafe)
    refine ⟨rf, .inr ⟨?_, ?_, by rw [rc, h4]; exact hwe, rp, ?_, a, ?_, ?_⟩⟩
    · rw [rc, h4]
      exact hph
    · rw [rc, h4]
      simp only
      omega
    · rw [State.drivenSafely, rc, rh]
      exact hsafe
    · rw [rc, h4]
      exact ha
    · rw [rc, rh]
      have e : (s.ctrl.after u).upc = s.ctrl.upc + 1 := by rw [h4]
      rw [e]
      exact h5
  · have e : s.ctrl.upc = 50 := by omega
    have hl50 : (latchSeq (Bits.ofBitVec a)).length = 50 := rfl
    rw [List.getElem?_append_right (by omega), hl50, e] at hu
    cases hu
    obtain ⟨g1, g2, -⟩ := hl
    obtain ⟨r1, r2⟩ := done_row hp hwe hs (by rw [g1, e]; rfl) (by rw [g2, e]; rfl)
    exact ⟨r1, .inl r2⟩

/-! ### READ -/

/-- A row of READ that is no SAMPLE and not DONE. -/
theorem inRead_calm {s : State} {u : Uop} {a : Addr} (hu : u.plain = true ∨ ∃ n, u = .wait n) (hn : u ≠ .done)
    (hp : s.dev.pulseActive = false) (hd : u.dirSafe s.ctrl) (hph : s.ctrl.phase = .read)
    (ha : s.ctrl.cmdAddr = Bits.ofBitVec a) (hk : s.ctrl.upc + 1 ≤ if s.cfg.readExitDeassert then 67 else 65)
    (hwe : (s.ctrl.after u).weN = true)
    (hce : (s.ctrl.after u).ceN = decide (s.ctrl.upc + 1 ≤ 54 ∨ s.ctrl.upc + 1 = 67))
    (hoe : 2 ≤ s.ctrl.upc + 1 → (s.ctrl.after u).oeN = decide (s.ctrl.upc + 1 ≤ 55 ∨ 66 ≤ s.ctrl.upc + 1))
    (hdir : 4 ≤ s.ctrl.upc + 1 → (s.ctrl.after u).allLines .input)
    (hl : Latching (s.ctrl.after u) (s.chain.react s.ctrl (s.ctrl.after u)) a (s.ctrl.upc + 1 - 4)) :
    (ctrlStep u s).faults = s.faults ∧ (ctrlStep u s).inRead := by
  have hsafe : (s.ctrl.after u).devDrives = true → (s.ctrl.after u).allLines .input ∧
      Bits.known (s.chain.react s.ctrl (s.ctrl.after u)).storage = true := by
    intro hdd
    by_cases h54 : s.ctrl.upc + 1 ≤ 54
    · simp [Ctrl.devDrives, Ctrl.ce, hce, h54] at hdd
    · refine ⟨hdir (by omega), ?_⟩
      rw [hl.2.2.2.2 (by omega)]
      simp
  obtain ⟨rc, rh, rf, rp⟩ := calm_row hu hp hd (calm_of_weN hwe hsafe)
  obtain ⟨e1, e2⟩ := ctrlStep_upc_phase u s
  rw [if_neg hn] at e1 e2
  refine ⟨rf, e2.trans hph, ?_, by rw [rc]; exact hwe, rp, ?_, ?_, ?_, ?_, a, ?_, ?_⟩
  · rw [e1, ctrlStep_cfg]
    exact hk
  · rw [State.drivenSafely, rc, rh]
    exact hsafe
  · rw [e1, rc]
    exact fun _ => hce
  · rw [e1, rc]
    exact hoe
  · rw [e1, rc]
    exact hdir
  · rw [(ctrlStep_operands u s).1]
    exact ha
  · rw [e1, rc, rh]
    exact hl

/-- A SAMPLE of READ. -/
theorem inRead_sample {s : State} (i : Fin 8) (h : s.inRead) (h1 : 56 ≤ s.ctrl.upc) (h2 : s.ctrl.upc < 65) :
    (ctrlStep (.sample i) s).faults = s.faults ∧ (ctrlStep (.sample i) s).inRead := by
  obtain ⟨hph, hk, hwe, hp, hs, hce, hoe, hdir, a, ha, hl⟩ := h
  have hhold : s.ctrl.readHold := by
    refine ⟨?_, ?_, hwe, hdir (by omega)⟩
    · rw [hce (by omega), decide_eq_false_iff_not]
      omega
    · rw [hoe (by omega), decide_eq_false_iff_not]
      omega
  have hkn : Bits.known s.chain.storage = true := by
    rw [hl.2.2.2.2 (by omega)]
    simp
  obtain ⟨b, r, c1, c2, c3, -⟩ := sample_run i hp hhold hkn
  refine ⟨r.faults, by rw [c1]; exact hph, ?_, by rw [c1]; exact hwe, by rw [c3]; exact hp, ?_, ?_, ?_, ?_, a, ?_, ?_⟩
  · rw [c1, ctrlStep_cfg]
    simp only
    split at hk <;> split <;> omega
  · rw [State.drivenSafely, c1, c2]
    exact hs
  · rw [c1]
    refine fun _ => (hce (by omega)).trans ?_
    simp only [decide_eq_decide]
    omega
  · rw [c1]
    refine fun _ => (hoe (by omega)).trans ?_
    simp only [decide_eq_decide]
    omega
  · rw [c1]
    exact fun _ => hdir (by omega)
  · rw [c1]
    exact ha
  · rw [c1, c2]
    have := hl.later (by omega)
    rw [show s.ctrl.upc + 1 - 4 = s.ctrl.upc - 4 + 1 by omega]
    exact this.of_clocks rfl rfl rfl

/-- A row of READ. -/
theorem inRead_row {s : State} {u : Uop} (h : s.inRead) (hu : s.currentUop = some u) :
    (ctrlStep u s).faults = s.faults ∧ ((ctrlStep u s).atRest ∨ (ctrlStep u s).inRead) := by
  have h' := h
  obtain ⟨hph, hk, hwe, hp, hs, hce, hoe, hdir, a, ha, hl⟩ := h
  rw [State.currentUop, hph, ha] at hu
  have hu : (readTable s.cfg (Bits.ofBitVec a))[s.ctrl.upc]? = some u := hu
  rw [readTable_setUp, setUp_row] at hu
  have next {u : Uop} (h : (ctrlStep u s).faults = s.faults ∧ (ctrlStep u s).inRead) :
      (ctrlStep u s).faults = s.faults ∧ ((ctrlStep u s).atRest ∨ (ctrlStep u s).inRead) := ⟨h.1, .inr h.2⟩
  split at hu
  · next h4 =>
    have hl0 : Latching s.ctrl s.chain a 0 := by rwa [show s.ctrl.upc - 4 = 0 by omega] at hl
    have hb : s.ctrl.upc + 1 ≤ if s.cfg.readExitDeassert then 67 else 65 := by split <;> omega
    obtain e | e | e | e : s.ctrl.upc = 0 ∨ s.ctrl.upc = 1 ∨ s.ctrl.upc = 2 ∨ s.ctrl.upc = 3 := by omega
    · rw [e] at hu
      cases hu
      refine next (inRead_calm (a := a) (.inl rfl) nofun hp trivial hph ha hb hwe ?_ ?_ ?_ ?_) <;> rw [e]
      · rfl
      · exact fun h => absurd h (by omega)
      · exact fun h => absurd h (by omega)
      · rw [react_setCe]
        exact hl0.of_clocks rfl rfl rfl
    · rw [e] at hu
      cases hu
      refine next (inRead_calm (a := a) (.inl rfl) nofun hp trivial hph ha hb hwe ?_ ?_ ?_ ?_) <;> rw [e]
      · exact (hce (by omega)).trans (by rw [e]; rfl)
      · exact fun _ => rfl
      · exact fun h => absurd h (by omega)
      · rw [react_setOe]
        exact hl0.of_clocks rfl rfl rfl
    · rw [e] at hu
      cases hu
      refine next (inRead_calm (a := a) (.inl rfl) nofun hp trivial hph ha hb rfl ?_ ?_ ?_ ?_) <;> rw [e]
      · exact (hce (by omega)).trans (by rw [e]; rfl)
      · exact fun _ => (hoe (by omega)).trans (by rw [e]; rfl)
      · exact fun h => absurd h (by omega)
      · rw [react_setWe]
        exact hl0.of_clocks rfl rfl rfl
    · rw [e] at hu
      cases hu
      have hoe3 : s.ctrl.oeN = true := (hoe (by omega)).trans (by rw [e]; rfl)
      refine next (inRead_calm (a := a) (.inl rfl) nofun hp ?_ hph ha hb hwe ?_ ?_ ?_ ?_) <;> try rw [e]
      · simp [Uop.dirSafe, Ctrl.dirChangeEnabled, Ctrl.oe, Ctrl.we, hoe3, hwe]
      · exact (hce (by omega)).trans (by rw [e]; rfl)
      · exact fun _ => hoe3
      · exact fun _ => rfl
      · rw [react_setDir]
        exact hl0.of_clocks rfl rfl rfl
  · split at hu
    · obtain ⟨v, x, y, z, hv, h1, h2, h3, h4, h5⟩ := latching_row hl (by omega)
      rw [hv] at hu
      cases hu
      refine next (inRead_calm (a := a) (.inl h1) h3 hp h2 hph ha (by split <;> omega) (by rw [h4]; exact hwe)
        ?_ ?_ ?_ ?_)
      · rw [h4]
        refine (hce (by omega)).trans ?_
        simp only [decide_eq_decide]
        omega
      · rw [h4]
        refine fun _ => (hoe (by omega)).trans ?_
        simp only [decide_eq_decide]
        omega
      · rw [h4]
        exact fun _ => hdir (by omega)
      · rwa [show s.ctrl.upc + 1 - 4 = s.ctrl.upc - 4 + 1 by omega]
    · have hl1 : Latching s.ctrl s.chain a (s.ctrl.upc + 1 - 4) := by
        rw [show s.ctrl.upc + 1 - 4 = s.ctrl.upc - 4 + 1 by omega]
        exact hl.later (by omega)
      obtain e | e | e | hs : s.ctrl.upc = 54 ∨ s.ctrl.upc = 55 ∨ s.ctrl.upc = 56 ∨ 57 ≤ s.ctrl.upc := by omega
      · rw [e] at hu
        cases hu
        refine next (inRead_calm (a := a) (.inl rfl) nofun hp trivial hph ha (by split <;> omega) hwe ?_ ?_ ?_ ?_)
        · rw [e]
          rfl
        · exact fun _ => (hoe (by omega)).trans (by rw [e]; rfl)
        · exact fun _ => hdir (by omega)
        · rw [react_setCe]
          exact hl1.of_clocks rfl rfl rfl
      · rw [e] at hu
        cases hu
        refine next (inRead_calm (a := a) (.inl rfl) nofun hp trivial hph ha (by split <;> omega) hwe ?_ ?_ ?_ ?_)
        · exact (hce (by omega)).trans (by rw [e]; rfl)
        · rw [e]
          exact fun _ => rfl
        · exact fun _ => hdir (by omega)
        · rw [react_setOe]
          exact hl1.of_clocks rfl rfl rfl
      · rw [e] at hu
        cases hu
        refine next (inRead_calm (a := a) (.inr ⟨_, rfl⟩) nofun hp trivial hph ha (by split <;> omega) hwe ?_ ?_ ?_ ?_)
        · exact (hce (by omega)).trans (by rw [e]; rfl)
        · exact fun _ => (hoe (by omega)).trans (by rw [e]; rfl)
        · exact fun _ => hdir (by omega)
        · rw [react_wait]
          exact hl1.of_clocks rfl rfl rfl
      · rw [List.getElem?_append_right (by simp only [List.length_cons, List.length_nil]; omega)] at hu
        simp only [List.length_cons, List.length_nil, Nat.sub_sub] at hu
        by_cases h65 : s.ctrl.upc < 65
        · rw [List.getElem?_append_left (by simp [linesDown]; omega), List.getElem?_map] at hu
          obtain ⟨i, -, rfl⟩ := Option.map_eq_some_iff.mp hu
          exact next (inRead_sample i h' (by omega) h65)
        · rw [List.getElem?_append_right (by simp [linesDown]; omega)] at hu
          simp only [linesDown, List.length_map, List.length_cons, List.length_nil, Nat.sub_sub, readExit] at hu
          have hdone : (ctrlStep .done s).faults = s.faults ∧
              ((ctrlStep .done s).atRest ∨ (ctrlStep .done s).inRead) := by
            have hc1 : s.ctrl.sclk = false := by
              rw [hl.1, decide_eq_false_iff_not]
              omega
            have hc2 : s.ctrl.rclk = false := by
              rw [hl.2.1, decide_eq_false_iff_not]
              omega
            obtain ⟨r1, r2⟩ := done_row hp hwe h'.2.2.2.2.1 hc1 hc2
            exact ⟨r1, .inl r2⟩
          split at hu
          · next hx =>
            rw [if_pos hx] at hk
            obtain e | e | e : s.ctrl.upc = 65 ∨ s.ctrl.upc = 66 ∨ s.ctrl.upc = 67 := by omega
            · rw [e] at hu
              cases hu
              refine next (inRead_calm (a := a) (.inl rfl) nofun hp trivial hph ha (by rw [if_pos hx]; omega) hwe
                ?_ ?_ ?_ ?_)
              · exact (hce (by omega)).trans (by rw [e]; rfl)
              · rw [e]
                exact fun _ => rfl
              · exact fun _ => hdir (by omega)
              · rw [react_setOe]
                exact hl1.of_clocks rfl rfl rfl
            · rw [e] at hu
              cases hu
              refine next (inRead_calm (a := a) (.inl rfl) nofun hp trivial hph ha (by rw [if_pos hx]; omega) hwe
                ?_ ?_ ?_ ?_)
              · rw [e]
                rfl
              · exact fun _ => (hoe (by omega)).trans (by rw [e]; rfl)
              · exact fun _ => hdir (by omega)
              · rw [react_setCe]
                exact hl1.of_clocks rfl rfl rfl
            · rw [e] at hu
              cases hu
              exact hdone
          · next hx =>
            rw [if_neg hx] at hk
            rw [show s.ctrl.upc = 65 by omega] at hu
            cases hu
            exact hdone

/-! ### WRITE -/

/-- A row of WRITE outside its pulse that is not DONE. -/
theorem inWrite_calm {s : State} {u : Uop} {a : Addr} {d : Byte} (hu : u.plain = true ∨ ∃ n, u = .wait n)
    (hn : u ≠ .done) (hp : s.dev.pulseActive = false) (hd : u.dirSafe s.ctrl) (hph : s.ctrl.phase = .write)
    (ha : s.ctrl.cmdAddr = Bits.ofBitVec a) (hdat : s.ctrl.cmdData = Bits.ofBitVec d) (hk : s.ctrl.upc + 1 ≤ 68)
    (hk' : ¬(64 ≤ s.ctrl.upc + 1 ∧ s.ctrl.upc + 1 ≤ 65)) (hwe : (s.ctrl.after u).weN = true)
    (hce : (s.ctrl.after u).ceN = decide (¬(63 ≤ s.ctrl.upc + 1 ∧ s.ctrl.upc + 1 ≤ 66)))
    (hoe : 2 ≤ s.ctrl.upc + 1 → (s.ctrl.after u).oeN = true)
    (hdir : 4 ≤ s.ctrl.upc + 1 → (s.ctrl.after u).allLines .output)
    (hdo : ∀ i : Fin 8, 62 ≤ s.ctrl.upc + 1 + i.val → (s.ctrl.after u).dout[i] = some (d.getLsbD i))
    (hl : Latching (s.ctrl.after u) (s.chain.react s.ctrl (s.ctrl.after u)) a (s.ctrl.upc + 1 - 4)) :
    (ctrlStep u s).faults = s.faults ∧ (ctrlStep u s).inWrite := by
  have hidle : (s.ctrl.after u).devDrives = false := by
    by_cases h63 : 63 ≤ s.ctrl.upc + 1
    · simp [Ctrl.devDrives, Ctrl.oe, hoe (by omega)]
    · simp [Ctrl.devDrives, Ctrl.ce, hce, h63]
  obtain ⟨rc, rh, rf, rp⟩ := calm_row hu hp hd (calm_of_weN hwe (by simp [hidle]))
  obtain ⟨e1, e2⟩ := ctrlStep_upc_phase u s
  rw [if_neg hn] at e1 e2
  refine ⟨rf, e2.trans hph, by rw [e1]; exact hk, ?_, ?_, ?_, ?_, ?_, ?_, a, d, ?_, ?_, ?_, ?_, ?_⟩
  · rw [e1, rc, hwe, eq_comm, decide_eq_true_iff]
    exact hk'
  · rw [e1, rp, eq_comm, decide_eq_false_iff_not]
    exact hk'
  · rw [State.drivenSafely, rc, hidle]
    exact nofun
  · rw [e1, rc]
    exact fun _ => hce
  · rw [e1, rc]
    exact hoe
  · rw [e1, rc]
    exact hdir
  · rw [(ctrlStep_operands u s).1]
    exact ha
  · rw [(ctrlStep_operands u s).2]
    exact hdat
  · rw [e1, rc, rh]
    exact hl
  · rw [e1, rc]
    exact hdo
  · rw [rp]
    exact nofun

theorem douts_row {k : Nat} (h : k < 8) : (linesDown.map Uop.setDout)[k]? = some (.setDout ⟨7 - k, by omega⟩) := by
  interval_cases k <;> rfl

/-- A row of WRITE before its pulse. -/
theorem inWrite_before {s : State} {u : Uop} (h : s.inWrite) (hu : s.currentUop = some u) (hk : s.ctrl.upc < 63) :
    (ctrlStep u s).faults = s.faults ∧ (ctrlStep u s).inWrite := by
  obtain ⟨hph, -, hwe, hp, hs, hce, hoe, hdir, a, d, ha, hdat, hl, hdo, -⟩ := h
  rw [State.currentUop, hph, ha] at hu
  have hu : (writeTable s.cfg (Bits.ofBitVec a))[s.ctrl.upc]? = some u := hu
  have hno : ¬(64 ≤ s.ctrl.upc ∧ s.ctrl.upc ≤ 65) := by omega
  rw [decide_eq_true hno] at hwe
  rw [decide_eq_false hno] at hp
  rw [writeTable_setUp, setUp_row] at hu
  split at hu
  · next h4 =>
    have hl0 : Latching s.ctrl s.chain a 0 := by rwa [show s.ctrl.upc - 4 = 0 by omega] at hl
    have hdo0 : ∀ i : Fin 8, ¬62 ≤ s.ctrl.upc + 1 + i.val := fun i => by omega
    obtain e | e | e | e : s.ctrl.upc = 0 ∨ s.ctrl.upc = 1 ∨ s.ctrl.upc = 2 ∨ s.ctrl.upc = 3 := by omega
    · rw [e] at hu
      cases hu
      refine inWrite_calm (a := a) (d := d) (.inl rfl) nofun hp trivial hph ha hdat (by omega) (by omega) hwe ?_ ?_ ?_
        (fun i hi => absurd hi (hdo0 i)) ?_ <;> rw [e]
      · rfl
      · exact fun h => absurd h (by omega)
      · exact fun h => absurd h (by omega)
      · rw [react_setCe]
        exact hl0.of_clocks rfl rfl rfl
    · rw [e] at hu
      cases hu
      refine inWrite_calm (a := a) (d := d) (.inl rfl) nofun hp trivial hph ha hdat (by omega) (by omega) hwe ?_ ?_ ?_
        (fun i hi => absurd hi (hdo0 i)) ?_ <;> rw [e]
      · exact (hce (by omega)).trans (by rw [e]; rfl)
      · exact fun _ => rfl
      · exact fun h => absurd h (by omega)
      · rw [react_setOe]
        exact hl0.of_clocks rfl rfl rfl
    · rw [e] at hu
      cases hu
      refine inWrite_calm (a := a) (d := d) (.inl rfl) nofun hp trivial hph ha hdat (by omega) (by omega) rfl ?_ ?_ ?_
        (fun i hi => absurd hi (hdo0 i)) ?_ <;> rw [e]
      · exact (hce (by omega)).trans (by rw [e]; rfl)
      · exact fun _ => hoe (by omega)
      · exact fun h => absurd h (by omega)
      · rw [react_setWe]
        exact hl0.of_clocks rfl rfl rfl
    · rw [e] at hu
      cases hu
      refine inWrite_calm (a := a) (d := d) (.inl rfl) nofun hp ?_ hph ha hdat (by omega) (by omega) hwe ?_ ?_ ?_
        (fun i hi => absurd hi (hdo0 i)) ?_ <;> try rw [e]
      · simp [Uop.dirSafe, Ctrl.dirChangeEnabled, Ctrl.oe, Ctrl.we, hoe (by omega), hwe]
      · exact (hce (by omega)).trans (by rw [e]; rfl)
      · exact fun _ => hoe (by omega)
      · exact fun _ => rfl
      · rw [react_setDir]
        exact hl0.of_clocks rfl rfl rfl
  · split at hu
    · obtain ⟨v, x, y, z, hv, h1, h2, h3, h4, h5⟩ := latching_row hl (by omega)
      rw [hv] at hu
      cases hu
      refine inWrite_calm (a := a) (d := d) (.inl h1) h3 hp h2 hph ha hdat (by omega) (by omega) (by rw [h4]; exact hwe)
        ?_ ?_ ?_ (fun i hi => absurd hi (by omega)) ?_
      · rw [h4]
        refine (hce (by omega)).trans ?_
        simp only [decide_eq_decide]
        omega
      · rw [h4]
        exact fun _ => hoe (by omega)
      · rw [h4]
        exact fun _ => hdir (by omega)
      · rwa [show s.ctrl.upc + 1 - 4 = s.ctrl.upc - 4 + 1 by omega]
    · have hl1 : Latching s.ctrl s.chain a (s.ctrl.upc + 1 - 4) := by
        rw [show s.ctrl.upc + 1 - 4 = s.ctrl.upc - 4 + 1 by omega]
        exact hl.later (by omega)
      by_cases h62 : s.ctrl.upc < 62
      · have hrow : u = .setDout ⟨61 - s.ctrl.upc, by omega⟩ := by
          rw [List.getElem?_append_left (by simp [linesDown]; omega), douts_row (by omega)] at hu
          rw [← Option.some.inj hu]
          congr 2
          omega
        subst hrow
        refine inWrite_calm (a := a) (d := d) (.inl rfl) nofun hp trivial hph ha hdat (by omega) (by omega) hwe ?_ ?_ ?_
          ?_ ?_
        · refine (hce (by omega)).trans ?_
          simp only [decide_eq_decide]
          omega
        · exact fun _ => hoe (by omega)
        · exact fun _ => hdir (by omega)
        · intro i hi
          have e : (s.ctrl.after (.setDout ⟨61 - s.ctrl.upc, by omega⟩)).dout =
              Bits.setBit s.ctrl.dout ⟨61 - s.ctrl.upc, by omega⟩ s.ctrl.cmdData[61 - s.ctrl.upc] := rfl
          rw [e, Bits.getElem_setBit]
          split
          · next hii =>
            have hi' : i.val = 61 - s.ctrl.upc := by rw [← hii]
            simp only [hdat, Bits.getElem_ofBitVec]
            rw [hi', BitVec.getLsbD_eq_getElem]
          · next hii =>
            exact hdo i (by
              rw [Fin.ext_iff] at hii
              simp only at hii
              omega)
        · rw [react_setDout]
          exact hl1.of_clocks rfl rfl rfl
      · have e : s.ctrl.upc = 62 := by omega
        rw [e] at hu
        cases hu
        refine inWrite_calm (a := a) (d := d) (.inl rfl) nofun hp trivial hph ha hdat (by omega) (by omega) hwe ?_ ?_ ?_
          ?_ ?_
        · rw [e]
          rfl
        · exact fun _ => hoe (by omega)
        · exact fun _ => hdir (by omega)
        · exact fun i _ => hdo i (by omega)
        · rw [react_setCe]
          exact hl1.of_clocks rfl rfl rfl

/-- The three rows of the write pulse: it begins, is held, and ends, with no fault. -/
theorem inWrite_pulse {s : State} {u : Uop} (h : s.inWrite) (hu : s.currentUop = some u) (h63 : 63 ≤ s.ctrl.upc)
    (h65 : s.ctrl.upc ≤ 65) : (ctrlStep u s).faults = s.faults ∧ (ctrlStep u s).inWrite := by
  obtain ⟨hph, -, hwe, hp, hs, hce, hoe, hdir, a, d, ha, hdat, hl, hdo, hpl⟩ := h
  rw [State.currentUop, hph, ha] at hu
  have hu : (writeTable s.cfg (Bits.ofBitVec a))[s.ctrl.upc]? = some u := hu
  have hst : s.chain.storage = Bits.ofBitVec a := hl.2.2.2.2 (by omega)
  have hkn : Bits.known s.chain.storage = true := by
    rw [hst]
    simp
  have hce' : s.ctrl.ceN = false := by
    rw [hce (by omega), decide_eq_false_iff_not]
    omega
  have hoe' : s.ctrl.oeN = true := hoe (by omega)
  have hdir' : s.ctrl.allLines .output := hdir (by omega)
  have hdout : s.ctrl.drivenData = Bits.ofBitVec d := by
    rw [drivenData_output hdir']
    ext1 i hi
    have := hdo ⟨i, hi⟩ (by omega)
    exact this.trans (by simp [hi])
  have hl1 : Latching s.ctrl s.chain a (s.ctrl.upc + 1 - 4) := by
    rw [show s.ctrl.upc + 1 - 4 = s.ctrl.upc - 4 + 1 by omega]
    exact hl.later (by omega)
  obtain ⟨p1, p2⟩ := ctrlStep_upc_phase u s
  rw [writeTable_setUp, setUp_row, if_neg (by omega), if_neg (by omega),
    List.getElem?_append_right (by simp [linesDown]; omega)] at hu
  obtain e | e | e : s.ctrl.upc = 63 ∨ s.ctrl.upc = 64 ∨ s.ctrl.upc = 65 := by omega
  · rw [e] at hu hp hl1
    cases hu
    rw [strobe_run hp hce' hoe' hkn]
    refine ⟨rfl, hph, ?_, ?_, ?_, ?_, ?_, fun _ => hoe', fun _ => hdir', a, d, ha, hdat, ?_, ?_, fun _ => ?_⟩
    · show s.ctrl.upc + 1 ≤ 68
      omega
    · show false = decide (¬(64 ≤ s.ctrl.upc + 1 ∧ s.ctrl.upc + 1 ≤ 65))
      rw [e]
      rfl
    · show true = decide (64 ≤ s.ctrl.upc + 1 ∧ s.ctrl.upc + 1 ≤ 65)
      rw [e]
      rfl
    · intro hd
      simp [State.pulseBegin, State.emit, Ctrl.devDrives, Ctrl.oe, hoe'] at hd
    · show _ → s.ctrl.ceN = decide (¬(63 ≤ s.ctrl.upc + 1 ∧ s.ctrl.upc + 1 ≤ 66))
      rw [e, hce']
      exact fun _ => rfl
    · show Latching _ s.chain a (s.ctrl.upc + 1 - 4)
      rw [e]
      exact hl1.of_clocks rfl rfl rfl
    · exact fun i _ => hdo i (by omega)
    · refine ⟨hst, hdout, rfl, nofun, _, rfl, Nat.le_refl _, fun h => ?_⟩
      have : s.ctrl.upc + 1 = 65 := h
      omega
  · rw [e] at hu hp hl1 hwe
    cases hu
    obtain ⟨q1, q2, q3, q4, b, q5, q6, -⟩ := hpl hp
    rw [strobe_wait s.cfg.tStrobe hp hce' hoe' hwe hkn]
    refine ⟨rfl, hph, ?_, ?_, ?_, ?_, ?_, fun _ => hoe', fun _ => hdir', a, d, ha, hdat, ?_, ?_, fun _ => ?_⟩
    · show s.ctrl.upc + 1 ≤ 68
      omega
    · show s.ctrl.weN = decide (¬(64 ≤ s.ctrl.upc + 1 ∧ s.ctrl.upc + 1 ≤ 65))
      rw [e, hwe]
      rfl
    · show s.dev.pulseActive = decide (64 ≤ s.ctrl.upc + 1 ∧ s.ctrl.upc + 1 ≤ 65)
      rw [e, hp]
      rfl
    · exact hs
    · show _ → s.ctrl.ceN = decide (¬(63 ≤ s.ctrl.upc + 1 ∧ s.ctrl.upc + 1 ≤ 66))
      rw [e, hce']
      exact fun _ => rfl
    · show Latching _ s.chain a (s.ctrl.upc + 1 - 4)
      rw [e]
      exact hl1.of_clocks rfl rfl rfl
    · exact fun i _ => hdo i (by omega)
    · refine ⟨q1, q2, q3, q4, b, q5, ?_, fun _ => ?_⟩
      · simp [State.wait]
        omega
      · simp [State.wait]
        omega
  · rw [e] at hu hp hl1
    cases hu
    rw [strobe_end hp hoe' hkn]
    refine ⟨by simp, by simpa using hph, ?_, ?_, ?_, ?_, ?_, ?_, ?_, a, d, by simpa using ha,
      by simpa using hdat, ?_, ?_, ?_⟩
    · simp only [State.pulseEnd_ctrl]
      omega
    · simp [e]
    · rw [pulseEnd_calm]
      simp [e]
    · simp [State.drivenSafely, Ctrl.devDrives, Ctrl.oe, hoe']
    · simp [e, hce']
    · simp [hoe']
    · rw [State.pulseEnd_ctrl]
      exact fun _ => hdir'
    · simp only [State.pulseEnd_ctrl, State.pulseEnd_chain, e]
      exact hl1.of_clocks rfl rfl rfl
    · simpa only [State.pulseEnd_ctrl] using fun i _ => hdo i (by omega)
    · rw [pulseEnd_calm]
      exact nofun

/-- A row of WRITE. -/
theorem inWrite_row {s : State} {u : Uop} (h : s.inWrite) (hu : s.currentUop = some u) :
    (ctrlStep u s).faults = s.faults ∧ ((ctrlStep u s).atRest ∨ (ctrlStep u s).inWrite) := by
  by_cases h63 : s.ctrl.upc < 63
  · exact (inWrite_before h hu h63).imp_right .inr
  by_cases h65 : s.ctrl.upc ≤ 65
  · exact (inWrite_pulse h hu (by omega) h65).imp_right .inr
  obtain ⟨hph, hk, hwe, hp, hs, hce, hoe, hdir, a, d, ha, hdat, hl, hdo, -⟩ := h
  rw [State.currentUop, hph, ha] at hu
  have hu : (writeTable s.cfg (Bits.ofBitVec a))[s.ctrl.upc]? = some u := hu
  have hno : ¬(64 ≤ s.ctrl.upc ∧ s.ctrl.upc ≤ 65) := by omega
  rw [decide_eq_true hno] at hwe
  rw [decide_eq_false hno] at hp
  have hl1 : Latching s.ctrl s.chain a (s.ctrl.upc + 1 - 4) := by
    rw [show s.ctrl.upc + 1 - 4 = s.ctrl.upc - 4 + 1 by omega]
    exact hl.later (by omega)
  rw [writeTable_setUp, setUp_row, if_neg (by omega), if_neg (by omega),
    List.getElem?_append_right (by simp [linesDown]; omega)] at hu
  obtain e | e | e : s.ctrl.upc = 66 ∨ s.ctrl.upc = 67 ∨ s.ctrl.upc = 68 := by omega
  · rw [e] at hu
    cases hu
    refine (inWrite_calm (u := .setCe .deasserted) (a := a) (d := d) (.inl rfl) nofun hp
      trivial hph ha hdat (by omega) (by omega) hwe ?_ (fun _ => hoe (by omega)) (fun _ => hdir (by omega))
      (fun i _ => hdo i (by omega)) ?_).imp_right .inr
    · rw [e]
      rfl
    · rw [react_setCe]
      exact hl1.of_clocks rfl rfl rfl
  · rw [e] at hu
    cases hu
    refine (inWrite_calm (u := .wait s.cfg.tRecovery) (a := a) (d := d) (.inr ⟨_, rfl⟩) nofun hp
      trivial hph ha hdat (by omega) (by omega) hwe ?_ (fun _ => hoe (by omega)) (fun _ => hdir (by omega))
      (fun i _ => hdo i (by omega)) ?_).imp_right .inr
    · exact (hce (by omega)).trans (by rw [e]; rfl)
    · rw [react_wait]
      exact hl1.of_clocks rfl rfl rfl
  · rw [e] at hu
    cases hu
    have hc1 : s.ctrl.sclk = false := by
      rw [hl.1, decide_eq_false_iff_not]
      omega
    have hc2 : s.ctrl.rclk = false := by
      rw [hl.2.1, decide_eq_false_iff_not]
      omega
    exact (done_row hp hwe hs hc1 hc2).imp_right .inl

end Sys2Proof.Machine
end

