-- ==== Sys2Proof/Tests/Slice0.lean ====
section
/-! SUPPORT. Tests, and a witness for the hypotheses of every statement. A test's expected result is a vector of
95_test_vectors.md (its id stands in the test's name or docstring) or an example of a rule. -/

open Sys2Proof Sys2Proof.Machine

namespace Sys2Proof.Tests

/-! ## States the tests start from -/

/-- READY in Idle, inputs, nothing latched, no time passed since a launch at time 0 (the start of program P1). -/
def idle : State := { State.launch with ctrl.phase := .ready, trace := [⟨.reset, 0⟩] }

/-- READY in read hold at 0x0000, with some cells' bytes. -/
def hold : State :=
  { idle with
    ctrl := { idle.ctrl with ceN := false, oeN := false }
    chain := ⟨Bits.ofBitVec 0x0000#16, Bits.ofBitVec 0x0000#16⟩
    dev.mem := [(0x000, 0xAB#8), (0x001, 0xCD#8), (0x7FF, 0x5A#8)] }

/-- READY in Idle, with a device that takes any pulse width: no test on it depends on the time drawn for the pulse. -/
def anyWidth : State := { idle with cfg.tWpDev := 0 }

/-- WRITE 0x0000, 0xAB after k = 63, its pulse begun at time 0. -/
def inPulse : State :=
  { idle with
    ctrl :=
      { idle.ctrl with
        phase := .write
        upc := 64
        cmdAddr := Bits.ofBitVec 0x0000#16
        cmdData := Bits.ofBitVec 0xAB#8
        ceN := false
        weN := false
        dir := Vector.replicate 8 .output
        dout := Bits.ofBitVec 0xAB#8 }
    chain := ⟨Bits.ofBitVec 0x0000#16, Bits.ofBitVec 0x0000#16⟩
    dev :=
      { Dev.launch with
        pulseActive := true
        pulseStart := some 0
        pulseAddr := Bits.ofBitVec 0x0000#16
        pulseData := Bits.ofBitVec 0xAB#8
        pulseBusyAtStart := some false } }

/-- The state a command leaves. -/
def after (i : Instr) (s : State) : State :=
  match exec i s with
  | .next t => t
  | .fault _ => s
  | .refused _ => s

/-- The state a step leaves. -/
def next (s : State) : State :=
  match step s with
  | .next t => t
  | .fault _ => s
  | .refused _ => s

/-- The codes marked. -/
def marks (s : State) : List FaultCode := s.faults.map FaultMark.code

/-! ## Encoding -/

/-- READ 0x0123, bit by bit from R82: op 01, addr 0000000100100011, data 00000000. -/
theorem test_decode_read : decode 0b01000000010010001100000000#26 = .ok (.read 0x0123 0x00) := by decide

/-- WRITE 0x0000, 0xAB, bit by bit from R82: op 10, addr 0000000000000000, data 10101011. -/
theorem test_decode_write : decode 0b10000000000000000010101011#26 = .ok (.write 0x0000 0xAB) := by decide

/-- LATCH 0x07FF, bit by bit from R82: op 11, addr 0000011111111111, data 00000000. -/
theorem test_decode_latch : decode 0b11000001111111111100000000#26 = .ok (.latch 0x07FF 0x00) := by decide

/-- Vectors §2.1: the reserved words. -/
theorem test_decode_reserved : decode 0x0000000#26 = .error .reservedOp ∧ decode 0x0ABCDEF#26 = .error .reservedOp := by
  decide

/-- A bit above bit 25 is in no command word (R87), so the number is refused. -/
theorem test_decode_too_wide : decodeNat 0x4000000 = .error .wordTooWide := by decide

/-- Vectors W7: the words of ERASE_ALL. -/
theorem test_encode_erase_words :
    encode (.write 0x000 0xFF) = 0x20000FF#26 ∧ encode (.write 0x7FF 0xFF) = 0x207FFFF#26 := by decide

theorem test_tableWord_read : decodeTableWord 32 0x1012300 = some (.read 0x0123 0x00) := by decide

/-! ## Assembler lines (R91): each check of well-formedness refuses an ill-formed line -/

theorem test_wf_read : AsmLine.wellFormed (.read 0x10000) = false ∧ assemble (.read 0x10000) = none := by decide

theorem test_wf_write_addr :
    AsmLine.wellFormed (.write 0x10000 0) = false ∧ assemble (.write 0x10000 0) = none := by decide

theorem test_wf_write_data : AsmLine.wellFormed (.write 0 0x100) = false ∧ assemble (.write 0 0x100) = none := by decide

theorem test_wf_latch : AsmLine.wellFormed (.latch 0x10000) = false ∧ assemble (.latch 0x10000) = none := by decide

/-- R91's example: `WRITE 0x000, 0xAB`, with a comment, is `0x20000AB`. -/
theorem test_parse_write :
    parseLine
        ['W', 'R', 'I', 'T', 'E', ' ', '0', 'x', '0', '0', '0', ',', ' ', '0', 'x', 'A', 'B', ' ', ';', ' ', 'a'] =
      .ok (some (.write 0x000 0xAB)) ∧ assemble (.write 0x000 0xAB) = some 0x20000AB#26 := by decide

theorem test_parse_decimal : parseLine ['R', 'E', 'A', 'D', ' ', '2', '9', '1'] = .ok (some (.read 0x0123)) := by decide

theorem test_parse_refused :
    parseLine ['E', 'R', 'A', 'S', 'E', ' ', '1'] = .error .notACommand ∧
      parseLine ['R', 'E', 'A', 'D', ' ', '0', 'x', 'G'] = .error .badLiteral := by decide

/-! ## Sequencer (vectors §2.2) -/

/-- S1: after the two steps of STARTUP the block is READY, with no RSP. -/
theorem test_S1 :
    (next State.reset).ctrl.upc = 1 ∧ (next (next State.reset)).ctrl.phase = .ready ∧
      pinSequence (next (next State.reset)).trace = [.reset] := by decide

/-- S2: a command presented in STARTUP is not accepted there. -/
theorem test_S2 :
    next { State.reset with host := [.command 0x1000000#26] } =
      { next State.reset with host := [.command 0x1000000#26] } := rfl

/-- S4: a reserved word. -/
theorem test_S4 :
    (next { idle with host := [.command 0x0000000#26] }).refused = [.reservedOp] ∧
      (next { idle with host := [.command 0x0000000#26] }).ctrl = idle.ctrl := by decide

/-- S6: WRITE at `upc = 62`. -/
theorem test_S6 :
    (next { inPulse with ctrl := { inPulse.ctrl with upc := 62, ceN := true } }).ctrl.ceN = false ∧
      (next { inPulse with ctrl := { inPulse.ctrl with upc := 62, ceN := true } }).ctrl.upc = 63 := by decide

/-- Past the end of its table, which R109 excludes, the model stops. -/
theorem test_past_table : step { State.reset with ctrl.upc := 2 } = .fault .upcPastTable := rfl

/-! ## Address driver (vectors §2.3) -/

set_option maxRecDepth 4000 in
/-- L4: all 16 bits are latched, and the SER levels are `1010010111000011`, in the order of the serial stream. -/
theorem test_latch_L4 :
    (after (.latch 0xA5C3 0) idle).chain = ⟨Bits.ofBitVec 0xA5C3#16, Bits.ofBitVec 0xA5C3#16⟩ ∧
      marks (after (.latch 0xA5C3 0) idle) = [] ∧
      ((pinSequence (after (.latch 0xA5C3 0) idle).trace).filterMap fun k =>
          match k with
          | .pin .ser l => some l
          | _ => none) =
        [true, false, true, false, false, true, false, true, true, true, false, false, false, false, true, true] := by
  decide

/-- L2, chain progress after j = 1: SER's 0 in bit 0, the other bits unknown. -/
theorem test_chain_progress :
    (steps ((latchSeq (Bits.ofBitVec 0x07FF#16)).take 2) idle).chain.shift =
      Bits.setBit (Bits.unknown 16) 0 (some false) := by decide

set_option maxRecDepth 4000 in
/-- L7: a reset after j = 31 of LATCH (ACCEPT and 32 µops come before it). -/
theorem test_reset_L7 :
    (after (.latch 0x07FF 0) { idle with rst := [33] }).ctrl = Ctrl.reset ∧
      (after (.latch 0x07FF 0) { idle with rst := [33] }).chain = Chain.reset := by decide

set_option maxRecDepth 4000 in
/-- L8: LATCH in read hold moves the device's output. -/
theorem test_latch_L8 :
    hold.line 0 = .device (some true) ∧ (after (.latch 0x07FF 0) hold).line 0 = .device (some false) ∧
      marks (after (.latch 0x07FF 0) hold) = [] := by decide

/-! ## WRITE (vectors §2.4) -/

set_option maxRecDepth 4000 in
/-- W-1, W-6: the end state of a WRITE from read hold, and no fault. -/
theorem test_write_W6 :
    (after (.write 0x0000 0x55) { anyWidth with ctrl := hold.ctrl, chain := hold.chain }).ctrl =
        { hold.ctrl with
          cmdAddr := Bits.ofBitVec 0x0000#16
          cmdData := Bits.ofBitVec 0x55#8
          ceN := true
          oeN := true
          dir := Vector.replicate 8 .output
          dout := Bits.ofBitVec 0x55#8 } ∧
      marks (after (.write 0x0000 0x55) { anyWidth with ctrl := hold.ctrl, chain := hold.chain }) = [] := by decide

set_option maxRecDepth 8000 in
/-- W-1, W5: the 68 events of the pin sequence, ACCEPT and RSP included. -/
theorem test_write_W1 :
    (pinSequence (after (.write 0x0000 0xAB) anyWidth).trace).length = 1 + 68 ∧
      ((pinSequence (after (.write 0x0000 0xAB) anyWidth).trace).drop 55).take 12 =
        [.pin .rclk false, .dout 7 (some true), .dout 6 (some false), .dout 5 (some true), .dout 4 (some false),
          .dout 3 (some true), .dout 2 (some false), .dout 1 (some true), .dout 0 (some true), .pin .ceN false,
          .pin .weN false, .pin .weN true] := by decide

/-- W-1 at k = 65: the pulse's end commits the byte and starts the busy window. -/
theorem test_pulse_commits :
    Memory.read (ctrlStep (.setWe .deasserted) { inPulse with cfg.tWpDev := 0 }).dev.mem 0x000 = 0xAB#8 ∧
      (ctrlStep (.setWe .deasserted) { inPulse with cfg.tWpDev := 0 }).dev.busyUntil =
        (ctrlStep (.setWe .deasserted) { inPulse with cfg.tWpDev := 0 }).now + 10000 :=
  ⟨Memory.read_write rfl _ _ _, rfl⟩

/-- W-3: out of range with `OOR_MODE = UNDEFINED`, every cell. -/
theorem test_write_W3 :
    ((ctrlStep (.setWe .deasserted)
          { inPulse with dev.pulseAddr := Bits.ofBitVec 0x0800#16 }).trace.getLast?.map Event.kind) =
      some (.corrupt .all) := by decide

/-- W-4: the same address with `OOR_MODE = ALIAS`. -/
theorem test_write_W4 :
    ((ctrlStep (.setWe .deasserted)
          { inPulse with
            cfg.oorMode := .aliased
            cfg.tWpDev := 0
            dev.pulseAddr := Bits.ofBitVec 0x0800#16 }).trace.getLast?.map Event.kind) =
      some (.commit 0x000 0xAB) := by decide

/-! ## READ (vectors §2.5) -/

set_option maxRecDepth 4000 in
/-- R-1, R-4: the byte and read hold; and the byte at `0xFFFF` with `OOR_MODE = ALIAS`. -/
theorem test_read_R1 :
    (after (.read 0x0000 0) hold).ctrl =
        { hold.ctrl with
          cmdAddr := Bits.ofBitVec 0x0000#16
          cmdData := Bits.ofBitVec 0x00#8
          rdata := Bits.ofBitVec 0xAB#8 } ∧
      (after (.read 0xFFFF 0) { hold with cfg.oorMode := .aliased }).ctrl.rdata = Bits.ofBitVec 0x5A#8 := by decide

set_option maxRecDepth 4000 in
/-- R-5: `READ_EXIT_DEASSERT = true` ends in Idle, with its two events before the RSP. -/
theorem test_read_R5 :
    (after (.read 0x0000 0) { hold with cfg.readExitDeassert := true }).ctrl.ceN = true ∧
      (after (.read 0x0000 0) { hold with cfg.readExitDeassert := true }).ctrl.oeN = true ∧
      (pinSequence (after (.read 0x0000 0) { hold with cfg.readExitDeassert := true }).trace).drop 66 =
        [.pin .oeN true, .pin .ceN true, .rsp .read (some (Bits.ofBitVec 0xAB#8))] := by decide

/-! ## Model faults (vectors §2.6) -/

theorem test_F1 : marks (ctrlStep (.setDir .output) hold) = [.f3DirChangeEnabled, .f1Contention] := by decide

theorem test_F2 : marks (ctrlStep (.setOe .asserted) inPulse) = [.f2OeWe] := by decide

theorem test_F3_F4 :
    marks (ctrlStep (.setCe .asserted) idle) = [] ∧
      marks (ctrlStep (.setOe .asserted) (ctrlStep (.setCe .asserted) idle)) = [.f5AddrUndefined] := by decide

theorem test_F5 :
    marks (ctrlStep (.setDout 0) { inPulse with ctrl.cmdData := Bits.ofBitVec 0xAA#8 }) = [.f4WriteUnstable] ∧
      (ctrlStep (.setDout 0) { inPulse with ctrl.cmdData := Bits.ofBitVec 0xAA#8 }).dev.pulseUnstable = true := by decide

theorem test_F6 : marks (ctrlStep (.setDir .input) inPulse) = [.f3DirChangeEnabled, .f4WriteUnstable] := by decide

/-! ## Witnesses: for each statement with hypotheses, a state and operands that meet all of them, and a boundary value
for each clause -/

theorem idle_atRest : idle.atRest := ⟨rfl, rfl, rfl, rfl, rfl, rfl, fun h => nomatch h⟩

theorem hold_atRest : hold.atRest := ⟨rfl, rfl, rfl, rfl, rfl, rfl, fun _ => ⟨rfl, by decide⟩⟩

theorem idle_memInv : idle.memInv := ⟨rfl, rfl⟩

theorem idle_deviceFree : idle.deviceFree := Nat.le_refl _

theorem reference_cfgOk : idle.cfg.CfgOk := by decide

/-- `idle` with a device that ignores the upper address lines. -/
def aliasing : State := { idle with cfg.oorMode := .aliased }

theorem aliasing_atRest : aliasing.atRest := ⟨rfl, rfl, rfl, rfl, rfl, rfl, fun h => nomatch h⟩

theorem aliasing_cfgOk : aliasing.cfg.CfgOk := by decide

/-- Addresses with a defined result: the first and the last of the range, and the first past it with ALIAS. -/
theorem reaches_boundary :
    idle.cfg.reaches 0x0000#16 ∧ idle.cfg.reaches 0x07FF#16 ∧ ¬idle.cfg.reaches 0x0800#16 ∧
      aliasing.cfg.reaches 0x0800#16 ∧ aliasing.cfg.reaches 0xFFFF#16 :=
  ⟨.inl (by decide), .inl (by decide), fun h => h.elim (fun h => absurd h (by decide)) nofun, .inr rfl, .inr rfl⟩

theorem witness_DecodeOfEncode : 26 ≤ 32 ∧ decode 0x20000AB#26 = .ok (.write 0x0000 0xAB) := by decide

theorem witness_IgnoredByteSelectsNothing :
    (∃ i j : Instr, (i = .read 0x0123 0x00 ∧ j = .read 0x0123 0xFF) ∨ (i = .latch 0x0123 0x00 ∧ j = .latch 0x0123 0xFF)) ∧
      assemble (.read 0xFFFF) = some 0x1FFFF00#26 :=
  ⟨⟨_, _, .inr ⟨rfl, rfl⟩⟩, by decide⟩

theorem witness_AssemblerAndPseudoInstructions :
    (assemble (.write 0xFFFF 0xFF)).isSome = true ∧ assemble (.write 0x10000 0xFF) = none ∧
      assemble (.write 0xFFFF 0x100) = none ∧ (dump 0x100 0x100).length = 0 ∧ (dump 0x100 0x103).length = 3 ∧
      (patternWrite 0xFFFF#16 [1, 2])[1]? = some (.write 0x0000#16 2) := by decide

theorem witness_StepRunsTheDecodedCommand :
    ({ idle with host := [.command 0x20000AB#26] } : State).rstDue = false ∧
      ({ idle with host := [.command 0x20000AB#26] } : State).ctrl.phase = .ready ∧
      decode 0x20000AB#26 = .ok (.write 0x0000 0xAB) ∧
      decodeTableWord 32 0x20000AB = some (.write 0x0000 0xAB) := by decide

/-- Both a µop that advances `upc` and DONE. -/
theorem witness_StepRunsTheUopOfTheTable :
    State.reset.rstDue = false ∧ State.reset.ctrl.phase ≠ .ready ∧
      (table State.reset.cfg State.reset.ctrl.cmdAddr State.reset.ctrl.phase)[0]? = some (.wait 1000000) ∧
      (table State.reset.cfg State.reset.ctrl.cmdAddr State.reset.ctrl.phase)[1]? = some .done := by decide

theorem witness_CommandIsItsUopsOneStepEach : idle.rst = [] := rfl

theorem witness_TablesEndInDone : Phase.startup ≠ .ready ∧ Phase.latch ≠ .ready ∧ Phase.read ≠ .ready ∧ Phase.write ≠ .ready := by
  decide

/-- One µop past the end of the table, and not at its last row. -/
theorem witness_StepStopsOnlyPastATable :
    ({ State.reset with ctrl.upc := 2 } : State).rstDue = false ∧ State.reset.ctrl.phase ≠ .ready ∧
      (table State.reset.cfg State.reset.ctrl.cmdAddr State.reset.ctrl.phase).length ≤ 2 ∧
      ¬(table State.reset.cfg State.reset.ctrl.cmdAddr State.reset.ctrl.phase).length ≤ 1 := by decide

theorem witness_HostWaitsForReady : State.reset.ctrl.phase ≠ .ready ∧ ∃ t, step State.reset = .next t :=
  ⟨by decide, _, rfl⟩

theorem witness_HostIdleOnlyTakesTime :
    ({ idle with host := [.idle 5] } : State).rstDue = false ∧ idle.ctrl.phase = .ready := by decide

theorem witness_ReservedWordIsRefused :
    ({ idle with host := [.command 0x0ABCDEF#26] } : State).rstDue = false ∧ idle.ctrl.phase = .ready ∧
      idle.ctrl.upc = 0 ∧ (0x0ABCDEF#26).extractLsb' 24 2 = 0#2 := by decide

theorem witness_AcceptLatchesTheOperands : decode 0x1012300#26 = .ok (.read 0x0123 0x00) := by decide

/-- A reset due between commands and one within a write pulse. -/
theorem witness_ResetEvent :
    ({ idle with rst := [0] } : State).rstDue = true ∧ ({ inPulse with rst := [0] } : State).rstDue = true ∧
      idle.dev.pulseActive = false ∧ inPulse.dev.pulseActive = true := by decide

/-- Before the first µop, before the last one, and right after it. -/
theorem witness_ResetCutsACommand :
    0 < (Instr.uops idle.cfg (.write 0x0000 0xAB)).length ∧ 68 < (Instr.uops idle.cfg (.write 0x0000 0xAB)).length ∧
      (Instr.uops idle.cfg (.write 0x0000 0xAB)).length ≤ 69 ∧
      ({ idle with rst := [70] } : State).rst = (69 + 1) :: [] := by
  decide

/-- A run from STARTUP that accepts a word. -/
theorem witness_NoAcceptBeforeTheSettleDelay :
    ∃ t, run 3 { State.reset with host := [.command 0x0000000#26] } = .next t ∧
      (t.trace.map Event.kind).contains (.accept 0#2 0#16 0#8) = true :=
  ⟨_, rfl, by decide⟩

theorem witness_StartupTakesTwoSteps :
    State.reset.ctrl.phase = .startup ∧ State.reset.ctrl.upc = 0 ∧ State.reset.rst = [] ∧ State.reset.pulseInStep :=
  ⟨rfl, rfl, rfl, rfl⟩

theorem witness_MarksAreSticky :
    (∃ t, step State.reset = .next t) ∧
      ∃ t, run 1 { idle with refused := [.reservedOp] } = .next t ∧ ({ idle with refused := [.reservedOp] } : State).refused ≠ [] :=
  ⟨⟨_, rfl⟩, _, rfl, nofun⟩

/-- No reset planned, one due, and one to come. -/
theorem witness_TraceAndTimeOnlyGrow :
    State.reset.rst = [] ∧ (∃ t, step State.reset = .next t) ∧ (∃ t, step { State.reset with rst := [0] } = .next t) ∧
      ∃ t, step { State.reset with rst := [1] } = .next t :=
  ⟨rfl, ⟨_, rfl⟩, ⟨_, rfl⟩, _, rfl⟩

theorem witness_MemoryStaysCanonical : State.reset.memInv ∧ ∃ t, step State.reset = .next t := ⟨⟨rfl, rfl⟩, _, rfl⟩

/-- LATCH 0x0000 right after its acceptance. -/
def beforeLatch : State :=
  { idle with ctrl := { idle.ctrl with phase := .latch, cmdAddr := Bits.ofBitVec 0x0000#16 } }

/-- READ 0x0000 before its first sample. -/
def beforeSample : State :=
  { hold with ctrl := { hold.ctrl with phase := .read, upc := 57, cmdAddr := Bits.ofBitVec 0x0000#16 } }

/-- At rest in Idle and in read hold, in the settle delay, and within each of the three tables. -/
theorem witness_ProtocolInvariantKeptWithoutFault :
    idle.atRest ∧ hold.atRest ∧ State.reset.settling ∧ beforeLatch.inLatch ∧ beforeSample.inRead ∧ inPulse.inWrite ∧
      (∃ t, step { idle with host := [.command 0x20000AB#26] } = .next t) ∧ (∃ t, step State.reset = .next t) ∧
      (∃ t, step beforeLatch = .next t) ∧ (∃ t, step beforeSample = .next t) ∧ ∃ t, step inPulse = .next t := by
  refine ⟨idle_atRest, hold_atRest,
    ⟨rfl, Nat.zero_le _, ⟨rfl, rfl, rfl⟩, rfl, rfl, rfl, rfl, fun h => nomatch h⟩,
    ⟨rfl, by decide, rfl, rfl, fun h => (nomatch h), 0x0000#16, rfl, rfl, rfl, nofun, by decide, nofun⟩,
    ⟨rfl, by decide, rfl, rfl, fun _ => ⟨rfl, by decide⟩, fun _ => rfl, fun _ => rfl, fun _ => rfl, 0x0000#16, rfl, rfl,
      rfl, fun _ => rfl, by decide, fun _ => rfl⟩,
    ⟨rfl, by decide, rfl, rfl, fun h => (nomatch h), fun _ => rfl, fun _ => rfl, fun _ => rfl, 0x0000#16, 0xAB#8, rfl,
      rfl, ⟨rfl, rfl, fun _ => rfl, by decide, fun _ => rfl⟩, by decide,
      fun _ => ⟨rfl, rfl, rfl, nofun, 0, rfl, Nat.le_refl _, nofun⟩⟩,
    ⟨_, rfl⟩, ⟨_, rfl⟩, ⟨_, rfl⟩, ⟨_, rfl⟩, _, rfl⟩

theorem witness_ScriptRunsItsCommands :
    idle.ctrl.phase = .ready ∧ idle.rst = [] ∧
      ({ idle with host := script [.write 0x0000 0xAB, .read 0x0000 0x00] ++ [.idle 5] } : State).host =
        script [.write 0x0000 0xAB, .read 0x0000 0x00] ++ [.idle 5] := ⟨rfl, rfl, rfl⟩

/-- The clocks low and high. -/
theorem witness_ChainShiftsAndTransfersOnRisingEdges :
    idle.ctrl.sclk = false ∧ ({ idle with ctrl.sclk := true } : State).ctrl.sclk = true ∧ idle.ctrl.rclk = false ∧
      ({ idle with ctrl.rclk := true } : State).ctrl.rclk = true := by decide

theorem witness_DataBusUopsDriveTheirLines : (∀ i : Fin 8, idle.ctrl.dir[i] = .input) ∧ (1 : Fin 8) ≠ 0 := by decide

/-- A line that CTRL drives, known and unknown; and a floating line. -/
theorem witness_SampleReadsTheLine_undriven :
    inPulse.ctrl.dir[(0 : Fin 8)] = .output ∧ inPulse.ctrl.dout[(0 : Fin 8)] = some true ∧
      ({ inPulse with ctrl.dout := Bits.unknown 8 } : State).ctrl.dout[(0 : Fin 8)] = none ∧
      idle.ctrl.dir[(0 : Fin 8)] = .input ∧ idle.ctrl.ceN = true := by decide

/-- A line that the device drives: its byte's bit, and an unknown and an out-of-range address. -/
theorem witness_SampleReadsTheLine_driven :
    hold.ctrl.dir[(0 : Fin 8)] = .input ∧ hold.ctrl.ceN = false ∧ hold.ctrl.oeN = false ∧ hold.ctrl.weN = true ∧
      hold.dev.busyUntil ≤ (ctrlStep (.sample 0) hold).now ∧
      hold.cfg.tAccessDev ≤ (ctrlStep (.sample 0) hold).now - hold.dev.lastSelChange ∧
      hold.chain.storage = Bits.ofBitVec 0x0000#16 ∧ hold.cfg.reaches 0x0000#16 ∧
      Bits.known ({ hold with chain := Chain.reset } : State).chain.storage = false ∧ ¬hold.cfg.reaches 0x0800#16 :=
  ⟨by decide, rfl, rfl, rfl, Nat.zero_le _, Nat.zero_le _, rfl, .inl (by decide), by decide,
    fun h => h.elim (fun h => absurd h (by decide)) nofun⟩

/-- The device busy at the sample, and its output not yet valid, whatever the gap drawn. -/
theorem witness_SampleReadsTheLine_early :
    (ctrlStep (.sample 0) { hold with dev.busyUntil := Config.freeTime 0 + 1 }).now < Config.freeTime 0 + 1 ∧
      (ctrlStep (.sample 0) { hold with cfg.tAccessDev := Config.freeTime 0 + 1 }).now - hold.dev.lastSelChange <
        Config.freeTime 0 + 1 := by
  have h1 : hold.now = 0 := rfl
  have h2 : hold.draws = 0 := rfl
  have h3 : hold.dev.lastSelChange = 0 := rfl
  simp only [ctrlStep, devReact_now, advanceUpc_now, execUop, State.sample]
  constructor <;> split <;> simp [h1, h2, h3]

theorem witness_WaitTakesItsTime : idle.pulseInStep ∧ inPulse.pulseInStep := ⟨rfl, rfl⟩

theorem witness_DoneRespondsAndEndsTheCommand :
    ({ idle with ctrl.phase := .read } : State).ctrl.phase = .read ∧ inPulse.ctrl.phase = .write ∧
      ({ idle with ctrl.phase := .latch } : State).ctrl.phase = .latch ∧ State.reset.ctrl.phase = .startup ∧
      State.reset.pulseInStep := ⟨rfl, rfl, rfl, rfl, rfl⟩

/-- `inPulse` before its WE is asserted. -/
def beforePulse : State :=
  { inPulse with ctrl := { inPulse.ctrl with upc := 63, weN := true }, dev := Dev.launch }

theorem witness_PulseStartCaptures :
    beforePulse.afterEvent (ctrlStep (.setWe .asserted) beforePulse) ∧ beforePulse.dev.pulseActive = false ∧
      (ctrlStep (.setWe .asserted) beforePulse).ctrl.ceN = false ∧
      (ctrlStep (.setWe .asserted) beforePulse).ctrl.weN = false := ⟨.inl ⟨_, rfl⟩, rfl, rfl, rfl⟩

/-- An event that changes a driven bit, and one that changes nothing. -/
theorem witness_UnstablePulseIsMarked :
    inPulse.afterEvent (ctrlStep (.setDir .input) inPulse) ∧ inPulse.dev.pulseActive = true ∧
      (ctrlStep (.setDir .input) inPulse).ctrl.ceN = false ∧ (ctrlStep (.setDir .input) inPulse).ctrl.weN = false ∧
      inPulse.ctrl.dir ≠ (ctrlStep (.setDir .input) inPulse).ctrl.dir ∧
      inPulse.chain.storage = (ctrlStep (.wait 10) inPulse).chain.storage ∧
      inPulse.ctrl.dir = (ctrlStep (.wait 10) inPulse).ctrl.dir ∧
      inPulse.ctrl.dout = (ctrlStep (.wait 10) inPulse).ctrl.dout :=
  ⟨.inl ⟨_, rfl⟩, rfl, by decide, by decide, by decide, by decide, by decide, by decide⟩

/-- A pulse ended by WE, by CE and by a reset. -/
theorem witness_PulseEndStartsTheBusyWindow :
    inPulse.dev.pulseActive = true ∧ inPulse.afterEvent (ctrlStep (.setWe .deasserted) inPulse) ∧
      (ctrlStep (.setWe .deasserted) inPulse).ctrl.weN = true ∧ (ctrlStep (.setCe .deasserted) inPulse).ctrl.ceN = true ∧
      inPulse.afterEvent inPulse.resetEvent ∧ inPulse.resetEvent.ctrl.ceN = true :=
  ⟨rfl, .inl ⟨_, rfl⟩, by simp [ctrlStep, execUop, advanceUpc, State.setWe, Drive.level],
    by simp [ctrlStep, execUop, advanceUpc, State.setCe, Drive.level], .inr rfl, by simp [State.resetEvent, Ctrl.reset]⟩

/-- `inPulse` with a device that needs exactly the width drawn for its pulse, or one µs more. -/
def wideAs (w : Nat) : State := { inPulse with cfg.tWpDev := w }

theorem witness_PulseEndCommits :
    (wideAs (Config.freeTime 0)).memInv ∧ (wideAs (Config.freeTime 0)).dev.pulseActive = true ∧
      (wideAs (Config.freeTime 0)).dev.pulseBusyAtStart = some false ∧
      (wideAs (Config.freeTime 0)).dev.pulseAddr = Bits.ofBitVec 0x0000#16 ∧
      (wideAs (Config.freeTime 0)).cfg.reaches 0x0000#16 ∧ (wideAs (Config.freeTime 0)).dev.pulseUnstable = false ∧
      (wideAs (Config.freeTime 0)).dev.pulseStart = some 0 ∧
      (wideAs (Config.freeTime 0)).dev.pulseData = Bits.ofBitVec 0xAB#8 ∧
      Config.freeTime 0 ≤ (ctrlStep (.setWe .deasserted) (wideAs (Config.freeTime 0))).now - 0 := by
  refine ⟨⟨rfl, rfl⟩, rfl, rfl, rfl, .inl (by decide), rfl, rfl, rfl, ?_⟩
  have h1 : (wideAs (Config.freeTime 0)).now = 0 := rfl
  have h2 : (wideAs (Config.freeTime 0)).draws = 0 := rfl
  simp [ctrlStep, execUop, State.setWe, h1, h2]

/-- Each branch of R58 that corrupts: busy at the start; out of range; unstable; too short; a line not driven. -/
theorem witness_PulseEndDraws :
    (inPulse.memInv ∧ inPulse.dev.pulseActive = true ∧ inPulse.dev.pulseAddr = Bits.ofBitVec 0x0000#16 ∧
      inPulse.cfg.reaches 0x0000#16) ∧
      (({ inPulse.dev with pulseBusyAtStart := some true, wcAddr := Bits.ofBitVec 0x0001#16 } : Dev).pulseBusyAtStart =
        some true) ∧
      (inPulse.dev.pulseBusyAtStart = some false ∧ ¬inPulse.cfg.reaches 0x0800#16) ∧
      (({ inPulse.dev with pulseUnstable := true } : Dev).pulseUnstable = true ∧
        (ctrlStep (.setWe .deasserted) inPulse).chain.storage = Bits.ofBitVec 0x0000#16) ∧
      (inPulse.dev.pulseUnstable = false ∧ inPulse.dev.pulseStart = some 0 ∧
        (ctrlStep (.setWe .deasserted) (wideAs (Config.freeTime 0 + 1))).now - 0 < Config.freeTime 0 + 1) ∧
      Bits.known ({ inPulse.dev with pulseData := Bits.unknown 8 } : Dev).pulseData = false := by
  refine ⟨⟨⟨rfl, rfl⟩, rfl, rfl, .inl (by decide)⟩, rfl,
    ⟨rfl, fun h => h.elim (fun h => absurd h (by decide)) nofun⟩, ⟨rfl, ?_⟩, ⟨rfl, rfl, ?_⟩, by decide⟩
  · simp only [ctrlStep, devReact_chain]
    decide
  · have h1 : (wideAs (Config.freeTime 0 + 1)).now = 0 := rfl
    have h2 : (wideAs (Config.freeTime 0 + 1)).draws = 0 := rfl
    simp [ctrlStep, execUop, State.setWe, h1, h2]

/-- `inPulse` with the mark of an unstable pulse, ended by a reset. -/
theorem witness_UnstablePulseAtNoAddressDraws :
    let s : State := { inPulse with dev.pulseUnstable := true }
    s.afterEvent s.resetEvent ∧ s.dev.pulseActive = true ∧ s.resetEvent.ctrl.ceN = true ∧
      s.dev.pulseAddr = Bits.ofBitVec 0x0000#16 ∧ s.dev.pulseBusyAtStart = some false ∧ s.cfg.reaches 0x0000#16 ∧
      s.dev.pulseUnstable = true ∧ Bits.known s.resetEvent.chain.storage = false :=
  ⟨.inr rfl, rfl, by simp [State.resetEvent, Ctrl.reset], rfl, rfl, .inl (by decide), rfl,
    by rw [State.resetEvent_chain]; decide⟩

/-- A change of CE, of a wired address line, and no change. -/
theorem witness_SelectChangeIsTimed :
    hold.ctrl.ceN ≠ (ctrlStep (.setCe .deasserted) hold).ctrl.ceN ∧
      (∃ i : Fin 16, i.val < idle.cfg.addrBits ∧
        idle.chain.storage[i] ≠ (ctrlStep (.setRclk true) { idle with chain.shift := hold.chain.shift }).chain.storage[i]) ∧
      hold.ctrl.ceN = (ctrlStep (.wait 0) hold).ctrl.ceN ∧ hold.ctrl.oeN = (ctrlStep (.wait 0) hold).ctrl.oeN ∧
      hold.chain.storage = (ctrlStep (.wait 0) hold).chain.storage := by decide

theorem witness_LatchIsExact : idle.ctrl.sclk = false ∧ idle.ctrl.rclk = false := by decide

theorem witness_EndStates :
    idle.rst = [] ∧ idle.ctrl.sclk = false ∧ idle.ctrl.rclk = false ∧ idle.cfg.readExitDeassert = false ∧
      ({ idle with cfg.readExitDeassert := true } : State).cfg.readExitDeassert = true := by decide

/-- The frames' hypotheses, from Idle and from read hold. -/
theorem witness_frames : idle.atRest ∧ idle.rst = [] ∧ hold.atRest ∧ hold.rst = [] :=
  ⟨idle_atRest, rfl, hold_atRest, rfl⟩

theorem witness_WriteFrame : idle.atRest ∧ idle.rst = [] ∧ idle.memInv ∧ idle.deviceFree ∧ idle.cfg.reaches 0x07FF#16 ∧
    0x000 ≠ idle.cfg.cellOf 0x07FF#16 :=
  ⟨idle_atRest, rfl, idle_memInv, idle_deviceFree, reaches_boundary.2.1, by decide⟩

theorem witness_ReadAnswersTheStoredByte :
    hold.atRest ∧ hold.rst = [] ∧ hold.cfg.tAccessDev ≤ hold.cfg.tReadAccess ∧ hold.deviceFree ∧
      hold.cfg.reaches 0x07FF#16 ∧ aliasing.atRest ∧ aliasing.deviceFree ∧ aliasing.cfg.reaches 0x0800#16 :=
  ⟨hold_atRest, rfl, Nat.le_refl _, Nat.le_refl _, reaches_boundary.2.1, aliasing_atRest, Nat.le_refl _, .inr rfl⟩

theorem witness_WriteStoresTheByte :
    idle.atRest ∧ idle.rst = [] ∧ idle.memInv ∧ idle.deviceFree ∧ idle.cfg.reaches 0x07FF#16 ∧
      idle.cfg.tWpDev ≤ idle.cfg.tStrobe ∧ idle.cfg.tWcDev ≤ idle.cfg.tRecovery :=
  ⟨idle_atRest, rfl, idle_memInv, idle_deviceFree, reaches_boundary.2.1, Nat.le_refl _, Nat.le_refl _⟩

/-- The first address past the range, in both modes. -/
theorem witness_OutOfRangeAddress :
    (idle.atRest ∧ idle.rst = [] ∧ idle.memInv ∧ idle.deviceFree ∧ idle.cfg.CfgOk ∧
        idle.cfg.addrSpace ≤ (0x0800#16).toNat ∧ idle.cfg.oorMode = .undefinedResult) ∧
      aliasing.atRest ∧ aliasing.rst = [] ∧ aliasing.memInv ∧ aliasing.deviceFree ∧ aliasing.cfg.CfgOk ∧
        aliasing.cfg.addrSpace ≤ (0x0800#16).toNat ∧ aliasing.cfg.oorMode = .aliased :=
  ⟨⟨idle_atRest, rfl, idle_memInv, idle_deviceFree, reference_cfgOk, by decide, rfl⟩, aliasing_atRest, rfl, ⟨rfl, rfl⟩,
    Nat.le_refl _, aliasing_cfgOk, by decide, rfl⟩

/-- A cell that already holds the byte; the repeated write has the same hypotheses. -/
theorem witness_RewritingTheSameByte :
    idle.atRest ∧ idle.rst = [] ∧ idle.memInv ∧ idle.deviceFree ∧ idle.cfg.reaches 0x0010#16 ∧ idle.cfg.CfgOk ∧
      idle.cfg.tWpDev ≤ idle.cfg.tStrobe ∧
      Memory.read idle.dev.mem (idle.cfg.cellOf 0x0010#16) = Config.mem0 0x010 :=
  ⟨idle_atRest, rfl, idle_memInv, idle_deviceFree, .inl (by decide), reference_cfgOk, Nat.le_refl _, rfl⟩

theorem witness_WriteThenRead :
    idle.atRest ∧ idle.rst = [] ∧ idle.memInv ∧ idle.cfg.CfgOk ∧ idle.deviceFree ∧ idle.cfg.reaches 0x0000#16 ∧
      ∀ i ∈ [Instr.latch 0x0001 0x00, Instr.read 0x0002 0x00], i.isWrite = false :=
  ⟨idle_atRest, rfl, idle_memInv, reference_cfgOk, idle_deviceFree, reaches_boundary.1, by decide⟩

theorem witness_EraseAllErasesEveryCell :
    idle.atRest ∧ idle.rst = [] ∧ idle.memInv ∧ idle.cfg.CfgOk ∧ idle.deviceFree ∧ 0x7FF < idle.cfg.addrSpace :=
  ⟨idle_atRest, rfl, idle_memInv, reference_cfgOk, idle_deviceFree, by decide⟩

theorem witness_SafeEntry :
    ∃ us, us = readTable idle.cfg (Bits.ofBitVec 0x0000#16) ∨ us = writeTable idle.cfg (Bits.ofBitVec 0x0000#16) :=
  ⟨_, .inl rfl⟩

theorem witness_EnableOrder : idle.ctrl.sclk = false ∧ idle.ctrl.rclk = false := by decide

/-- The clauses' boundary values of `n`, each a plan the state may hold. -/
theorem witness_ResetWithinTheWritePulse :
    ∀ n ∈ [1, 64, 65, 66, 67, 69],
      ({ idle with rst := [n] } : State).atRest ∧ ({ idle with rst := [n] } : State).memInv ∧
        ({ idle with rst := [n] } : State).deviceFree ∧ ({ idle with rst := [n] } : State).cfg.reaches 0x0000#16 ∧
        ({ idle with rst := [n] } : State).rst = n :: [] ∧ idle.cfg.tWpDev ≤ idle.cfg.tStrobe :=
  fun _ _ => ⟨idle_atRest, idle_memInv, idle_deviceFree, reaches_boundary.1, rfl, Nat.le_refl _⟩

/-- `hold` with the last address of the range shifted in. -/
def shiftedIn : State := { hold with chain.shift := Bits.ofBitVec 0x07FF#16 }

theorem witness_LatchMovesTheDrivenOutput :
    shiftedIn.ctrl.readHold ∧ shiftedIn.ctrl.rclk = false ∧ shiftedIn.dev.pulseActive = false ∧
      shiftedIn.chain.shift = Bits.ofBitVec 0x07FF#16 ∧
      (∃ i : Fin 16, i.val < shiftedIn.cfg.addrBits ∧
        shiftedIn.chain.storage[i] ≠ (ctrlStep (.setRclk true) shiftedIn).chain.storage[i]) ∧
      (ctrlStep (.setRclk true) shiftedIn).dev.busyUntil ≤ (ctrlStep (.setRclk true) shiftedIn).now + 0 ∧
      (ctrlStep (.setRclk true) shiftedIn).cfg.tAccessDev ≤
        (ctrlStep (.setRclk true) shiftedIn).now + 0 - (ctrlStep (.setRclk true) shiftedIn).dev.lastSelChange ∧
      (ctrlStep (.setRclk true) shiftedIn).cfg.reaches 0x07FF#16 :=
  ⟨⟨rfl, rfl, rfl, rfl⟩, rfl, rfl, rfl, by decide, Nat.zero_le _, Nat.zero_le _, .inl (by decide)⟩

/-- A table word placed by `withFetchWord` runs in the very next step after reset, for each row of the table (log 15).
-/
theorem test_withFetchWord_runs :
    (step (State.reset.withFetchWord 32 0x1000000) =
        exec (.read 0x0000 0x00) { State.reset with ctrl := { State.reset.ctrl with phase := .ready, upc := 0 } }) ∧
      (step (State.reset.withFetchWord 32 0x20000AB) =
        exec (.write 0x0000 0xAB) { State.reset with ctrl := { State.reset.ctrl with phase := .ready, upc := 0 } }) ∧
      step (State.reset.withFetchWord 32 0x307FF00) =
        exec (.latch 0x07FF 0x00) { State.reset with ctrl := { State.reset.ctrl with phase := .ready, upc := 0 } } :=
  ⟨rfl, rfl, rfl⟩

end Sys2Proof.Tests
end

namespace Sys2Proof.Machine

/-! ## The sticky marks (R41)

Faults and refusals only grow, and no mark comes twice: the invariant of every event, every command, every step and so
of every run. -/

/-- Raising codes adds no code twice (R201). -/
theorem addMarks_codes_nodup (e : Nat) {l : List FaultMark} (fs : List FaultCode) (h : (l.map FaultMark.code).Nodup) :
    ((addMarks e l fs).map FaultMark.code).Nodup := by
  induction fs generalizing l with
  | nil => exact h
  | cons f fs ih =>
    rw [addMarks, List.contains_eq_mem]
    refine ih ?_
    by_cases hf : f ∈ l.map FaultMark.code
    · rw [decide_eq_true hf]
      simpa using h
    · rw [decide_eq_false hf]
      simpa using h.concat hf

theorem markIf_codes_nodup {b : Bool} {f : FaultCode} {e : Nat} {l : List FaultMark}
    (h : (l.map FaultMark.code).Nodup) : ((markIf b f e l).map FaultMark.code).Nodup :=
  addMarks_codes_nodup e _ h

theorem State.refuse_refused (r : RefusalReason) (s : State) :
    (s.refuse r).refused = s.refused ++ if r ∈ s.refused then [] else [r] := by
  unfold State.refuse
  split <;> simp

/-- From `s` to `t` both sets of marks only grow, and neither gets an element twice (R41). -/
structure MarksGrow (s t : State) : Prop where
  faults : s.faults <+: t.faults
  refused : s.refused <+: t.refused
  codes_nodup : (s.faults.map FaultMark.code).Nodup → (t.faults.map FaultMark.code).Nodup
  refused_nodup : s.refused.Nodup → t.refused.Nodup

theorem MarksGrow.of_eq {s t : State} (hf : t.faults = s.faults) (hr : t.refused = s.refused) : MarksGrow s t where
  faults := by rw [hf]
  refused := by rw [hr]
  codes_nodup h := by rwa [hf]
  refused_nodup h := by rwa [hr]

theorem MarksGrow.trans {s t u : State} (h : MarksGrow s t) (g : MarksGrow t u) : MarksGrow s u where
  faults := h.faults.trans g.faults
  refused := h.refused.trans g.refused
  codes_nodup := g.codes_nodup ∘ h.codes_nodup
  refused_nodup := g.refused_nodup ∘ h.refused_nodup

theorem marksGrow_ctrlStep (u : Uop) (s : State) : MarksGrow s (ctrlStep u s) where
  faults := (ctrlStep_grows u s).1
  refused := by rw [ctrlStep_refused]
  codes_nodup h := by
    rw [ctrlStep_faults]
    exact markIf_codes_nodup (markIf_codes_nodup (markIf_codes_nodup (markIf_codes_nodup (markIf_codes_nodup h))))
  refused_nodup h := by rwa [ctrlStep_refused]

theorem marksGrow_refuse (r : RefusalReason) (s : State) : MarksGrow s (s.refuse r) where
  faults := by rw [State.refuse_faults]
  refused := by
    rw [State.refuse_refused]
    exact List.prefix_append _ _
  codes_nodup h := by rwa [State.refuse_faults]
  refused_nodup h := by
    rw [State.refuse_refused]
    by_cases hr : r ∈ s.refused
    · simpa [hr] using h
    · simpa [hr] using h.concat hr

/-- A reset removes no mark and adds none (R230). -/
theorem marksGrow_resetEvent (s : State) : MarksGrow s s.resetEvent :=
  .of_eq (State.resetEvent_faults s) (State.resetEvent_refused s)

theorem marksGrow_runCommand (ph : Phase) (op : BitVec 2) (a : Addr) (d : Byte) (s : State) :
    MarksGrow s (runCommand ph op a d s) :=
  runCommand_keeps (P := MarksGrow s)
    (fun ph op a d x h => h.trans (.of_eq (accept_ran ph op a d x).faults (accept_ran ph op a d x).refused))
    (fun u x h => h.trans (marksGrow_ctrlStep u x)) (fun x h => h.trans (marksGrow_resetEvent x)) (.of_eq rfl rfl)

theorem marksGrow_acceptReserved (w : CmdWord) (s : State) : MarksGrow s (s.acceptReserved w) :=
  have hevent : MarksGrow s (s.acceptEvent (opField w) (addrField w) (dataField w)) := .of_eq rfl rfl
  hevent.trans (marksGrow_refuse .reservedOp _)

theorem marksGrow_step {s t : State} (h : step s = .next t) : MarksGrow s t := by
  -- HOST's move is taken off its script first, which leaves the marks alone.
  have hhost (rest : List HostMove) : MarksGrow s { s with host := rest } := .of_eq rfl rfl
  rcases step_cases h with ⟨-, rfl⟩ | ⟨-, -, u, -, rfl⟩ | ⟨-, -, hready⟩
  · exact marksGrow_resetEvent s
  · exact marksGrow_ctrlStep u s
  · rcases hready with ⟨-, rfl⟩ | ⟨d, rest, -, rfl⟩ | ⟨w, i, rest, -, -, rfl⟩ | ⟨w, e, rest, -, -, rfl⟩
    · exact .of_eq rfl rfl
    · exact (hhost rest).trans (.of_eq rfl rfl)
    · exact (hhost rest).trans (marksGrow_runCommand ..)
    · exact (hhost rest).trans (marksGrow_acceptReserved w _)

theorem marksGrow_run {s t : State} {n : Nat} (h : run n s = .next t) : MarksGrow s t :=
  run_keeps (P := MarksGrow s) (fun _ _ hx hstep => hx.trans (marksGrow_step hstep)) h (.of_eq rfl rfl)

/-- A mark set before is set after, and a marked state is not final (R111). -/
theorem MarksGrow.not_final {s t : State} (h : MarksGrow s t) (hm : s.faults ≠ [] ∨ s.refused ≠ []) : ¬t.final := by
  rintro ⟨-, hfaults, hrefused, -⟩
  rcases hm with hm | hm
  · exact h.faults.ne_nil hm hfaults
  · exact h.refused.ne_nil hm hrefused

/-- Settles O20: no step removes or doubles a mark, and by induction over the run a marked state reaches no final one.
-/
theorem marksAreSticky : Obligations.MarksAreSticky := by
  refine ⟨rfl, rfl, fun s t h => ?_, fun s t n hm h => (marksGrow_run h).not_final hm⟩
  obtain ⟨hfaults, hrefused, hcodes, hreasons⟩ := marksGrow_step h
  exact ⟨hfaults, hrefused, hcodes, hreasons⟩

end Sys2Proof.Machine

namespace Sys2Proof.Machine

/-! ## The end of a write pulse (R58, R59) -/

/-- The device is busy at `d` past the current time exactly where that is below `busy_until` (R36). -/
theorem State.hostIdle_busy (d : Nat) (s : State) : (s.hostIdle d).busy = true ↔ s.now + d < s.dev.busyUntil := by
  rw [State.busy, decide_eq_true_iff]
  rfl

/-- An event that ends a pulse changes, but for the array and the select time, what R59 names and no more. -/
theorem Reacted.dev_of_pulseEnd {s x t : State} (e : Reacted s x t) (hactive : s.dev.pulseActive = true)
    (hend : t.ctrl.ceN = true ∨ t.ctrl.weN = true) :
    t.dev =
      { s.dev with
        mem := t.dev.mem
        busyUntil := t.now + s.cfg.tWcDev
        wcAddr := s.dev.pulseAddr
        pulseActive := false
        pulseUnstable := false
        lastSelChange := t.dev.lastSelChange } := by
  have ht : t.dev = x.pulseEnd.dev := congrArg State.dev (e.eq_pulseEnd s t x hactive hend)
  rw [ht, pulseEnd_dev, e.now, e.cfg, e.dev]

/-- Settles O37: the event's reaction is `State.pulseEnd`, whatever the event. -/
theorem pulseEndStartsTheBusyWindow : Obligations.PulseEndStartsTheBusyWindow := by
  intro s t hevent hactive hend
  obtain ⟨x, e⟩ := reacted_of_afterEvent s t hevent
  exact ⟨e.dev_of_pulseEnd hactive hend, fun d => t.hostIdle_busy d⟩

/-! ## Commands that leave the array (R64) -/

theorem ReadBetween.mem {s t : State} {a : Addr} {u v : Byte} (h : ReadBetween s t a u v) :
    t.dev.mem = s.dev.mem := by
  obtain ⟨d, ran⟩ := h.ran
  rw [ran.dev]

/-- A WRITE's busy window begins where its pulse ends, whatever the pulse stored (R59). -/
theorem WriteBetween.busyWindow {s t w : State} {a : Addr} {d : Byte} {b : Nat} {evs1 : List Event} {k : EventKind}
    {dw x dr y z : Nat} (h : WriteBetween s t w a d b evs1 k dw x dr y z) :
    t.dev.busyUntil = w.now + s.cfg.tWcDev ∧ t.dev.wcAddr = Bits.ofBitVec a := by
  rw [h.dev, pulseEnd_dev, h.wcfg, h.addr]
  exact ⟨rfl, rfl⟩

/-- Settles O50: READ writes no cell, and the one COMMIT of such a WRITE writes the byte that is there. -/
theorem rewritingTheSameByte : Obligations.RewritingTheSameByte := by
  intro s a d hrest hrst
  constructor
  · obtain ⟨t, v, hrun, hread⟩ := read_between a d hrest hrst
    exact ⟨t, hrun, hread.mem⟩
  · intro hmem hfree hreach hwidth hbyte
    obtain ⟨t, w, b, _, _, _, _, _, _, _, h⟩ := write_between' a d hrest hrst
    have hend : s.now ≤ w.now := h.beg.trans ((Nat.le_add_right b s.cfg.tStrobe).trans h.strobe)
    exact ⟨t, w.now, h.run, h.mem_same hmem hfree hreach hwidth hbyte, h.pins, hend, h.busyWindow⟩

end Sys2Proof.Machine

namespace Sys2Proof.Machine

/-! ## Acceptance (R83, R104) -/

theorem accept_trace (ph : Phase) (op : BitVec 2) (a : Addr) (d : Byte) (s : State) :
    (s.accept ph op a d).trace = s.trace ++ [⟨.accept op a d, (s.accept ph op a d).now⟩] := rfl

/-- A table's run only appends to the trace, cut by a reset or not. -/
theorem runTable_trace_grows (us : List Uop) (s : State) : s.trace <+: (runTable us s).trace := by
  refine runTable_keeps (P := fun x => s.trace <+: x.trace) (fun u x h => ?_) (fun x h => ?_) us List.prefix_rfl
  · obtain ⟨-, htrace, -⟩ := ctrlStep_grows u x
    exact h.trans htrace
  · obtain ⟨-, htrace⟩ := resetEvent_grows x
    exact h.trans htrace

/-- A command's first event is its ACCEPT. -/
theorem runCommand_trace (ph : Phase) (op : BitVec 2) (a : Addr) (d : Byte) (s : State) :
    ∃ evs, (runCommand ph op a d s).trace = s.trace ++ ⟨.accept op a d, (s.accept ph op a d).now⟩ :: evs := by
  obtain ⟨evs, hevs⟩ := runTable_trace_grows (s.accept ph op a d).pendingUops (s.accept ph op a d)
  exact ⟨evs, by rw [runCommand, ← hevs, accept_trace, List.append_assoc, List.singleton_append]⟩

/-- Settles O14: a decoded command's three parts are the word's fields, acceptance latches them, and what the command
runs after its ACCEPT only appends to the trace. -/
theorem acceptLatchesTheOperands : Obligations.AcceptLatchesTheOperands := by
  intro s w i hdecode
  obtain ⟨hop, haddr, hdata⟩ := decode_fields hdecode
  have haccept := accept_ran i.phase i.op i.addr i.data s
  obtain ⟨evs, htrace⟩ := runCommand_trace i.phase i.op i.addr i.data s
  refine ⟨?_, accept_chain .., accept_dev .., haccept.faults, _, _, evs, exec_next i s, haccept.now_le, ?_⟩
  · rw [Instr.accepted, accept_ctrl, haddr, hdata, addrField, dataField]
  · rw [htrace, hop, haddr, hdata, opField, addrField, dataField]

end Sys2Proof.Machine

namespace Sys2Proof.Machine

/-! ## DONE (R107) -/

theorem ctrlStep_done_ctrl (s : State) : (ctrlStep .done s).ctrl = { s.ctrl with phase := .ready, upc := 0 } :=
  ctrl_fixed rfl s

theorem ctrlStep_done_chain (s : State) : (ctrlStep .done s).chain = s.chain := by
  rw [chain_fixed rfl, react_done]

/-- "Pins are unchanged" (R107), so the device sees nothing to react to. -/
theorem ctrlStep_done_dev {s : State} (hpulse : s.pulseInStep) : (ctrlStep .done s).dev = s.dev := by
  obtain ⟨_, e⟩ := reacted_of_afterEvent s (ctrlStep .done s) (.inl ⟨.done, rfl⟩)
  have hctrl := ctrlStep_done_ctrl s
  obtain ⟨hdev, -⟩ := e.still hpulse (by rw [hctrl]) (by rw [hctrl]) (by rw [hctrl]) (ctrlStep_done_chain s)
    (by rw [hctrl]) (by rw [hctrl])
  exact hdev

/-- DONE's own events, before the device's reaction. -/
theorem execUop_done_trace (s : State) :
    (execUop .done s.beginEvent).trace =
      s.trace ++ (s.ctrl.records .done).map fun k => ⟨k, (execUop .done s.beginEvent).now⟩ := by
  obtain ⟨-, hnow, -, htrace⟩ := execUop_plain (u := .done) rfl s.beginEvent
  rw [htrace, hnow]
  rfl

theorem Ctrl.records_done_of_startup {c : Ctrl} (h : c.phase = .startup) : c.records .done = [] := if_pos h

theorem Ctrl.records_done {c : Ctrl} (h : c.phase ≠ .startup) : c.records .done = [.rsp c.phase c.response] :=
  if_neg h

/-- Outside STARTUP the response is recorded, whatever the device then does. -/
theorem recorded_done {s : State} (h : s.ctrl.phase ≠ .startup) :
    s.recorded (ctrlStep .done s) (.rsp s.ctrl.phase s.ctrl.response) := by
  apply recorded_of_execUop
  rw [execUop_done_trace, Ctrl.records_done h, List.map_singleton]

theorem ctrlStep_done_trace_of_startup {s : State} (hphase : s.ctrl.phase = .startup) (hpulse : s.pulseInStep) :
    (ctrlStep .done s).trace = s.trace := by
  have hctrl := ctrlStep_done_ctrl s
  rw [ctrlStep_trace_still hpulse (by rw [hctrl]) (by rw [hctrl]), execUop_done_trace,
    Ctrl.records_done_of_startup hphase, List.map_nil, List.append_nil]

/-- Settles O33: CTRL and CHAIN from DONE's own writes, the device from the pins it leaves, the response by the phase.
-/
theorem doneRespondsAndEndsTheCommand : Obligations.DoneRespondsAndEndsTheCommand := by
  rintro s t rfl
  have hrsp : ∀ ph, s.ctrl.phase = ph → ph ≠ .startup →
      s.recorded (ctrlStep .done s) (.rsp ph (if ph = .read then some s.ctrl.rdata else none)) := by
    rintro ph rfl hph
    exact recorded_done hph
  refine ⟨ctrlStep_done_ctrl s, ctrlStep_done_chain s, ctrlStep_done_dev, fun h => ?_, fun h => ?_, fun h => ?_,
    ctrlStep_done_trace_of_startup⟩
  · exact hrsp .read h (by decide)
  · exact hrsp .write h (by decide)
  · exact hrsp .latch h (by decide)

end Sys2Proof.Machine

namespace Sys2Proof.Machine

/-! ## The address driver (R123, R125, R128, R130, R131)

CHAIN's reaction to each clock edge, and from it the latch sequence from any state at all. -/

/-- An SCLK rising edge shifts SER's level in and holds the address lines (R123). -/
theorem react_setSclk_rising {c : Ctrl} (h : Chain) (hlow : c.sclk = false) :
    h.react c (c.after (.setSclk true)) = ⟨Bits.shiftIn h.shift (some c.ser), h.storage⟩ := by
  simp [Chain.react, Chain.shifted, Ctrl.after, hlow]

/-- SET_SCLK without a rising edge leaves CHAIN alone (R123). -/
theorem react_setSclk_of_no_edge {b : Bool} {c : Ctrl} (h : Chain) (hedge : b = true → c.sclk = true) :
    h.react c (c.after (.setSclk b)) = h := by
  cases b with
  | false => simp [Chain.react, Chain.shifted, Ctrl.after]
  | true => simp [Chain.react, Chain.shifted, Ctrl.after, hedge rfl]

/-- An RCLK rising edge puts the whole chain on the address lines (R125). -/
theorem react_setRclk_rising {c : Ctrl} (h : Chain) (hlow : c.rclk = false) :
    h.react c (c.after (.setRclk true)) = ⟨h.shift, h.shift⟩ := by
  simp [Chain.react, Chain.shifted, Ctrl.after, hlow]

/-- SET_RCLK without a rising edge leaves CHAIN alone (R125). -/
theorem react_setRclk_of_no_edge {b : Bool} {c : Ctrl} (h : Chain) (hedge : b = true → c.rclk = true) :
    h.react c (c.after (.setRclk b)) = h := by
  cases b with
  | false => simp [Chain.react, Chain.shifted, Ctrl.after]
  | true => simp [Chain.react, Chain.shifted, Ctrl.after, hedge rfl]

/-- Settles O29: the chain after SET_SCLK and SET_RCLK is its reaction to the two clocks, edge by edge. -/
theorem chainShiftsAndTransfersOnRisingEdges : Obligations.ChainShiftsAndTransfersOnRisingEdges := by
  intro s
  have hsclk (b : Bool) := chain_fixed (u := .setSclk b) rfl s
  have hrclk (b : Bool) := chain_fixed (u := .setRclk b) rfl s
  refine ⟨?_, ?_, ?_, ?_, ?_, ?_⟩
  · rintro t rfl hlow
    have hser : (ctrlStep (.setSclk true) s).ctrl.ser = s.ctrl.ser := by
      rw [ctrl_fixed rfl]
      rfl
    rw [hsclk, react_setSclk_rising s.chain hlow, hser]
    refine ⟨?_, rfl, fun k hk => ?_, rfl⟩
    · rw [Bits.getElem_shiftIn, if_pos rfl]
    · rw [Bits.getElem_shiftIn, if_neg k.succ_ne_zero]
      rfl
  · rintro t rfl hhigh
    rw [hsclk, react_setSclk_of_no_edge s.chain fun _ => hhigh]
  · rintro t rfl
    rw [hsclk, react_setSclk_of_no_edge (b := false) s.chain nofun]
  · rintro t rfl hlow
    rw [State.addressLines, hrclk, react_setRclk_rising s.chain hlow]
    exact ⟨rfl, rfl, rfl⟩
  · rintro t rfl hhigh
    rw [hrclk, react_setRclk_of_no_edge s.chain fun _ => hhigh]
  · rintro t rfl
    rw [hrclk, react_setRclk_of_no_edge (b := false) s.chain nofun]

/-! ### The latch sequence -/

/-- The first 48 µops of the latch sequence, its shifts, pulse no RCLK (R126). -/
theorem ne_setRclk_of_mem_latchBits {a : Bits 16} {ms : List (Fin 16)} {u : Uop}
    (hu : u ∈ ms.flatMap (latchBit a)) (b : Bool) : u ≠ .setRclk b := by
  obtain ⟨m, -, hm⟩ := List.mem_flatMap.mp hu
  rintro rfl
  simp [latchBit] at hm

/-- "storage keeps its old value" while the sequence shifts, from any state (R130). -/
theorem storage_before_transfer (a : Bits 16) (s : State) {k : Nat} (hk : k ≤ 48) :
    (steps ((latchSeq a).take k) s).chain.storage = s.chain.storage := by
  have htake : (latchSeq a).take k = ((List.finRange 16).flatMap (latchBit a)).take k := by
    rw [latchSeq_split, List.take_append_of_le_length]
    rwa [latchBits_len]
  rw [htake]
  exact storage_fixed _ (fun u hu => ne_setRclk_of_mem_latchBits (List.mem_of_mem_take hu)) s

/-- CTRL and CHAIN after the whole sequence (R128). -/
theorem steps_latchSeq_pins {s : State} (a : Addr) (hsclk : s.ctrl.sclk = false) (hrclk : s.ctrl.rclk = false) :
    (steps (latchSeq (Bits.ofBitVec a)) s).ctrl = { s.ctrl with ser := a.getLsbD 0, upc := s.ctrl.upc + 50 } ∧
      (steps (latchSeq (Bits.ofBitVec a)) s).chain = ⟨Bits.ofBitVec a, Bits.ofBitVec a⟩ := by
  have hpins := pins_fixed (latchSeq_fixed a) s
  rwa [latchSeq_pins a s.ctrl s.chain hsclk hrclk, Prod.mk.injEq] at hpins

/-- The event j = 48, RCLK rising, puts the address on the lines, and j = 49 keeps it there (R128, R130). -/
theorem storage_from_transfer {s : State} (a : Addr) (hsclk : s.ctrl.sclk = false) (hrclk : s.ctrl.rclk = false)
    {k : Nat} (hk : 49 ≤ k) :
    (steps ((latchSeq (Bits.ofBitVec a)).take k) s).chain.storage = Bits.ofBitVec a := by
  obtain hk | hk := Nat.eq_or_lt_of_le hk
  · subst hk
    have htake : (latchSeq (Bits.ofBitVec a)).take 49 =
        (List.finRange 16).flatMap (latchBit (Bits.ofBitVec a)) ++ [.setRclk true] := rfl
    have hpins := pins_fixed (take_fixed (latchSeq_fixed a) 49) s
    rw [htake, pinsAfter_append, latchBits_pins a _ _ _ hsclk hrclk, shifted_all, pinsAfter, pinsAfter,
      react_setRclk_rising _ (by exact hrclk), Prod.mk.injEq] at hpins
    obtain ⟨-, hchain⟩ := hpins
    rw [htake, hchain]
  · rw [List.take_of_length_le (show (latchSeq (Bits.ofBitVec a)).length ≤ k from hk)]
    obtain ⟨-, hchain⟩ := steps_latchSeq_pins a hsclk hrclk
    rw [hchain]

/-- Settles O41: sixteen shifts fill the chain, and the one RCLK rise, at j = 48, transfers it. -/
theorem latchIsExact : Obligations.LatchIsExact := by
  rintro s a hsclk hrclk t rfl
  obtain ⟨hctrl, hchain⟩ := steps_latchSeq_pins a hsclk hrclk
  exact ⟨by rw [hchain], by rw [hchain], by rw [hctrl, hsclk], by rw [hctrl, hrclk], by rw [hctrl],
    fun k hk => storage_before_transfer _ s hk, fun k hk => storage_from_transfer a hsclk hrclk hk⟩

/-- No µop of the latch sequence of a known address takes a drawn value. -/
theorem latchSeq_plain (a : Addr) : ∀ u ∈ latchSeq (Bits.ofBitVec a), u.plain = true := by
  intro u hu
  rw [latchSeq_split, List.mem_append, List.mem_flatMap] at hu
  obtain ⟨m, -, hm⟩ | hm := hu
  · rw [latchBit_eq] at hm
    revert u
    simp [Uop.plain]
  · revert u
    simp [Uop.plain]

/-- The events of the latch sequence do not depend on the state it starts in (R131). -/
theorem recordsOf_latchSeq (a : Addr) (p : Ctrl × Chain) :
    recordsOf (latchSeq (Bits.ofBitVec a)) p = latchEvents a := by
  rw [latchSeq_split, recordsOf_append, latchBits_rec]
  rfl

/-- The latch sequence has one SCLK rise for each bit, and one RCLK pulse (R131). -/
theorem countP_latchEvents (a : Addr) :
    (latchEvents a).countP (fun k => decide (k = .pin .sclk true)) = 16 ∧
      (latchEvents a).countP (fun k => decide (k = .pin .rclk true)) = 1 ∧
      (latchEvents a).countP (fun k => decide (k = .pin .rclk false)) = 1 := by
  simp [latchEvents, List.countP_flatMap, Function.comp_def]

/-- Settles O42: DEV's events left out, the trace grows by the latch sequence's own, whatever the levels were. -/
theorem serialStream : Obligations.SerialStream := by
  intro s a
  obtain ⟨evs, htrace, hkinds⟩ := kinds_steps (latchSeq_plain a) s
  rw [recordsOf_latchSeq] at hkinds
  obtain ⟨hsclk, hup, hdown⟩ := countP_latchEvents a
  refine ⟨evs, htrace, hkinds, ?_, ?_, ?_⟩
  · rw [count_filter evs _ rfl, hkinds, hsclk]
  · rw [count_filter evs _ rfl, hkinds, hup]
  · rw [count_filter evs _ rfl, hkinds, hdown]

end Sys2Proof.Machine

namespace Sys2Proof.Machine

/-! ## What WRITE and READ never assert (R152, R153)

No row of WRITE drives OE low and none of READ drives WE low, so neither level falls and neither fall is recorded, from
any state and cut by a reset or not. -/

/-- What every µop of the list keeps, the list keeps. -/
theorem steps_keeps {P : State → Prop} {us : List Uop} (hkeep : ∀ u ∈ us, ∀ x, P x → P (ctrlStep u x)) {s : State}
    (hs : P s) : P (steps us s) := by
  induction us generalizing s with
  | nil => exact hs
  | cons u us ih =>
    obtain ⟨hu, hus⟩ := List.forall_mem_cons.mp hkeep
    exact ih hus (hu s hs)

/-- What every row of a table keeps holds after `k` rows if it holds after the first `j`. -/
theorem steps_take_keeps {P : State → Prop} {us : List Uop} (hkeep : ∀ u ∈ us, ∀ x, P x → P (ctrlStep u x)) {s : State}
    {j k : Nat} (hj : P (steps (us.take j) s)) (hk : j ≤ k) : P (steps (us.take k) s) := by
  obtain ⟨m, rfl⟩ := Nat.exists_eq_add_of_le hk
  rw [List.take_add, steps_append]
  exact steps_keeps (fun u hu => hkeep u (List.mem_of_mem_drop (List.mem_of_mem_take hu))) hj

theorem oeN_ctrlStep {u : Uop} (hu : u ≠ .setOe .asserted) {s : State} (hs : s.ctrl.oeN = true) :
    (ctrlStep u s).ctrl.oeN = true := by
  have hlevels := congrArg (fun l => l.2.1) (levels_ctrlStep u s)
  cases u with
  | setOe x => cases x with
    | asserted => exact absurd rfl hu
    | deasserted => exact hlevels
  | _ => exact hlevels.trans hs

theorem weN_ctrlStep {u : Uop} (hu : u ≠ .setWe .asserted) {s : State} (hs : s.ctrl.weN = true) :
    (ctrlStep u s).ctrl.weN = true := by
  have hlevels := congrArg (fun l => l.2.2.1) (levels_ctrlStep u s)
  cases u with
  | setWe x => cases x with
    | asserted => exact absurd rfl hu
    | deasserted => exact hlevels
  | _ => exact hlevels.trans hs

theorem mayRecord_oe_fall {u : Uop} (h : u.mayRecord (.pin .oeN false)) : u = .setOe .asserted := by
  cases u with
  | setOe x => cases x with
    | asserted => rfl
    | deasserted => cases h
  | _ => simp [Uop.mayRecord] at h

theorem mayRecord_we_fall {u : Uop} (h : u.mayRecord (.pin .weN false)) : u = .setWe .asserted := by
  cases u with
  | setWe x => cases x with
    | asserted => rfl
    | deasserted => cases h
  | _ => simp [Uop.mayRecord] at h

/-- A level change of a line that no row of a command's table may record is in none of its events. -/
theorem exec_records_no_pin {n : PinName} {l : Bool} (i : Instr) (s : State)
    (hus : ∀ u ∈ i.uops s.cfg, ¬u.mayRecord (.pin n l)) :
    ∃ t, exec i s = .next t ∧ ∀ e ∈ s.newEvents t, e.kind ≠ .pin n l := by
  have hbegin : NewKinds (· ≠ .pin n l) s.trace.length s := ⟨Nat.le_refl _, by simp⟩
  have haccept := hbegin.of_append (accept_trace i.phase i.op i.addr i.data s) (by simp)
  have hrun : NewKinds (· ≠ .pin n l) s.trace.length (runCommand i.phase i.op i.addr i.data s) := by
    refine haccept.of_runTable _ ?_ fun u hu => ?_
    · rintro _ (h | h) rfl <;> cases h
    · rintro _ (h | h) rfl
      · exact hus u hu h
      · cases h
  obtain ⟨-, hnew⟩ := hrun
  exact ⟨_, exec_next i s, hnew⟩

theorem setOe_asserted_not_mem_writeTable (c : Config) (a : Bits 16) : Uop.setOe .asserted ∉ writeTable c a := by
  simp [writeTable, defensiveReset, latchSeq, latchBit, linesDown]

theorem setWe_asserted_not_mem_readTable (c : Config) (a : Bits 16) : Uop.setWe .asserted ∉ readTable c a := by
  have hexit : Uop.setWe .asserted ∉ readExit c := by
    unfold readExit
    split <;> decide
  simp [readTable, defensiveReset, latchSeq, latchBit, linesDown, hexit]

/-- Settles O57: the WRITE table has no SET_OE(ASSERTED) and the READ table no SET_WE(ASSERTED), and the defensive reset
deasserts both lines. -/
theorem writeKeepsOeAndReadKeepsWeDeasserted : Obligations.WriteKeepsOeAndReadKeepsWeDeasserted := by
  intro s a d
  have hoe : ∀ u ∈ writeTable s.cfg (Bits.ofBitVec a), u ≠ .setOe .asserted := fun u hu h =>
    setOe_asserted_not_mem_writeTable _ _ (h ▸ hu)
  have hwe : ∀ u ∈ readTable s.cfg (Bits.ofBitVec a), u ≠ .setWe .asserted := fun u hu h =>
    setWe_asserted_not_mem_readTable _ _ (h ▸ hu)
  refine ⟨exec_records_no_pin (.write a d) s fun u hu h => hoe u hu (mayRecord_oe_fall h), fun k hk => ?_,
    exec_records_no_pin (.read a d) s fun u hu h => hwe u hu (mayRecord_we_fall h), fun k hk => ?_⟩
  · refine steps_take_keeps (P := fun x => x.ctrl.oeN = true) (j := 2) (fun u hu _ => oeN_ctrlStep (hoe u hu)) ?_ hk
    exact congrArg Ctrl.oeN (ctrl_fixed (u := .setOe .deasserted) rfl _)
  · refine steps_take_keeps (P := fun x => x.ctrl.weN = true) (j := 3) (fun u hu _ => weN_ctrlStep (hwe u hu)) ?_ hk
    exact congrArg Ctrl.weN (ctrl_fixed (u := .setWe .deasserted) rfl _)

end Sys2Proof.Machine

namespace Sys2Proof.Machine

/-! ## Safe entry (R149) -/

/-- After every µop the pulse record agrees with the lines (R57), whatever it was before. -/
theorem pulseActive_ctrlStep (u : Uop) (s : State) : (ctrlStep u s).dev.pulseActive = (ctrlStep u s).ctrl.strobing := by
  obtain ⟨_, e⟩ := reacted_of_afterEvent s (ctrlStep u s) (.inl ⟨u, rfl⟩)
  exact e.pulseActive

/-- The defensive reset leaves the three control lines high, from any state at all (R146). -/
theorem steps_defensiveReset_idle (s : State) : (steps defensiveReset s).ctrl.idle := by
  have hlevels : (steps defensiveReset s).ctrl.levels = (true, true, true, s.ctrl.dir) := levels_steps defensiveReset s
  simp only [Ctrl.levels, Prod.mk.injEq] at hlevels
  obtain ⟨hce, hoe, hwe, -⟩ := hlevels
  exact ⟨hce, hoe, hwe⟩

theorem steps_defensiveReset_pulseActive (s : State) : (steps defensiveReset s).dev.pulseActive = false := by
  obtain ⟨hce, -, -⟩ := steps_defensiveReset_idle s
  have hlast : steps defensiveReset s = ctrlStep (.setWe .deasserted) (steps (defensiveReset.take 2) s) := rfl
  rw [hlast, pulseActive_ctrlStep, ← hlast, Ctrl.strobing, Ctrl.ce, hce]
  rfl

/-- With Idle pins and no pulse active a direction change adds no fault (R143, R149). -/
theorem faults_setDir_of_idle (d : Dir) {s : State} (hidle : s.ctrl.idle) (hpulse : s.dev.pulseActive = false) :
    (ctrlStep (.setDir d) s).faults = s.faults := by
  obtain ⟨hce, hoe, hwe⟩ := hidle
  have hsafe : s.ctrl.dirChangeEnabled d = false := by simp [Ctrl.dirChangeEnabled, Ctrl.oe, Ctrl.we, hoe, hwe]
  obtain ⟨hran, -, -⟩ := ran_plain (u := .setDir d) rfl hpulse hsafe (calm_of_ceN hce hoe)
  exact hran.faults

/-- Settles O55: both tables begin with the defensive reset, and the row after it is the direction change. -/
theorem safeEntry : Obligations.SafeEntry := by
  rintro s c a us hus t rfl
  obtain ⟨d, hthree, hfour⟩ : ∃ d, us.take 3 = defensiveReset ∧ us.take 4 = defensiveReset ++ [.setDir d] := by
    rcases hus with rfl | rfl
    · exact ⟨.input, rfl, rfl⟩
    · exact ⟨.output, rfl, rfl⟩
  rw [hthree, hfour, steps_append]
  have hidle := steps_defensiveReset_idle s
  have hpulse := steps_defensiveReset_pulseActive s
  have hdir := faults_setDir_of_idle d hidle hpulse
  obtain ⟨hce, hoe, hwe⟩ := hidle
  refine ⟨?_, ?_, ?_, hpulse, ?_, hdir⟩
  · rw [Ctrl.ce, hce]
    rfl
  · rw [Ctrl.oe, hoe]
    rfl
  · rw [Ctrl.we, hwe]
    rfl
  · rw [Ctrl.devDrives, Ctrl.ce, hce]
    rfl

end Sys2Proof.Machine

namespace Sys2Proof.Machine

/-! ## Strobe width and recovery time (R154, R155) -/

/-- The event drives WE, to either level. -/
def EventKind.drivesWe (k : EventKind) : Bool := decide (∃ l, k = .pin .weN l)

/-- The latch sequence leaves WE alone (R126). -/
theorem countP_drivesWe_latchEvents (a : Addr) : (latchEvents a).countP EventKind.drivesWe = 0 := by
  simp [latchEvents, List.countP_flatMap, Function.comp_def, EventKind.drivesWe]

section
variable {s t w : State} {a : Addr} {d : Byte} {b : Nat} {evs1 : List Event} {k : EventKind} {dw x dr y z : Nat}

/-- Before its pulse a WRITE drives WE once, in the defensive reset (R148). -/
theorem WriteBetween.drivesWe_before (h : WriteBetween s t w a d b evs1 k dw x dr y z) :
    evs1.countP (fun e => e.kind.drivesWe) = 1 := by
  have hkinds : evs1.countP (fun e => e.kind.drivesWe) = (evs1.map Event.kind).countP EventKind.drivesWe := by
    rw [List.countP_map]
    rfl
  rw [hkinds, h.kinds]
  simp only [List.countP_append, List.countP_cons, countP_drivesWe_latchEvents]
  rfl

/-- What DEV records at the pulse's end is no change of WE. -/
theorem WriteBetween.not_drivesWe (h : WriteBetween s t w a d b evs1 k dw x dr y z) : k.drivesWe = false := by
  rw [EventKind.drivesWe, decide_eq_false_iff_not]
  rintro ⟨l, rfl⟩
  exact nomatch h.notPin

end

/-- Settles O54: of the 71 events of a WRITE the pulse's and those after it are known, with their times. -/
theorem strobeAndRecoveryTimes : Obligations.StrobeAndRecoveryTimes := by
  intro s a d hrest hrst
  obtain ⟨t, w, b, evs1, k, dw, x, dr, y, z, h⟩ := write_between' a d hrest hrst
  have hlen := h.len
  refine ⟨t, b, w.now, t.now, h.run, ?_, ?_, ?_, ?_, h.strobe, h.recov, rfl, ?_⟩
  · rw [h.new, List.length_append, hlen]
    rfl
  · rw [h.new, List.getElem?_append_right (by omega), hlen]
    rfl
  · rw [h.new, List.getElem?_append_right (by omega), hlen]
    rfl
  · rw [h.new, List.getElem?_append_right (by omega), hlen]
    rfl
  · change ((s.newEvents t).filter fun e => e.kind.drivesWe).length = 3
    rw [← List.countP_eq_length_filter, h.new, List.countP_append, h.drivesWe_before]
    simp only [List.countP_cons, h.not_drivesWe]
    rfl

end Sys2Proof.Machine

namespace Sys2Proof.Machine

/-! ## End states (R159)

CTRL and CHAIN after each command's table, from any state with the clocks low: only READ's samples are drawn. -/

/-- CTRL and CHAIN after the LATCH table (R127). -/
theorem steps_latchTable_pins (a : Addr) {s t : State} (hsclk : s.ctrl.sclk = false) (hrclk : s.ctrl.rclk = false)
    (ht : t = steps (latchTable (Bits.ofBitVec a)) s) :
    t.ctrl = { s.ctrl with phase := .ready, upc := 0, ser := a.getLsbD 0 } ∧
      t.chain = ⟨Bits.ofBitVec a, Bits.ofBitVec a⟩ := by
  obtain ⟨hctrl, hchain⟩ := steps_latchSeq_pins a hsclk hrclk
  rw [latchTable, steps_append, steps_cons, steps_nil] at ht
  rw [ht, ctrlStep_done_ctrl, ctrlStep_done_chain, hctrl, hchain]
  exact ⟨rfl, rfl⟩

/-- CTRL and CHAIN after the WRITE table: Idle, the lines driven with the data (R148). -/
theorem steps_writeTable_pins (cfg : Config) (a : Addr) (d : Byte) {s t : State} (hsclk : s.ctrl.sclk = false)
    (hrclk : s.ctrl.rclk = false) (hdata : s.ctrl.cmdData = Bits.ofBitVec d)
    (ht : t = steps (writeTable cfg (Bits.ofBitVec a)) s) :
    t.ctrl =
        { s.ctrl with
          phase := .ready
          upc := 0
          ceN := true
          oeN := true
          weN := true
          dir := Vector.replicate 8 .output
          dout := Bits.ofBitVec d
          ser := a.getLsbD 0 } ∧
      t.chain = ⟨Bits.ofBitVec a, Bits.ofBitVec a⟩ := by
  have hpins := pins_fixed (writeTable_fixed cfg a) s
  rw [← ht, writeTable_setUp, pinsAfter_append, pinsAfter_append, setUp_pins _ a _ _ hsclk hrclk,
    douts_pins d _ _ (by exact hdata)] at hpins
  simp only [pinsAfter, react_setCe, react_setWe, react_wait, react_done] at hpins
  exact Prod.mk.inj hpins

/-- CTRL and CHAIN at the first SAMPLE of READ: read hold at the address (R147). -/
theorem steps_before_samples (cfg : Config) (a : Addr) {s : State} (hsclk : s.ctrl.sclk = false)
    (hrclk : s.ctrl.rclk = false) {t : State}
    (ht : t = steps (setUp .input (Bits.ofBitVec a) ++ [.setCe .asserted, .setOe .asserted, .wait cfg.tReadAccess]) s) :
    t.ctrl =
        { s.ctrl with
          upc := s.ctrl.upc + 57
          ceN := false
          oeN := false
          weN := true
          dir := Vector.replicate 8 .input
          ser := a.getLsbD 0 } ∧
      t.chain = ⟨Bits.ofBitVec a, Bits.ofBitVec a⟩ := by
  have hfixed : ∀ u ∈ setUp .input (Bits.ofBitVec a) ++
      [.setCe .asserted, .setOe .asserted, .wait cfg.tReadAccess], u.fixed = true := by
    rw [List.forall_mem_append]
    exact ⟨setUp_fixed .input a, by simp [Uop.fixed]⟩
  have hpins := pins_fixed hfixed s
  rw [← ht, pinsAfter_append, setUp_pins _ a _ _ hsclk hrclk] at hpins
  simp only [pinsAfter, react_setCe, react_setOe, react_wait] at hpins
  exact Prod.mk.inj hpins

/-- The end of READ (R147): both enables at the level READ_EXIT_DEASSERT names. -/
theorem steps_readExit (cfg : Config) {s : State} (hce : s.ctrl.ceN = false) (hoe : s.ctrl.oeN = false) {t : State}
    (ht : t = steps (readExit cfg) s) :
    t.ctrl =
        { s.ctrl with phase := .ready, upc := 0, ceN := cfg.readExitDeassert, oeN := cfg.readExitDeassert } ∧
      t.chain = s.chain := by
  have hfixed : ∀ u ∈ readExit cfg, u.fixed = true := by
    unfold readExit
    split <;> decide
  have hpins := pins_fixed hfixed s
  rw [← ht] at hpins
  cases hexit : cfg.readExitDeassert with
  | false =>
    simp only [readExit, hexit, Bool.false_eq_true, if_false, pinsAfter, react_done] at hpins
    obtain ⟨hctrl, hchain⟩ := Prod.mk.inj hpins
    exact ⟨by simp only [hctrl, Ctrl.after, hce, hoe], hchain⟩
  | true =>
    simp only [readExit, hexit, if_true, pinsAfter, react_setOe, react_setCe, react_done] at hpins
    exact Prod.mk.inj hpins

/-- CTRL and CHAIN after the READ table: the byte the samples gave, in read hold or Idle (R147). -/
theorem steps_readTable_pins (cfg : Config) (a : Addr) {s : State} (hsclk : s.ctrl.sclk = false)
    (hrclk : s.ctrl.rclk = false) {t : State} (ht : t = steps (readTable cfg (Bits.ofBitVec a)) s) :
    (∃ v : Byte,
      t.ctrl =
        { s.ctrl with
          phase := .ready
          upc := 0
          rdata := Bits.ofBitVec v
          ceN := cfg.readExitDeassert
          oeN := cfg.readExitDeassert
          weN := true
          dir := Vector.replicate 8 .input
          ser := a.getLsbD 0 }) ∧
      t.chain = ⟨Bits.ofBitVec a, Bits.ofBitVec a⟩ := by
  rw [readTable_setUp, ← List.append_assoc, steps_append, steps_append] at ht
  obtain ⟨hctrl1, hchain1⟩ := steps_before_samples cfg a hsclk hrclk rfl
  generalize steps (setUp .input (Bits.ofBitVec a) ++ _) s = s1 at ht hctrl1 hchain1
  obtain ⟨bs, hlen, hctrl2, hchain2⟩ := ctrl_samples linesDown s1
  generalize steps (linesDown.map Uop.sample) s1 = s2 at ht hctrl2 hchain2
  obtain ⟨hbyte, -⟩ := shiftIn_eight bs hlen s1.ctrl.rdata
  rw [hbyte, hctrl1] at hctrl2
  obtain ⟨hctrl, hchain⟩ := steps_readExit cfg (s := s2) (by rw [hctrl2]) (by rw [hctrl2]) ht
  exact ⟨⟨byteOf bs, by rw [hctrl, hctrl2]⟩, by rw [hchain, hchain2, hchain1]⟩

/-- Settles O43: each command is its table, run from the state its acceptance leaves. -/
theorem endStates : Obligations.EndStates := by
  intro s a d hrst hsclk hrclk
  refine ⟨⟨_, exec_eq_steps (.latch a d) s hrst, ?_⟩, ⟨_, exec_eq_steps (.read a d) s hrst, ?_⟩,
    ⟨_, exec_eq_steps (.write a d) s hrst, ?_⟩⟩
  · exact steps_latchTable_pins a (s := s.accept .latch 0b11#2 a d) hsclk hrclk rfl
  · generalize ht : steps (table s.cfg (Bits.ofBitVec (Instr.read a d).addr) (Instr.read a d).phase) _ = t
    obtain ⟨⟨v, hctrl⟩, hchain⟩ := steps_readTable_pins s.cfg a (s := s.accept .read 0b01#2 a d) hsclk hrclk ht.symm
    refine ⟨⟨v, hctrl⟩, hchain, fun hexit => ?_, fun hexit => ?_⟩
    · rw [hctrl, hexit]
      exact ⟨rfl, rfl, rfl, rfl⟩
    · rw [hctrl, hexit]
      exact ⟨rfl, rfl, rfl⟩
  · generalize ht : steps (table s.cfg (Bits.ofBitVec (Instr.write a d).addr) (Instr.write a d).phase) _ = t
    obtain ⟨hctrl, hchain⟩ :=
      steps_writeTable_pins s.cfg a d (s := s.accept .write 0b10#2 a d) hsclk hrclk rfl ht.symm
    refine ⟨hctrl, hchain, ?_⟩
    rw [hctrl]
    exact ⟨rfl, rfl, rfl⟩

end Sys2Proof.Machine

namespace Sys2Proof.Machine

/-! ## What is written is read back (R157) -/

/-- What READ and LATCH leave of a state between commands with no reset planned and the device free: all of that, the
configuration, the faults and the array. -/
structure Undisturbed (s t : State) : Prop where
  rest : t.atRest
  rst : t.rst = []
  free : t.deviceFree
  cfg : t.cfg = s.cfg
  faults : t.faults = s.faults
  mem : t.dev.mem = s.dev.mem

theorem exec_undisturbed {i : Instr} (hi : i.isWrite = false) {s : State} (hrest : s.atRest) (hrst : s.rst = [])
    (hfree : s.deviceFree) : ∃ t, exec i s = .next t ∧ Undisturbed s t := by
  cases i with
  | read a u =>
    obtain ⟨t, v, hrun, h⟩ := read_between a u hrest hrst
    obtain ⟨_, hran⟩ := h.ran
    exact ⟨t, hrun, h.rest, h.rst, h.free hfree, hran.cfg, hran.faults, hran.mem⟩
  | write a d => cases hi
  | latch a u =>
    obtain ⟨t, hrun, h⟩ := latch_between a u hrest hrst
    have hfree' : t.deviceFree := by
      have hbusy : t.dev.busyUntil = s.dev.busyUntil := by rw [h.ran.dev]
      rw [State.deviceFree, hbusy]
      exact Nat.le_trans hfree h.ran.now_le
    exact ⟨t, hrun, h.rest, h.rst, hfree', h.ran.cfg, h.ran.faults, h.ran.mem⟩

theorem execAll_undisturbed {is : List Instr} (his : ∀ i ∈ is, i.isWrite = false) {s : State} (hrest : s.atRest)
    (hrst : s.rst = []) (hfree : s.deviceFree) : ∃ t, execAll is s = .next t ∧ Undisturbed s t := by
  induction is generalizing s with
  | nil => exact ⟨s, rfl, hrest, hrst, hfree, rfl, rfl, rfl⟩
  | cons i is ih =>
    obtain ⟨hi, his⟩ := List.forall_mem_cons.mp his
    obtain ⟨t, hrun, h⟩ := exec_undisturbed hi hrest hrst hfree
    obtain ⟨t', hrun', h'⟩ := ih his h.rest h.rst h.free
    refine ⟨t', ?_, h'.rest, h'.rst, h'.free, h'.cfg.trans h.cfg, h'.faults.trans h.faults, h'.mem.trans h.mem⟩
    rw [execAll, hrun]
    exact hrun'

/-- A WRITE with the device free, at an address with a defined result and with a strobe the device accepts, stores its
byte (R58). -/
theorem WriteBetween.byte {s t w : State} {a : Addr} {d : Byte} {b : Nat} {evs1 : List Event} {k : EventKind}
    {dw x dr y z : Nat} (h : WriteBetween s t w a d b evs1 k dw x dr y z) (hmem : s.memInv) (hfree : s.deviceFree)
    (hreach : s.cfg.reaches a) (hwidth : s.cfg.tWpDev ≤ s.cfg.tStrobe) :
    Memory.read t.dev.mem (s.cfg.cellOf a) = d := by
  obtain ⟨hwf, -⟩ := h.inv hmem
  rw [h.tmem, h.commit hfree hreach hwidth, State.commit_dev, Memory.read_write hwf, if_pos rfl]

/-- The last event of a run is its last kind. -/
theorem Ran.getLast?_trace {s t : State} {ks : List EventKind} {k : EventKind} (h : Ran s t ks)
    (hk : ks.getLast? = some k) : ∃ n, t.trace.getLast? = some ⟨k, n⟩ := by
  obtain ⟨evs, htrace, rfl, -⟩ := h.trace
  rw [List.getLast?_map, Option.map_eq_some_iff] at hk
  obtain ⟨e, he, rfl⟩ := hk
  exact ⟨e.time, by rw [htrace, List.getLast?_append, he]; rfl⟩

/-- READ's last event is its response (R107). -/
theorem ReadBetween.getLast?_trace {s t : State} {a : Addr} {u v : Byte} (h : ReadBetween s t a u v) :
    ∃ n, t.trace.getLast? = some ⟨.rsp .read (some (Bits.ofBitVec v)), n⟩ := by
  obtain ⟨_, hran⟩ := h.ran
  refine hran.getLast?_trace ?_
  rw [exitEvents, ← List.append_assoc, ← List.cons_append, List.getLast?_concat]

/-- Settles O52: the WRITE stores the byte, the READs and LATCHes leave it there with the device free, and the READ
answers it. -/
theorem writeThenRead : Obligations.WriteThenRead := by
  intro s a d u between hrest hrst hmem hcfg hfree hreach hbetween
  obtain ⟨hwidth, hrecovery, -, haccess, -⟩ := hcfg
  obtain ⟨t1, w, _, _, _, _, _, _, _, _, h1⟩ := write_between' a d hrest hrst
  obtain ⟨t2, hrun2, h2⟩ := execAll_undisturbed hbetween h1.rest h1.rst (h1.free hrecovery)
  obtain ⟨t3, v, hrun3, h3⟩ := read_between a u h2.rest h2.rst
  obtain ⟨_, hran3⟩ := h3.ran
  have hcfg2 : t2.cfg = s.cfg := h2.cfg.trans h1.cfg
  have hbyte : v = d := by
    rw [h3.good (by rwa [hcfg2]) h2.free (by rwa [hcfg2]), hcfg2, h2.mem]
    exact h1.byte hmem hfree hreach hwidth
  subst hbyte
  have hfirst : execAll (.write a v :: between) s = .next t2 := by
    rw [execAll, h1.run]
    exact hrun2
  refine ⟨t3, ?_, by rw [h3.ctrl], hran3.faults.trans (h2.faults.trans h1.faults), h3.getLast?_trace⟩
  rw [execAll_append _ _ s t2 hfirst, execAll, hrun3]
  rfl

end Sys2Proof.Machine

namespace Sys2Proof.Machine

/-! ## No run raises a model fault (R158)

Between two steps of a run the machine is at rest or in the settle delay; a command is one step (log 1), and its µops
add no fault, whether a reset cuts them or not. -/

/-- At rest, or in the settle delay after a reset. -/
def State.betweenSteps (s : State) : Prop := s.atRest ∨ s.settling

/-- Levels, address lines and pulse record decide it alone. -/
theorem State.atRest.of_eq {s t : State} (h : s.atRest) (hctrl : t.ctrl = s.ctrl) (hchain : t.chain = s.chain)
    (hdev : t.dev = s.dev) : t.atRest := by
  unfold State.atRest State.quietPins State.drivenSafely
  rw [hctrl, hchain, hdev]
  exact h

/-- A reset leaves the settle delay, whatever it cuts (R230). -/
theorem resetEvent_settling (s : State) : s.resetEvent.settling := by
  obtain ⟨_, e⟩ := reacted_of_afterEvent s s.resetEvent (.inr rfl)
  have hpulse : s.resetEvent.dev.pulseActive = false := by rw [e.pulseActive, State.resetEvent_ctrl, Ctrl.reset_strobing]
  rw [State.settling, State.quietPins, State.drivenSafely, State.resetEvent_ctrl, hpulse]
  exact ⟨rfl, Nat.zero_le _, ⟨rfl, rfl, rfl⟩, rfl, rfl, rfl, rfl, nofun⟩

/-- A table runs to its end, or a reset cuts it (R246). -/
theorem runTable_cases (us : List Uop) (s : State) :
    (∃ x : State, runTable us s = x.resetEvent) ∨ runTable us s = steps us s := by
  induction us generalizing s with
  | nil => exact .inr rfl
  | cons u us ih =>
    rw [runTable]
    split
    · exact .inl ⟨s, rfl⟩
    · exact ih (ctrlStep u s)

/-- No row of a command accepted between commands adds a fault (R158). -/
theorem faultFree_uops (i : Instr) {s : State} (hrest : s.atRest) : FaultFree (i.uops s.cfg) (i.accepted s) := by
  obtain ⟨-, -, hquiet⟩ := hrest
  cases i with
  | read a u =>
    obtain ⟨hfree, -⟩ := read_closed a u hquiet rfl rfl
    exact hfree
  | write a d =>
    obtain ⟨hfree, -⟩ := write_closed a d hquiet rfl rfl
    exact hfree
  | latch a u =>
    obtain ⟨hcalm, -⟩ := latch_closed a u hquiet rfl
    obtain ⟨-, -, -, hpulse, -⟩ := hquiet
    exact faultFree_calm hpulse hcalm

/-- With no reset planned every command ends between commands. -/
theorem exec_atRest (i : Instr) {s : State} (hrest : s.atRest) (hrst : s.rst = []) :
    ∃ t, exec i s = .next t ∧ t.atRest := by
  cases i with
  | read a u =>
    obtain ⟨t, _, hrun, h⟩ := read_between a u hrest hrst
    exact ⟨t, hrun, h.rest⟩
  | write a d =>
    obtain ⟨t, _, _, _, _, _, _, _, _, _, h⟩ := write_between' a d hrest hrst
    exact ⟨t, h.run, h.rest⟩
  | latch a u =>
    obtain ⟨t, hrun, h⟩ := latch_between a u hrest hrst
    exact ⟨t, hrun, h.rest⟩

/-- A command run to its end leaves the machine between commands, whatever resets are planned. -/
theorem steps_uops_atRest (i : Instr) {s : State} (hrest : s.atRest) :
    (steps (i.uops s.cfg) (i.accepted s)).atRest := by
  obtain ⟨t, hrun, ht⟩ := exec_atRest i (s := { s with rst := [] }) hrest rfl
  have hplan : { i.accepted s with rst := [] } = i.accepted { s with rst := [] } := rfl
  have hsteps : exec i { s with rst := [] } = .next { steps (i.uops s.cfg) (i.accepted s) with rst := [] } := by
    rw [← steps_rst_irrelevant, hplan]
    exact exec_eq_steps i { s with rst := [] } rfl
  cases hrun.symm.trans hsteps
  exact ht

/-- A command from rest ends at rest, or in the settle delay of the reset that cuts it, with no fault added. -/
theorem runCommand_betweenSteps (i : Instr) {s : State} (hrest : s.atRest) :
    (runCommand i.phase i.op i.addr i.data s).betweenSteps ∧
      (runCommand i.phase i.op i.addr i.data s).faults = s.faults := by
  have hrun : runCommand i.phase i.op i.addr i.data s = runTable (i.uops s.cfg) (i.accepted s) := rfl
  rw [hrun]
  refine ⟨?_, faultFree_runTable (faultFree_uops i hrest)⟩
  rcases runTable_cases (i.uops s.cfg) (i.accepted s) with ⟨x, h⟩ | h
  · rw [h]
    exact .inr (resetEvent_settling x)
  · rw [h]
    exact .inl (steps_uops_atRest i hrest)

/-- The rows of the settle delay (R108): WAIT stays in it, DONE ends it. -/
theorem settling_row {s : State} (h : s.settling) :
    ∃ u, s.currentUop = some u ∧ (ctrlStep u s).betweenSteps ∧ (ctrlStep u s).faults = s.faults := by
  obtain ⟨hphase, hupc, ⟨hce, hoe, hwe⟩, -, hsclk, hrclk, hpulse, hsafe⟩ := h
  obtain hupc | hupc : s.ctrl.upc = 0 ∨ s.ctrl.upc = 1 := by omega
  · refine ⟨.wait s.cfg.tSettle, by rw [State.currentUop, hphase, hupc]; rfl, ?_⟩
    obtain ⟨_, hran, -, -, hctrl, hchain, -⟩ := wait_run s.cfg.tSettle hpulse (calm_of_ceN hce hoe)
    refine ⟨.inr ?_, hran.faults⟩
    simp only [State.settling, State.quietPins, State.drivenSafely, hctrl, hchain, hran.pulseActive, hupc]
    exact ⟨hphase, Nat.le_refl 1, ⟨hce, hoe, hwe⟩, hwe, hsclk, hrclk, hpulse, hsafe⟩
  · refine ⟨.done, by rw [State.currentUop, hphase, hupc]; rfl, ?_⟩
    obtain ⟨hfaults, hrest⟩ := done_row hpulse hwe hsafe hsclk hrclk
    exact ⟨.inl hrest, hfaults⟩

/-- The machine stops only where a running phase has no row at `upc` (log 13). -/
theorem step_answers {s : State} (h : s.ctrl.phase ≠ .ready → ∃ u, s.currentUop = some u) :
    ∃ t, step s = .next t := by
  by_cases hreset : s.rstDue = true
  · exact ⟨_, if_pos hreset⟩
  have hreset : s.rstDue = false := Bool.eq_false_of_not_eq_true hreset
  by_cases hphase : s.ctrl.phase = .ready
  · unfold step
    simp only [hreset, Bool.false_eq_true, if_false, hphase]
    split
    · exact ⟨_, rfl⟩
    · exact ⟨_, rfl⟩
    · split
      · exact ⟨_, exec_next _ _⟩
      · exact ⟨_, rfl⟩
  · obtain ⟨u, hu⟩ := h hphase
    exact ⟨_, step_uop hreset hphase hu⟩

/-- Every step from between steps answers a state that is between steps, with no fault added. -/
theorem step_betweenSteps {s : State} (h : s.betweenSteps) :
    ∃ t, step s = .next t ∧ t.betweenSteps ∧ t.faults = s.faults := by
  have hsettling (hphase : s.ctrl.phase ≠ .ready) : s.settling := h.resolve_left fun ⟨hready, _⟩ => hphase hready
  obtain ⟨t, ht⟩ := step_answers fun hphase => by
    obtain ⟨u, hu, -⟩ := settling_row (hsettling hphase)
    exact ⟨u, hu⟩
  refine ⟨t, ht, ?_⟩
  rcases step_cases ht with ⟨-, rfl⟩ | ⟨-, hphase, u, hu, rfl⟩ | ⟨-, hphase, hmove⟩
  · exact ⟨.inr (resetEvent_settling s), State.resetEvent_faults s⟩
  · obtain ⟨v, hv, hrow⟩ := settling_row (hsettling hphase)
    cases hu.symm.trans hv
    exact hrow
  · have hrest : s.atRest := h.resolve_right fun ⟨hstartup, _⟩ => by
      cases hphase.symm.trans hstartup
    rcases hmove with ⟨-, rfl⟩ | ⟨d, rest, -, rfl⟩ | ⟨w, i, rest, -, -, rfl⟩ | ⟨w, e, rest, -, -, rfl⟩
    · exact ⟨.inl hrest, rfl⟩
    · exact ⟨.inl hrest, rfl⟩
    · exact runCommand_betweenSteps i (s := { s with host := rest }) hrest
    · exact ⟨.inl (hrest.of_eq (State.refuse_ctrl ..) (State.refuse_chain ..) (State.refuse_dev ..)),
        State.refuse_faults ..⟩

/-- A run from between steps never stops and adds no fault. -/
theorem run_betweenSteps (n : Nat) {s : State} (h : s.betweenSteps) :
    ∃ t, run n s = .next t ∧ t.faults = s.faults := by
  induction n generalizing s with
  | zero => exact ⟨s, rfl, rfl⟩
  | succ n ih =>
    obtain ⟨s', hstep, hs', hfaults⟩ := step_betweenSteps h
    obtain ⟨t, hrun, ht⟩ := ih hs'
    exact ⟨t, by rw [run_next hstep, hrun], ht.trans hfaults⟩

/-- Settles O26: the state after the power-on reset is in its settle delay, and every step keeps that invariant. -/
theorem noRunRaisesAModelFault : Obligations.NoRunRaisesAModelFault := by
  intro c m moves rs n
  exact run_betweenSteps n (.inr ⟨rfl, Nat.zero_le _, ⟨rfl, rfl, rfl⟩, rfl, rfl, rfl, rfl, nofun⟩)

end Sys2Proof.Machine

namespace Sys2Proof.Machine

/-! ## The settle delay after a reset (R233)

Until `T_SETTLE` has passed the machine is before the first row of STARTUP, where no step but a reset or the settle
WAIT is possible; from then on every event is recorded late enough, because time only goes forward. -/

/-- What records no event moves forward where its other fields do. -/
theorem Forward.of_trace_eq {s t : State} (htrace : t.trace = s.trace) (hnow : s.now ≤ t.now)
    (hdraws : s.draws ≤ t.draws) (hcfg : t.cfg = s.cfg) (hhost : t.host <:+ s.host) (hrst : t.rst = s.rst) :
    Forward s t where
  now := hnow
  draws := hdraws
  cfg := hcfg
  host := hhost
  rst := by rw [hrst]
  ev := ⟨[], by rw [htrace, List.append_nil], .nil, nofun⟩

theorem Forward.refl (s : State) : Forward s s :=
  .of_trace_eq rfl (Nat.le_refl _) (Nat.le_refl _) rfl List.suffix_rfl rfl

/-- HOST's next move is taken off its script. -/
theorem forward_host {s : State} {m : HostMove} {rest : List HostMove} (h : s.host = m :: rest) :
    Forward s { s with host := rest } :=
  .of_trace_eq rfl (Nat.le_refl _) (Nat.le_refl _) rfl (h ▸ List.suffix_cons m rest) rfl

theorem forward_passTime (n : Nat) (s : State) : Forward s (s.passTime n) :=
  .of_trace_eq rfl (Nat.le_add_right _ _) (Nat.le_succ _) rfl List.suffix_rfl rfl

theorem forward_hostIdle (d : Nat) (s : State) : Forward s (s.hostIdle d) :=
  .of_trace_eq rfl (Nat.le_add_right _ _) (Nat.le_refl _) rfl List.suffix_rfl rfl

theorem forward_refuse (r : RefusalReason) (s : State) : Forward s (s.refuse r) :=
  .of_trace_eq (State.refuse_trace ..) (State.refuse_now ..).ge (State.refuse_draws ..).ge (State.refuse_cfg ..)
    (by rw [State.refuse_host]) (State.refuse_rst ..)

/-- A reserved word's ACCEPT is a command's but for CTRL, of which `Forward` does not speak (R105). -/
theorem forward_acceptReserved (w : CmdWord) (s : State) : Forward s (s.acceptReserved w) := by
  obtain ⟨hnow, hdraws, hcfg, hhost, hrst, hev⟩ := forward_accept .ready (opField w) (addrField w) (dataField w) s
  have hevent : Forward s (s.acceptEvent (opField w) (addrField w) (dataField w)) :=
    ⟨hnow, hdraws, hcfg, hhost, hrst, hev⟩
  exact hevent.trans (forward_refuse ..)

theorem forward_runCommand (ph : Phase) (op : BitVec 2) (a : Addr) (d : Byte) (s : State) :
    Forward s (runCommand ph op a d s) :=
  runCommand_keeps (P := Forward s) (fun ph op a d x h => h.trans (forward_accept ph op a d x))
    (fun u x h => h.trans (forward_ctrlStep u x)) (fun x h => h.trans (forward_resetEvent x)) (.refl s)

theorem forward_step {s t : State} (h : step s = .next t) : Forward s t := by
  rcases step_cases h with ⟨-, rfl⟩ | ⟨-, -, u, -, rfl⟩ | ⟨-, -, hready⟩
  · exact forward_resetEvent s
  · exact forward_ctrlStep u s
  · rcases hready with ⟨-, rfl⟩ | ⟨d, rest, hhost, rfl⟩ | ⟨w, i, rest, hhost, -, rfl⟩ | ⟨w, e, rest, hhost, -, rfl⟩
    · exact forward_passTime 0 s
    · exact (forward_host hhost).trans (forward_hostIdle d _)
    · exact (forward_host hhost).trans (forward_runCommand ..)
    · exact (forward_host hhost).trans (forward_acceptReserved w _)

/-- What happens at time `N` or later records no earlier ACCEPT. -/
theorem AcceptsFrom.of_forward {n N : Nat} {s t : State} (h : AcceptsFrom n N s) (hN : N ≤ s.now) (f : Forward s t) :
    AcceptsFrom n N t := by
  obtain ⟨evs, htrace, -, htimes⟩ := f.ev
  refine h.of_append htrace fun e he _ _ _ _ => ?_
  obtain ⟨htime, -⟩ := htimes e he
  exact hN.trans htime

theorem AcceptsFrom.of_trace_length (N : Nat) (s : State) : AcceptsFrom s.trace.length N s :=
  ⟨Nat.le_refl _, by rw [List.drop_length]; nofun⟩

/-- STARTUP at its first row: where a reset leaves CTRL (R230). -/
def State.settleBegins (s : State) : Prop := s.ctrl.phase = .startup ∧ s.ctrl.upc = 0

theorem resetEvent_settleBegins (s : State) : s.resetEvent.settleBegins := by
  rw [State.settleBegins, State.resetEvent_ctrl]
  exact ⟨rfl, rfl⟩

/-- The first row of STARTUP is the settle delay (R108). -/
theorem State.settleBegins.currentUop {s : State} (h : s.settleBegins) : s.currentUop = some (.wait s.cfg.tSettle) := by
  obtain ⟨hphase, hupc⟩ := h
  rw [State.currentUop, hphase, hupc]
  rfl

/-- A WAIT lasts at least the time asked for (R106). -/
theorem add_le_ctrlStep_wait_now (n : Nat) (s : State) : s.now + n ≤ (ctrlStep (.wait n) s).now := by
  simp only [ctrlStep, execUop, State.wait, devReact_now, advanceUpc_now, State.emit_now, State.passTime_now,
    State.beginEvent_now]
  omega

/-- A step from the first row of STARTUP is a reset or the settle WAIT (R110, R230). -/
theorem step_of_settleBegins {s t : State} (h : s.settleBegins) (hstep : step s = .next t) :
    t = s.resetEvent ∨ t = ctrlStep (.wait s.cfg.tSettle) s := by
  rcases step_cases hstep with ⟨-, rfl⟩ | ⟨-, -, u, hu, rfl⟩ | ⟨-, hready, -⟩
  · exact .inl rfl
  · cases hu.symm.trans h.currentUop
    exact .inr rfl
  · obtain ⟨hphase, -⟩ := h
    cases hphase.symm.trans hready

/-- Reached from `s`: the settle delay counted from `s` is over or has yet to begin, and no ACCEPT came before its
end. -/
structure SettlesFrom (s t : State) : Prop where
  forward : Forward s t
  settled : s.now + s.cfg.tSettle ≤ t.now ∨ t.settleBegins
  accepts : AcceptsFrom s.trace.length (s.now + s.cfg.tSettle) t

theorem SettlesFrom.refl {s : State} (h : s.settleBegins) : SettlesFrom s s :=
  ⟨.refl s, .inr h, .of_trace_length _ s⟩

theorem SettlesFrom.step {s x t : State} (h : SettlesFrom s x) (hstep : step x = .next t) : SettlesFrom s t := by
  have hforward := forward_step hstep
  obtain ⟨hreached, hsettled | hbegins, haccepts⟩ := h
  · exact ⟨hreached.trans hforward, .inl (hsettled.trans hforward.now), haccepts.of_forward hsettled hforward⟩
  · rcases step_of_settleBegins hbegins hstep with rfl | rfl
    · exact ⟨hreached.trans hforward, .inr (resetEvent_settleBegins x), haccepts.of_resetEvent⟩
    · have hwait : s.now + s.cfg.tSettle ≤ (ctrlStep (.wait x.cfg.tSettle) x).now := by
        rw [← hreached.cfg]
        exact (Nat.add_le_add_right hreached.now _).trans (add_le_ctrlStep_wait_now x.cfg.tSettle x)
      exact ⟨hreached.trans hforward, .inl hwait, haccepts.of_ctrlStep _⟩

theorem SettlesFrom.of_run {s t : State} {n : Nat} (h : s.settleBegins) (hrun : run n s = .next t) :
    SettlesFrom s t :=
  run_keeps (P := SettlesFrom s) (fun _ _ hx hstep => hx.step hstep) hrun (.refl h)

/-- READY is outside STARTUP, so the settle delay is over. -/
theorem SettlesFrom.le_now_of_ready {s t : State} (h : SettlesFrom s t) (hready : t.ctrl.phase = .ready) :
    s.now + s.cfg.tSettle ≤ t.now := by
  refine h.settled.resolve_right fun ⟨hphase, _⟩ => ?_
  cases hphase.symm.trans hready

/-- Settles O18: the settle delay is over or has yet to begin, at every step of the run. -/
theorem noAcceptBeforeTheSettleDelay : Obligations.NoAcceptBeforeTheSettleDelay := by
  refine ⟨resetEvent_settleBegins, fun s t n hphase hupc hrun => ?_⟩
  have h := SettlesFrom.of_run ⟨hphase, hupc⟩ hrun
  obtain ⟨-, haccepts⟩ := h.accepts
  exact ⟨h.le_now_of_ready, haccepts⟩

end Sys2Proof.Machine

namespace Sys2Proof

/-! ## Decoding and encoding (R82, R84, R87) -/

theorem decode_encode (i : Instr) : decode (encode i) = .ok i := by
  rw [decode, opField_encode, addrField_encode, dataField_encode]
  cases i <;> rfl

theorem decodeNat_toNat (w : CmdWord) : decodeNat w.toNat = decode w := by
  rw [decodeNat, if_pos w.isLt, BitVec.ofNat_toNat, BitVec.setWidth_eq]

/-- A container of 26 bits or more holds every bit of the word (log 16). -/
theorem decodeTableWord_toNat {nbits : Nat} (hbits : 26 ≤ nbits) {w : CmdWord} {i : Instr} (h : decode w = .ok i) :
    decodeTableWord nbits w.toNat = some i := by
  have hlow : w.toNat % 2 ^ nbits = w.toNat :=
    Nat.mod_eq_of_lt (w.isLt.trans_le (Nat.pow_le_pow_right (by decide) hbits))
  rw [decodeTableWord, hlow, decodeNat_toNat, h]

theorem encode_of_decode {w : CmdWord} {i : Instr} (h : decode w = .ok i) : encode i = w := by
  obtain ⟨hop, haddr, hdata⟩ := decode_fields h
  exact cmdWord_ext (by rw [opField_encode, hop]) (by rw [addrField_encode, haddr]) (by rw [dataField_encode, hdata])

/-- Settles O2: the three fields of a word decide it, and each is what the encoder put there. -/
theorem decodeOfEncode : Obligations.DecodeOfEncode := by
  refine ⟨fun i => ⟨decode_encode i, ?_, fun nbits hbits => decodeTableWord_toNat hbits (decode_encode i)⟩,
    fun w i => encode_of_decode⟩
  rw [decodeNat_toNat, decode_encode]

end Sys2Proof

namespace Sys2Proof.Machine

/-! ## The canonical array (R35) -/

theorem memInv_runCommand (ph : Phase) (op : BitVec 2) (a : Addr) (d : Byte) {s : State} (h : s.memInv) :
    (runCommand ph op a d s).memInv :=
  runCommand_keeps (P := State.memInv) (fun _ _ _ _ _ hx => hx) (fun _ _ => memInv_ctrlStep)
    (fun _ => memInv_resetEvent) h

/-- The array and the configuration decide it alone. -/
theorem State.memInv.of_eq {s t : State} (h : s.memInv) (hcfg : t.cfg = s.cfg) (hmem : t.dev.mem = s.dev.mem) :
    t.memInv := by
  rw [State.memInv, hcfg, hmem]
  exact h

/-- Settles O22: of the moves of a step only events write the array, and every event keeps its form. -/
theorem memoryStaysCanonical : Obligations.MemoryStaysCanonical := by
  intro s t h hstep
  rcases step_cases hstep with ⟨-, rfl⟩ | ⟨-, -, u, -, rfl⟩ | ⟨-, -, hmove⟩
  · exact memInv_resetEvent h
  · exact memInv_ctrlStep h
  · rcases hmove with ⟨-, rfl⟩ | ⟨d, rest, -, rfl⟩ | ⟨w, i, rest, -, -, rfl⟩ | ⟨w, e, rest, -, -, rfl⟩
    · exact h
    · exact h
    · exact memInv_runCommand _ _ _ _ h
    · exact h.of_eq (State.refuse_cfg ..) (congrArg Dev.mem (State.refuse_dev ..))

/-- Settles O23: after the power-on reset the array lists no cell. -/
theorem resetMemoryIsCanonical : Obligations.ResetMemoryIsCanonical := ⟨rfl, rfl⟩

/-! ## The invariant of the protocol (R129, R146, R158, R159) -/

theorem midCommand_phase {s : State} (h : s.midCommand) : s.ctrl.phase ≠ .ready := by
  rcases h with ⟨hphase, -⟩ | ⟨hphase, -⟩ | ⟨hphase, -⟩ <;> simp [hphase]

/-- A row of a command adds no fault, and ends between commands or before the next row. -/
theorem midCommand_row {s : State} {u : Uop} (h : s.midCommand) (hu : s.currentUop = some u) :
    (ctrlStep u s).faults = s.faults ∧ ((ctrlStep u s).atRest ∨ (ctrlStep u s).midCommand) := by
  rcases h with h | h | h
  · exact (inLatch_row h hu).imp_right (Or.imp_right .inl)
  · exact (inRead_row h hu).imp_right (Or.imp_right (.inr ∘ .inl))
  · exact (inWrite_row h hu).imp_right (Or.imp_right (.inr ∘ .inr))

theorem midCommand_step {s t : State} (h : s.midCommand) (hstep : step s = .next t) :
    t.protocolInv ∧ t.faults = s.faults := by
  rcases step_cases hstep with ⟨-, rfl⟩ | ⟨-, -, u, hu, rfl⟩ | ⟨-, hready, -⟩
  · exact ⟨.inr (.inl (resetEvent_settling s)), State.resetEvent_faults s⟩
  · obtain ⟨hfaults, hrow⟩ := midCommand_row h hu
    exact ⟨hrow.imp_right .inr, hfaults⟩
  · exact absurd hready (midCommand_phase h)

/-- Before the first bit of the latch sequence nothing is asked but the clocks. -/
theorem latching_zero {c : Ctrl} {h : Chain} (a : Addr) (hsclk : c.sclk = false) (hrclk : c.rclk = false) :
    Latching c h a 0 :=
  ⟨hsclk, hrclk, nofun, fun _ hi => absurd hi (Nat.not_lt_zero _), nofun⟩

/-- Acceptance at rest leaves a state before the first row of the command's table (R104). -/
theorem accepted_midCommand (i : Instr) {s : State} (hrest : s.atRest) : (i.accepted s).midCommand := by
  obtain ⟨-, -, hwe, hsclk, hrclk, hpulse, hsafe⟩ := hrest
  have hlatching (a : Addr) := latching_zero (c := (i.accepted s).ctrl) (h := s.chain) a hsclk hrclk
  cases i with
  | latch a u => exact .inl ⟨rfl, Nat.zero_le _, hwe, hpulse, hsafe, a, rfl, hlatching a⟩
  | read a u =>
    exact .inr (.inl ⟨rfl, Nat.zero_le _, hwe, hpulse, hsafe, nofun, nofun, nofun, a, rfl, hlatching a⟩)
  | write a d =>
    refine .inr (.inr ⟨rfl, Nat.zero_le _, hwe, hpulse, hsafe, nofun, nofun, nofun, a, d, rfl, rfl, hlatching a, ?_,
      ?_⟩)
    · exact fun j hj => absurd (Nat.zero_add j.val ▸ hj) (by omega)
    · exact fun h => absurd (h.symm.trans hpulse) nofun

/-- Settles O24: between steps, and within a command row by row. -/
theorem protocolInvariantKeptWithoutFault : Obligations.ProtocolInvariantKeptWithoutFault := by
  refine ⟨fun s t hinv hstep => ?_, fun i s hrest => ⟨accepted_midCommand i hrest, rfl⟩⟩
  have hbetween (h : s.betweenSteps) : t.betweenSteps ∧ t.faults = s.faults := by
    obtain ⟨t', ht', hkept⟩ := step_betweenSteps h
    cases hstep.symm.trans ht'
    exact hkept
  have hkept : t.protocolInv ∧ t.faults = s.faults := by
    rcases hinv with h | h | h
    · exact (hbetween (.inl h)).imp_left (Or.imp_right .inl)
    · exact (hbetween (.inr h)).imp_left (Or.imp_right .inl)
    · exact midCommand_step h hstep
  obtain ⟨hinv', hfaults⟩ := hkept
  refine ⟨hinv', hfaults, fun h => ?_⟩
  obtain ⟨ht, -⟩ := hbetween h
  exact ht

/-- Settles O25: the power-on reset leaves the settle delay. -/
theorem resetHoldsTheProtocolInvariant : Obligations.ResetHoldsTheProtocolInvariant :=
  .inr (.inl ⟨rfl, Nat.zero_le _, ⟨rfl, rfl, rfl⟩, rfl, rfl, rfl, rfl, nofun⟩)

end Sys2Proof.Machine

namespace Sys2Proof

/-! ## The command map and the worked words (R82, R84, R85) -/

/-- Settles O1: the nine words, decoded. -/
theorem specWordsDecode : Obligations.SpecWordsDecode :=
  ⟨rfl, rfl, rfl, rfl, rfl, rfl, rfl, rfl, rfl, rfl⟩

/-- "A decoder reads `op` alone to know the command" (R87). -/
theorem decode_of_opField {w : CmdWord} {o : BitVec 2} (h : opField w = o) :
    decode w =
      if o = 0b01#2 then .ok (.read (addrField w) (dataField w))
      else if o = 0b10#2 then .ok (.write (addrField w) (dataField w))
      else if o = 0b11#2 then .ok (.latch (addrField w) (dataField w))
      else .error .reservedOp := by
  subst h
  rfl

theorem decode_read_iff (w : CmdWord) : (∃ a u, decode w = .ok (.read a u)) ↔ opField w = 0b01#2 := by
  refine ⟨fun ⟨a, u, h⟩ => ?_, fun h => ⟨_, _, decode_of_opField h⟩⟩
  obtain ⟨hop, -⟩ := decode_fields h
  exact hop.symm

theorem decode_write_iff (w : CmdWord) : (∃ a d, decode w = .ok (.write a d)) ↔ opField w = 0b10#2 := by
  refine ⟨fun ⟨a, d, h⟩ => ?_, fun h => ⟨_, _, decode_of_opField h⟩⟩
  obtain ⟨hop, -⟩ := decode_fields h
  exact hop.symm

theorem decode_latch_iff (w : CmdWord) : (∃ a u, decode w = .ok (.latch a u)) ↔ opField w = 0b11#2 := by
  refine ⟨fun ⟨a, u, h⟩ => ?_, fun h => ⟨_, _, decode_of_opField h⟩⟩
  obtain ⟨hop, -⟩ := decode_fields h
  exact hop.symm

theorem decode_reserved_iff (w : CmdWord) : decode w = .error .reservedOp ↔ opField w = 0b00#2 := by
  refine ⟨fun h => ?_, decode_of_opField⟩
  unfold decode at h
  have hfour : ∀ o : BitVec 2, o ≠ 0b01#2 → o ≠ 0b10#2 → o ≠ 0b11#2 → o = 0b00#2 := by decide
  split at h
  · cases h
  · split at h
    · cases h
    · split at h
      · cases h
      · exact hfour _ ‹_› ‹_› ‹_›

/-- The match of a row under the mask of R84 is its `op`. -/
theorem masked_eq_iff (w : CmdWord) (o : BitVec 2) :
    w &&& 0x3000000#26 = o.setWidth 26 <<< 24 ↔ opField w = o := by
  have hinj : ∀ x y : BitVec 2, x.setWidth 26 <<< 24 = y.setWidth 26 <<< 24 ↔ x = y := by decide
  rw [Laws.TableMatch.masked, hinj]

/-- Settles O3: the mask keeps `op`, which decides the command. -/
theorem commandMap : Obligations.CommandMap := by
  intro w
  refine ⟨(decode_read_iff w).trans (masked_eq_iff w _).symm, (decode_write_iff w).trans (masked_eq_iff w _).symm,
    (decode_latch_iff w).trans (masked_eq_iff w _).symm, (decode_reserved_iff w).trans (masked_eq_iff w _).symm,
    fun i h => ?_⟩
  obtain ⟨-, haddr, hdata⟩ := decode_fields h
  exact ⟨haddr, hdata⟩

end Sys2Proof

namespace Sys2Proof.Machine

/-! ## The assembler and the pseudo-instructions (R91, R92) -/

/-- A line whose literals are in range has the word of its command. -/
theorem assemble_of_wellFormed {l : AsmLine} (h : l.wellFormed = true) :
    assemble l = some (encode (AsmLine.instr l)) := if_pos h

theorem assemble_of_not_wellFormed {l : AsmLine} (h : l.wellFormed = false) : assemble l = none := by
  rw [assemble, h]
  rfl

theorem toNat_encode_of_fields {i : Instr} {o a d : Nat} (hop : i.op.toNat = o)
    (haddr : i.addr.toNat = a) (hdata : i.data.toNat = d) : (encode i).toNat = o * 2 ^ 24 + a * 2 ^ 8 + d := by
  rw [toNat_encode, hop, haddr, hdata]

theorem getElem?_patternWrite {bs : List Byte} {k : Nat} {b : Byte} (base : Addr) (h : bs[k]? = some b) :
    (patternWrite base bs)[k]? = some (.write (base + BitVec.ofNat 16 k) b) := by
  induction bs generalizing base k with
  | nil => cases h
  | cons c bs ih =>
    cases k with
    | zero =>
      cases h
      rw [patternWrite, List.getElem?_cons_zero, BitVec.add_zero]
    | succ k =>
      have hbase : base + 1 + BitVec.ofNat 16 k = base + BitVec.ofNat 16 (k + 1) := by
        rw [BitVec.add_assoc, BitVec.add_comm 1, BitVec.ofNat_add]
        rfl
      rw [patternWrite, List.getElem?_cons_succ, ih (base + 1) h, hbase]

theorem length_patternWrite (base : Addr) (bs : List Byte) : (patternWrite base bs).length = bs.length := by
  induction bs generalizing base with
  | nil => rfl
  | cons b bs ih => rw [patternWrite, List.length_cons, ih, List.length_cons]

/-- Settles O5: each line's word by its fields, each expansion command by command. -/
theorem assemblerAndPseudoInstructions : Obligations.AssemblerAndPseudoInstructions := by
  refine ⟨fun a d => ⟨fun ha => ?_, fun ⟨ha, hd⟩ => ?_, fun ha => ?_, fun ha => ⟨?_, ?_, ?_⟩, fun hd => ?_⟩,
    fun c => ⟨?_, fun k hk => ?_⟩, fun base bs => ⟨length_patternWrite base bs, fun k b => getElem?_patternWrite base⟩,
    fun lo hi _ => ⟨?_, fun k hk => ?_⟩⟩
  · exact ⟨_, assemble_of_wellFormed (decide_eq_true ha),
      (toNat_encode_of_fields (d := 0) rfl (Nat.mod_eq_of_lt (by omega)) rfl).trans (Nat.add_zero _)⟩
  · exact ⟨_, assemble_of_wellFormed (by simp [AsmLine.wellFormed, ha, hd]),
      toNat_encode_of_fields rfl (Nat.mod_eq_of_lt (by omega)) (Nat.mod_eq_of_lt (by omega))⟩
  · exact ⟨_, assemble_of_wellFormed (decide_eq_true ha),
      (toNat_encode_of_fields (d := 0) rfl (Nat.mod_eq_of_lt (by omega)) rfl).trans (Nat.add_zero _)⟩
  · exact assemble_of_not_wellFormed (decide_eq_false ha)
  · exact assemble_of_not_wellFormed (by simp [AsmLine.wellFormed, ha])
  · exact assemble_of_not_wellFormed (decide_eq_false ha)
  · exact assemble_of_not_wellFormed (by simp [AsmLine.wellFormed, hd])
  · rw [eraseAll, List.length_map, List.length_range]
  · rw [eraseAll, List.getElem?_map, List.getElem?_range hk]
    rfl
  · rw [dump, List.length_map, List.length_range']
  · rw [dump, List.getElem?_map, List.getElem?_range' hk, Nat.one_mul]
    rfl

/-! ## The ignored byte (R86, R91) -/

/-- READ and LATCH drive no data line. -/
theorem ne_setDout_of_mem_readTable {c : Config} {a : Bits 16} {u : Uop} (hu : u ∈ readTable c a) (i : Fin 8) :
    u ≠ .setDout i := by
  rintro rfl
  have hexit : Uop.setDout i ∉ readExit c := by
    unfold readExit
    split <;> simp
  simp [readTable, defensiveReset, latchSeq, latchBit, linesDown, hexit] at hu

theorem ne_setDout_of_mem_latchTable {a : Bits 16} {u : Uop} (hu : u ∈ latchTable a) (i : Fin 8) : u ≠ .setDout i := by
  rintro rfl
  simp [latchTable, latchSeq, latchBit] at hu

theorem runCommand_host_eq (ph : Phase) (op : BitVec 2) (a : Addr) (d : Byte) (s : State) :
    (runCommand ph op a d s).host = s.host :=
  runCommand_keeps (P := fun x => x.host = s.host) (fun _ _ _ _ _ h => h)
    (fun u x h => (ctrlStep_host u x).trans h) (fun x h => (State.resetEvent_host x).trans h) rfl

/-- A command that drives no data line does not see its byte but in its ACCEPT and in `cmd_data`. -/
theorem runCommand_ignores_data {ph : Phase} (op : BitVec 2) (a : Addr) (u v : Byte) (s : State)
    (hus : ∀ x ∈ table s.cfg (Bits.ofBitVec a) ph, ∀ i, x ≠ .setDout i) :
    ∃ (e : Nat) (evs : List Event) (d : Bits 8),
      (runCommand ph op a u s).trace = s.trace ++ ⟨.accept op a u, e⟩ :: evs ∧
        runCommand ph op a v s =
          { runCommand ph op a u s with
            ctrl := { (runCommand ph op a u s).ctrl with cmdData := d }
            trace := s.trace ++ ⟨.accept op a v, e⟩ :: evs } := by
  obtain ⟨evs, htrace⟩ := runCommand_trace ph op a u s
  have hlen : s.trace.length + 1 ≤ (s.accept ph op a u).trace.length := by simp [accept_trace]
  obtain ⟨d, hrun⟩ := runTable_relabel s.host (s.trace ++ [⟨.accept op a v, (s.accept ph op a v).now⟩])
    (s.trace.length + 1) (s.accept ph op a u).pendingUops hus (by simp) (s.accept ph op a u) (Bits.ofBitVec v) hlen
  have haccept : (s.accept ph op a u).relabel id s.host (Bits.ofBitVec v)
      (s.trace ++ [⟨.accept op a v, (s.accept ph op a v).now⟩]) (s.trace.length + 1) = s.accept ph op a v := by
    have hdrop : (s.accept ph op a u).trace.drop (s.trace.length + 1) = [] := by simp [accept_trace]
    rw [State.relabel, hdrop, List.append_nil]
    rfl
  rw [haccept] at hrun
  have hdrop : (runCommand ph op a u s).trace.drop (s.trace.length + 1) = evs := by
    rw [htrace, ← List.drop_drop, List.drop_left, List.drop_one, List.tail_cons]
  refine ⟨_, evs, d, htrace, hrun.trans ?_⟩
  change (runCommand ph op a u s).relabel id s.host d _ _ = _
  rw [State.relabel, hdrop, ← runCommand_host_eq ph op a u s, List.append_assoc, List.singleton_append]
  rfl

/-- Settles O4: the tables of READ and LATCH hold no SET_DOUT; the assembler's line has the byte 0. -/
theorem ignoredByteSelectsNothing : Obligations.IgnoredByteSelectsNothing := by
  refine ⟨fun s a u v i j hij => ?_, fun n w hw => ?_⟩
  · rcases hij with ⟨rfl, rfl⟩ | ⟨rfl, rfl⟩
    · obtain ⟨e, evs, d, htrace, hrun⟩ := runCommand_ignores_data (ph := .read) 0b01#2 a u v s
        fun x hx => ne_setDout_of_mem_readTable hx
      exact ⟨_, e, evs, d, rfl, htrace, congrArg Host.Outcome.next hrun⟩
    · obtain ⟨e, evs, d, htrace, hrun⟩ := runCommand_ignores_data (ph := .latch) 0b11#2 a u v s
        fun x hx => ne_setDout_of_mem_latchTable hx
      exact ⟨_, e, evs, d, rfl, htrace, congrArg Host.Outcome.next hrun⟩
  · have hword : ∀ l : AsmLine, (AsmLine.instr l).data = 0#8 → assemble l = some w → dataField w = 0#8 := by
      intro l hdata hl
      rw [assemble] at hl
      split at hl
      · cases hl
        rw [dataField_encode, hdata]
      · cases hl
    rcases hw with hw | hw
    · exact hword _ rfl hw
    · exact hword _ rfl hw

end Sys2Proof.Machine

namespace Sys2Proof.Machine

/-! ## The moves of a step (R100, R103, R105, R109, R110) -/

section
variable {s : State} {rest : List HostMove}

/-- In READY with no reset due the step is HOST's next move. -/
theorem step_command {w : CmdWord} {i : Instr} (hreset : s.rstDue = false) (hready : s.ctrl.phase = .ready)
    (hhost : s.host = .command w :: rest) (hdecode : decode w = .ok i) : step s = exec i { s with host := rest } := by
  simp only [step, hreset, hready, hhost, hdecode, Bool.false_eq_true, if_false]

theorem step_idle {d : Nat} (hreset : s.rstDue = false) (hready : s.ctrl.phase = .ready)
    (hhost : s.host = .idle d :: rest) : step s = .next (State.hostIdle d { s with host := rest }) := by
  simp only [step, hreset, hready, hhost, Bool.false_eq_true, if_false]

theorem step_reserved {w : CmdWord} {e : DecodeError} (hreset : s.rstDue = false) (hready : s.ctrl.phase = .ready)
    (hhost : s.host = .command w :: rest) (hdecode : decode w = .error e) :
    step s = .next (State.acceptReserved w { s with host := rest }) := by
  simp only [step, hreset, hready, hhost, hdecode, Bool.false_eq_true, if_false]

end

theorem decode_of_decodeTableWord {nbits w : Nat} {i : Instr} (h : decodeTableWord nbits w = some i) :
    decode (BitVec.ofNat 26 (w % 2 ^ nbits)) = .ok i := by
  have hnat : decodeNat (w % 2 ^ nbits) = .ok i := by
    rw [decodeTableWord] at h
    split at h
    · next hok =>
      cases h
      exact hok
    · cases h
  rw [decodeNat] at hnat
  split at hnat
  · exact hnat
  · cases hnat

/-- Settles O6: `withFetchWord` makes the state of the first part, its word on the port. -/
theorem stepRunsTheDecodedCommand : Obligations.StepRunsTheDecodedCommand :=
  ⟨fun _ _ _ _ hreset hready hhost hdecode => step_command hreset hready hhost hdecode,
    fun s nbits w _ h =>
      step_command (s := s.withFetchWord nbits w) (rstDue_nil rfl) rfl rfl (decode_of_decodeTableWord h)⟩

/-- Settles O7: the gap is `State.beginEvent`, and DONE alone sets `upc` and `phase`. -/
theorem stepRunsTheUopOfTheTable : Obligations.StepRunsTheUopOfTheTable := by
  intro s u hreset hphase hu
  obtain ⟨hupc, hphase'⟩ := ctrlStep_upc_phase u s
  exact ⟨s.beginEvent, ctrlStep u s, step_uop hreset hphase hu, rfl, ⟨_, rfl⟩, rfl, rfl, rfl, rfl, hupc, hphase',
    ctrlStep_host u s⟩

/-- Settles O9: a table is its body and one DONE, of the length the phase gives. -/
theorem tablesEndInDone : Obligations.TablesEndInDone := by
  intro c a ph hph
  rw [table_eq_body c a ph hph]
  refine ⟨List.getLast?_concat, ?_, ?_⟩
  · rw [List.dropLast_concat]
    exact done_not_mem_body c a ph
  · cases ph with
    | ready => exact absurd rfl hph
    | startup => rfl
    | latch => rfl
    | read =>
      cases hexit : c.readExitDeassert <;> simp [tableBody, hexit, defensiveReset, latchSeq, latchBit, linesDown]
    | write => rfl

theorem currentUop_eq_none_iff (s : State) :
    s.currentUop = none ↔ (table s.cfg s.ctrl.cmdAddr s.ctrl.phase).length ≤ s.ctrl.upc := by
  rw [State.currentUop, List.getElem?_eq_none_iff]

/-- In a phase with no µop at `upc` and no reset due the machine stops (log 13). -/
theorem step_pastTable {s : State} (hreset : s.rstDue = false) (hphase : s.ctrl.phase ≠ .ready)
    (hu : s.currentUop = none) : step s = .fault .upcPastTable := by
  unfold step
  simp only [hreset, Bool.false_eq_true, if_false]
  cases hp : s.ctrl.phase with
  | ready => exact absurd hp hphase
  | _ => simp only [hu]

/-- A step answers a next state, or it is past a table. -/
theorem step_answers_or_pastTable (s : State) :
    (∃ t, step s = .next t) ∨ (s.rstDue = false ∧ s.ctrl.phase ≠ .ready ∧ s.currentUop = none) := by
  by_cases h : s.rstDue = false ∧ s.ctrl.phase ≠ .ready ∧ s.currentUop = none
  · exact .inr h
  by_cases hreset : s.rstDue = true
  · exact .inl ⟨_, if_pos hreset⟩
  · refine .inl (step_answers fun hphase => Option.ne_none_iff_exists'.mp fun hu => h ⟨?_, hphase, hu⟩)
    exact Bool.eq_false_of_not_eq_true hreset

/-- Settles O10: past a table the step is the one fault, and everywhere else it answers a next state. -/
theorem stepStopsOnlyPastATable : Obligations.StepStopsOnlyPastATable := by
  intro s
  rw [← currentUop_eq_none_iff]
  rcases step_answers_or_pastTable s with ⟨t, ht⟩ | ⟨hreset, hphase, hu⟩
  · refine ⟨⟨fun h => ?_, fun ⟨hreset, hphase, hu⟩ => step_pastTable hreset hphase hu⟩, fun r h => ?_⟩
    · cases ht.symm.trans h
    · cases ht.symm.trans h
  · have hstop := step_pastTable hreset hphase hu
    exact ⟨⟨fun _ => ⟨hreset, hphase, hu⟩, fun _ => hstop⟩, fun r h => nomatch hstop.symm.trans h⟩

/-! ### HOST's script is not seen outside READY (R81) -/

theorem resetEvent_host_irrelevant (m : List HostMove) (s : State) :
    State.resetEvent { s with host := m } = { s.resetEvent with host := m } := by
  have h := resetEvent_relabel id m s.ctrl.cmdData [] 0 (fun _ => rfl) (s := s) (Nat.zero_le _) rfl
  refine Eq.trans h ?_
  have hdata : Bits.unknown 8 = s.resetEvent.ctrl.cmdData := by rw [State.resetEvent_ctrl]; rfl
  rw [hdata]
  rfl

theorem ctrlStep_host_irrelevant (m : List HostMove) (u : Uop) (s : State) :
    ctrlStep u { s with host := m } = { ctrlStep u s with host := m } := by
  have h := ctrlStep_relabel id m s.ctrl.cmdData [] 0 (fun _ => rfl) (u := u) (s := s) (.inr rfl) (Nat.zero_le _) rfl
  refine Eq.trans h ?_
  obtain ⟨-, hdata⟩ := ctrlStep_operands u s
  rw [← hdata]
  rfl

/-- Settles O11: outside READY a step is a reset event or a µop, and neither sees the script. -/
theorem hostWaitsForReady : Obligations.HostWaitsForReady := by
  intro s t moves hphase hstep
  rcases step_cases hstep with ⟨hreset, rfl⟩ | ⟨hreset, -, u, hu, rfl⟩ | ⟨-, hready, -⟩
  · refine ⟨State.resetEvent_host s, ?_⟩
    rw [← resetEvent_host_irrelevant]
    exact if_pos hreset
  · refine ⟨ctrlStep_host u s, ?_⟩
    rw [← ctrlStep_host_irrelevant]
    exact step_uop (s := { s with host := moves }) hreset hphase hu
  · exact absurd hready hphase

/-- Settles O12: an idle move is `State.hostIdle`. -/
theorem hostIdleOnlyTakesTime : Obligations.HostIdleOnlyTakesTime :=
  fun _ _ _ hreset hready hhost => step_idle hreset hready hhost

theorem State.mem_refuse_refused (r x : RefusalReason) (s : State) :
    x ∈ (s.refuse r).refused ↔ x ∈ s.refused ∨ x = r := by
  rw [State.refuse_refused]
  by_cases h : r ∈ s.refused
  · rw [if_pos h, List.append_nil]
    exact ⟨.inl, fun hx => hx.elim id fun e => e ▸ h⟩
  · rw [if_neg h, List.mem_append, List.mem_singleton]

/-- Settles O13: a reserved word's acceptance is an event of its own and the refusal (R105). -/
theorem reservedWordIsRefused : Obligations.ReservedWordIsRefused := by
  intro s w rest hreset hready hupc hhost hop
  have hstep := step_reserved hreset hready hhost ((decode_reserved_iff w).mpr hop)
  obtain ⟨hnow, -⟩ := forward_acceptReserved w { s with host := rest }
  have hctrl : (State.acceptReserved w { s with host := rest }).ctrl = s.ctrl := State.refuse_ctrl ..
  have hmarks (r : RefusalReason) :
      r ∈ (State.acceptReserved w { s with host := rest }).refused ↔ r ∈ s.refused ∨ r = .reservedOp :=
    State.mem_refuse_refused ..
  refine ⟨_, hstep, (hmarks _).mpr (.inr rfl), hmarks, by rw [hctrl, hready], by rw [hctrl, hupc], hctrl,
    State.refuse_chain .., State.refuse_dev .., State.refuse_faults .., hnow, State.refuse_host .., ?_⟩
  have hop : opField w = 0#2 := hop
  rw [State.acceptReserved, State.refuse_trace, State.refuse_now, hop]
  rfl

/-! ### A command as its rows, one step each (R100, R109) -/

/-- From a row of a table on, one step for each µop left, to the DONE at the end. -/
theorem run_rows {us : List Uop} (hdone : Uop.done ∉ us) {s : State} (hrst : s.rst = [])
    (hphase : s.ctrl.phase ≠ .ready) (hrows : s.pendingUops = us ++ [.done]) :
    run (us ++ [Uop.done]).length s = .next (steps (us ++ [.done]) s) := by
  have hcurrent : s.currentUop = s.pendingUops.head? := by
    rw [State.currentUop, State.pendingUops, List.head?_drop]
  induction us generalizing s with
  | nil =>
    rw [hrows] at hcurrent
    exact run_next (step_uop (rstDue_nil hrst) hphase hcurrent) 0
  | cons u us ih =>
    rw [hrows] at hcurrent
    obtain ⟨hu, hus⟩ := not_or.mp (List.mem_cons.not.mp hdone)
    have hu : u ≠ .done := fun h => hu h.symm
    obtain ⟨hupc, hph⟩ := ctrlStep_upc_phase u s
    rw [if_neg hu] at hupc hph
    obtain ⟨haddr, -⟩ := ctrlStep_operands u s
    have hrows' : (ctrlStep u s).pendingUops = us ++ [.done] := by
      rw [State.pendingUops, ctrlStep_cfg, haddr, hph, hupc, ← List.drop_drop]
      exact congrArg (List.drop 1) hrows
    have hrun := ih hus (s := ctrlStep u s) (by rw [ctrlStep_rst, hrst]; rfl) (by rwa [hph]) hrows'
      (by rw [State.currentUop, State.pendingUops, List.head?_drop])
    rw [List.cons_append, List.length_cons, run_next (step_uop (rstDue_nil hrst) hphase hcurrent), hrun]
    rfl

/-- Settles O8: the accepted command stands before the first row of its table. -/
theorem commandIsItsUopsOneStepEach : Obligations.CommandIsItsUopsOneStepEach := by
  intro i s hrst
  have htable := table_eq_body s.cfg (Bits.ofBitVec i.addr) i.phase (phase_ne_ready i)
  have hrows : (i.accepted s).pendingUops = tableBody s.cfg (Bits.ofBitVec i.addr) i.phase ++ [.done] := htable
  have hrst' : (i.accepted s).rst = [] := congrArg countDown hrst
  rw [exec_eq_steps i s hrst, Instr.uops, htable]
  exact run_rows (done_not_mem_body _ _ _) hrst' (phase_ne_ready i) hrows

end Sys2Proof.Machine

namespace Sys2Proof.Machine

/-! ## The µops one by one (R106, R120, R122, R124, R140-R145) -/

/-- A µop that takes no drawn value records its own event first, whatever the device then does. -/
theorem recorded_plain {u : Uop} (hu : u.plain = true) {s : State} {k : EventKind} (hk : s.ctrl.records u = [k]) :
    s.recorded (ctrlStep u s) k := by
  obtain ⟨-, hnow, -, htrace⟩ := execUop_plain hu s.beginEvent
  apply recorded_of_execUop
  rw [htrace, hnow, State.beginEvent_ctrl, hk]
  rfl

theorem Drive.level_eq (x : Drive) : x.level = decide (x = .deasserted) := by cases x <;> rfl

/-- A SET_SER of `⊥` drives a draw of its own (log 12). -/
theorem ctrlStep_setSer_none (s : State) :
    (ctrlStep (.setSer none) s).ctrl =
        { s.ctrl with ser := Config.freeBit (s.draws + 1), upc := s.ctrl.upc + 1 } ∧
      s.drew (ctrlStep (.setSer none) s) (s.draws + 1) ∧
      s.recorded (ctrlStep (.setSer none) s) (.pin .ser (Config.freeBit (s.draws + 1))) := by
  refine ⟨ctrlStep_ctrl_eq _ s, ⟨Nat.le_succ _, ?_⟩, recorded_of_execUop rfl⟩
  exact devReact_draws_le s (advanceUpc (.setSer none) (execUop (.setSer none) s.beginEvent))

/-- Settles O28: each line's µop is `Ctrl.after` of it, and CHAIN sees no clock but the two it drives. -/
theorem lineUopsDriveOneLine : Obligations.LineUopsDriveOneLine := by
  intro s t x b
  rw [← Drive.level_eq]
  refine ⟨?_, ?_, ?_, ?_, ?_, ?_, ?_⟩ <;> rintro rfl
  · exact ⟨ctrl_fixed rfl s, (chain_fixed rfl s).trans (react_setCe ..), recorded_plain rfl rfl⟩
  · exact ⟨ctrl_fixed rfl s, (chain_fixed rfl s).trans (react_setOe ..), recorded_plain rfl rfl⟩
  · exact ⟨ctrl_fixed rfl s, (chain_fixed rfl s).trans (react_setWe ..), recorded_plain rfl rfl⟩
  · exact ⟨ctrl_fixed rfl s, (chain_fixed rfl s).trans (react_setSer ..), recorded_plain rfl rfl⟩
  · exact ⟨ctrl_fixed rfl s, recorded_plain rfl rfl⟩
  · exact ⟨ctrl_fixed rfl s, recorded_plain rfl rfl⟩
  · obtain ⟨hctrl, hdrew, hrecorded⟩ := ctrlStep_setSer_none s
    exact ⟨_, hdrew, hctrl, ctrlStep_chain_of_clocks (by rw [hctrl]) (by rw [hctrl]), hrecorded⟩

theorem dir_eq_replicate {v : Vector Dir 8} {d : Dir} (h : ∀ i : Fin 8, v[i] = d) : v = Vector.replicate 8 d := by
  ext1 i hi
  rw [Vector.getElem_replicate]
  exact h ⟨i, hi⟩

/-- Settles O30: SET_DIR writes all of `dir`, SET_DOUT one place of `dout`. -/
theorem dataBusUopsDriveTheirLines : Obligations.DataBusUopsDriveTheirLines := by
  constructor
  · rintro s t d rfl
    have hctrl : (ctrlStep (.setDir d) s).ctrl = s.ctrl.after (.setDir d) := ctrl_fixed rfl s
    refine ⟨hctrl, fun i => ?_, (chain_fixed rfl s).trans (react_setDir ..), recorded_plain rfl rfl, fun hdir => ?_⟩
    · rw [hctrl]
      exact Vector.getElem_replicate i.isLt
    · rw [hctrl, Ctrl.after, ← dir_eq_replicate hdir]
  · rintro s t i rfl
    have hctrl : (ctrlStep (.setDout i) s).ctrl = s.ctrl.after (.setDout i) := ctrl_fixed rfl s
    rw [hctrl]
    refine ⟨?_, fun j hj => ?_, rfl, (chain_fixed rfl s).trans (react_setDout ..), recorded_plain rfl rfl⟩
    · exact (Bits.getElem_setBit ..).trans (if_pos rfl)
    · exact (Bits.getElem_setBit ..).trans (if_neg hj.symm)

/-! ### WAIT (R106) -/

theorem ctrlStep_wait_ctrl (n : Nat) (s : State) :
    (ctrlStep (.wait n) s).ctrl = { s.ctrl with upc := s.ctrl.upc + 1 } := ctrl_fixed rfl s

theorem ctrlStep_wait_chain (n : Nat) (s : State) : (ctrlStep (.wait n) s).chain = s.chain :=
  (chain_fixed rfl s).trans (react_wait ..)

/-- WAIT lasts its gap and its drawn duration, the one it records. -/
theorem ctrlStep_wait_recorded (n : Nat) (s : State) :
    s.recorded (ctrlStep (.wait n) s) (.wait n (n + Config.freeTime (s.draws + 1))) ∧
      s.now + (n + Config.freeTime (s.draws + 1)) ≤ (ctrlStep (.wait n) s).now := by
  refine ⟨recorded_of_execUop rfl, ?_⟩
  simp only [ctrlStep, execUop, State.wait, devReact_now, advanceUpc_now, State.emit_now, State.passTime_now,
    State.beginEvent_now, State.beginEvent_draws]
  omega

/-- "No pin changes" (R106), so the device sees nothing to react to. -/
theorem ctrlStep_wait_dev (n : Nat) {s : State} (hpulse : s.pulseInStep) : (ctrlStep (.wait n) s).dev = s.dev := by
  obtain ⟨_, e⟩ := reacted_of_afterEvent s (ctrlStep (.wait n) s) (.inl ⟨_, rfl⟩)
  have hctrl := ctrlStep_wait_ctrl n s
  obtain ⟨hdev, -⟩ := e.still hpulse (by rw [hctrl]) (by rw [hctrl]) (by rw [hctrl]) (ctrlStep_wait_chain n s)
    (by rw [hctrl]) (by rw [hctrl])
  exact hdev

/-- Settles O32: WAIT's duration is its draw, and it writes no line. -/
theorem waitTakesItsTime : Obligations.WaitTakesItsTime := by
  rintro s t n rfl
  obtain ⟨hrecorded, hnow⟩ := ctrlStep_wait_recorded n s
  exact ⟨_, Nat.le_add_right _ _, hnow, hrecorded, ctrlStep_wait_ctrl n s, ctrlStep_wait_chain n s,
    ctrlStep_wait_dev n⟩

/-! ### SAMPLE (R145, R55, R56) -/

/-- The device drives exactly where CE and OE are asserted and WE is not (R34). -/
theorem Ctrl.devDrives_eq_true_iff (c : Ctrl) :
    c.devDrives = true ↔ c.ceN = false ∧ c.oeN = false ∧ c.weN = true := by
  simp [Ctrl.devDrives, Ctrl.ce, Ctrl.oe, Ctrl.we, and_assoc]

theorem sampled?_output {s : State} {i : Fin 8} (h : s.ctrl.dir[i] = .output) : s.sampled? i = s.ctrl.dout[i] :=
  if_pos h

theorem sampled?_floating {s : State} {i : Fin 8} (h : s.ctrl.dir[i] = .input) (hd : ¬s.ctrl.devDrives = true) :
    s.sampled? i = none := by
  rw [State.sampled?, if_neg (by rw [h]; decide), if_neg hd]

theorem sampled?_device {s : State} {i : Fin 8} (h : s.ctrl.dir[i] = .input) (hd : s.ctrl.devDrives = true) :
    s.sampled? i = s.devOut? i := by
  rw [State.sampled?, if_neg (by rw [h]; decide), if_pos hd]

theorem devOut?_busy {s : State} (h : s.now < s.dev.busyUntil) (i : Fin 8) : s.devOut? i = none :=
  if_pos (decide_eq_true h)

theorem devOut?_unsettled {s : State} (h : s.now - s.dev.lastSelChange < s.cfg.tAccessDev) (i : Fin 8) :
    s.devOut? i = none := by
  rw [State.devOut?, if_pos h, ite_self]

/-- An address with an unknown bit reaches no cell (log 8). -/
theorem reachedCell?_unknown {c : Config} {a : Bits 16} (h : Bits.known a = false) : reachedCell? c a = none := by
  have hvalue : Bits.value? a = none := by rw [Bits.value?, h]; rfl
  rw [reachedCell?, wiredCell?, hvalue, Option.map_none, ite_self]

/-- Settles O31: the bit shifted in is what `State.sampled?` reads or a draw, case by case. -/
theorem sampleReadsTheLine : Obligations.SampleReadsTheLine := by
  rintro s t i rfl
  obtain ⟨b, ⟨n, hexec⟩, hread, hdraw⟩ := sample_cases s i
  have hctrl : (ctrlStep (.sample i) s).ctrl =
      { s.ctrl with rdata := Bits.shiftIn s.ctrl.rdata (some b), upc := s.ctrl.upc + 1 } := by
    rw [ctrlStep_ctrl_eq, hexec]
    rfl
  have hnow : (ctrlStep (.sample i) s).now = s.beginEvent.now := by
    rw [ctrlStep, devReact_now, advanceUpc_now, hexec]
    rfl
  have hnone (h : s.beginEvent.sampled? i = none) :
      ∃ k, s.drew (ctrlStep (.sample i) s) k ∧ b = Config.freeBit k := ⟨_, hdraw h⟩
  refine ⟨b, ⟨?_, ?_, fun k hk => ?_, ?_, ?_⟩, fun hdir l hl => ?_, fun hdir hl => ?_, fun hdir hlines => ?_,
    fun hdir hce hoe hwe => ?_⟩
  · rw [hctrl]
  · rw [hctrl, Bits.getElem_shiftIn, if_pos rfl]
  · rw [hctrl, Bits.getElem_shiftIn, if_neg k.succ_ne_zero]
    rfl
  · exact ctrlStep_chain_of_clocks (by rw [hctrl]) (by rw [hctrl])
  · exact recorded_of_execUop (by rw [hexec]; rfl)
  · exact hread l ((sampled?_output (s := s.beginEvent) hdir).trans hl)
  · exact hnone ((sampled?_output (s := s.beginEvent) hdir).trans hl)
  · refine hnone (sampled?_floating (s := s.beginEvent) hdir ?_)
    rw [State.beginEvent_ctrl, Ctrl.devDrives_eq_true_iff]
    rintro ⟨hce, hoe, hwe⟩
    simp [hce, hoe, hwe] at hlines
  · have hout : s.beginEvent.sampled? i = s.beginEvent.devOut? i :=
      sampled?_device hdir ((Ctrl.devDrives_eq_true_iff _).mpr ⟨hce, hoe, hwe⟩)
    rw [hout] at hread hnone
    rw [hnow]
    refine ⟨fun h => hnone (devOut?_busy h i), fun h => hnone (devOut?_unsettled h i),
      fun h => hnone (devOut?_none (s := s.beginEvent) (reachedCell?_unknown h) i),
      fun a ha => ⟨fun h => ?_, fun hfree hsettled h => ?_⟩⟩
    · exact hnone (devOut?_none (by rw [State.beginEvent_chain, ha]; exact reachedCell?_of_not_reaches h) i)
    · exact hread _ (devOut?_valid hfree hsettled
        (by rw [State.beginEvent_chain, ha]; exact reachedCell?_of_reaches h) i)

/-! ## Faults (R201, R202) -/

theorem Ctrl.drivesSomeLine_eq (c : Ctrl) : c.drivesSomeLine = decide (∃ i : Fin 8, c.dir[i] = .output) := by
  rw [Bool.eq_iff_iff, decide_eq_true_iff, Ctrl.drivesSomeLine, List.any_eq_true]
  simp only [decide_eq_true_eq, Vector.mem_toList_iff, Vector.mem_iff_getElem]
  exact ⟨fun ⟨_, ⟨i, hi, e⟩, hx⟩ => ⟨⟨i, hi⟩, e.trans hx⟩, fun ⟨i, hi⟩ => ⟨_, ⟨i, i.isLt, rfl⟩, hi⟩⟩

theorem Ctrl.dirChangeEnabled_eq (d : Dir) (c : Ctrl) :
    c.dirChangeEnabled d = decide ((c.oeN = false ∨ c.weN = false) ∧ ∃ i : Fin 8, c.dir[i] ≠ d) := by
  rw [Bool.eq_iff_iff, decide_eq_true_iff, Ctrl.dirChangeEnabled, Bool.and_eq_true, List.any_eq_true]
  simp only [decide_eq_true_eq, Vector.mem_toList_iff, Vector.mem_iff_getElem, Ctrl.oe, Ctrl.we, Bool.or_eq_true,
    Bool.not_eq_true']
  refine and_congr Iff.rfl ⟨fun ⟨_, ⟨i, hi, e⟩, hx⟩ => ⟨⟨i, hi⟩, fun h => hx (e.symm.trans h)⟩, fun ⟨i, hi⟩ => ?_⟩
  exact ⟨_, ⟨i, i.isLt, rfl⟩, hi⟩

theorem Bits.not_known_eq {n : Nat} (v : Bits n) : (!Bits.known v) = decide (∃ i : Fin n, v[i] = none) := by
  rw [Bool.eq_iff_iff, decide_eq_true_iff, Bool.not_eq_true', ← Bool.not_eq_true, Bits.known_iff]
  simp only [not_forall, Option.not_isSome_iff_eq_none]
  exact ⟨fun ⟨i, hi, h⟩ => ⟨⟨i, hi⟩, h⟩, fun ⟨i, h⟩ => ⟨i, i.isLt, h⟩⟩

section
variable (u : Uop) (s t : State)

theorem raised_f1 : raised u s t .f1Contention = (t.ctrl.devDrives && t.ctrl.drivesSomeLine) := by
  rw [Ctrl.drivesSomeLine_eq, Bool.eq_iff_iff, Bool.and_eq_true, Ctrl.devDrives_eq_true_iff]
  simp [raised, and_assoc]

theorem raised_f2 : raised u s t .f2OeWe = (t.ctrl.oe && t.ctrl.we) := by
  rw [Bool.eq_iff_iff]
  simp [raised, Ctrl.oe, Ctrl.we]

theorem raised_f3 : raised u s t .f3DirChangeEnabled = u.dirCheck s.ctrl := by
  cases u with
  | setDir d => exact (Ctrl.dirChangeEnabled_eq d s.ctrl).symm
  | _ => rfl

theorem raised_f4 :
    raised u s t .f4WriteUnstable = (s.dev.pulseActive && t.ctrl.strobing && writeInputsChanged s t) := by
  rw [Bool.eq_iff_iff]
  simp [raised, writeInputsChanged, Ctrl.strobing, Ctrl.ce, Ctrl.we, and_assoc, or_assoc]

theorem raised_f5 :
    raised u s t .f5AddrUndefined =
      (t.ctrl.ce && (t.ctrl.oe || t.ctrl.we) && !Bits.known t.chain.storage) := by
  rw [Bits.not_known_eq, Bool.eq_iff_iff]
  simp [raised, Ctrl.ce, Ctrl.oe, Ctrl.we, and_assoc]

end

/-- Checks made one after the other are the raised codes in their order. -/
theorem addMarks_filter (p : FaultCode → Bool) (e : Nat) (l : List FaultMark) (fs : List FaultCode) :
    addMarks e l (fs.filter p) = fs.foldl (fun l f => markIf (p f) f e l) l := by
  induction fs generalizing l with
  | nil => rfl
  | cons f fs ih =>
    rw [List.foldl_cons, ← ih, markIf, ← addMarks_append]
    cases hf : p f <;> simp [hf]

/-- The five checks of an event add the raised codes not marked yet (R201, R202). -/
theorem ctrlStep_faults_raised (u : Uop) (s : State) :
    (ctrlStep u s).faults =
      s.faults ++
        ((checkOrder.filter fun f =>
          raised u s (ctrlStep u s) f && !(s.faults.map FaultMark.code).contains f).map fun f =>
            (⟨f, s.trace.length⟩ : FaultMark)) := by
  have hchecks : (ctrlStep u s).faults =
      addMarks s.trace.length s.faults (checkOrder.filter (raised u s (ctrlStep u s))) := by
    rw [addMarks_filter]
    simp only [checkOrder, List.foldl_cons, List.foldl_nil, raised_f1, raised_f2, raised_f3, raised_f4, raised_f5]
    exact ctrlStep_faults u s
  have hnodup : checkOrder.Nodup := by decide
  rw [hchecks, addMarks_eq _ _ _ (hnodup.filter _), List.filter_filter]
  simp only [Bool.and_comm]

/-- Settles O34: the checks of the event are the conditions of R201, in the order of R202. -/
theorem faultsAreRaisedExactly : Obligations.FaultsAreRaisedExactly := by
  rintro s t u rfl
  refine ⟨ctrlStep_faults_raised u s, fun hmarked hfinal => ?_⟩
  obtain ⟨-, hfaults, -⟩ := hfinal
  exact hmarked hfaults

end Sys2Proof.Machine

namespace Sys2Proof.Machine

/-! ## The write-pulse rules, event by event (R54, R57, R58, R73) -/

/-- Whatever the write-pulse rules do, the select time is that of R54 step 5. -/
theorem Reacted.lastSelChange {s x t : State} (e : Reacted s x t) :
    t.dev.lastSelChange = if selectChanged s t then t.now else s.dev.lastSelChange := by
  have hx : t.dev.lastSelChange = x.dev.lastSelChange := by
    rw [e.eq, pulseReact]
    split
    · rfl
    · rw [pulseHeld]
      split <;> simp
    · rw [pulseEnd_dev]
    · rfl
  rw [hx, e.dev]

theorem Ctrl.strobing_eq_true_iff (c : Ctrl) : c.strobing = true ↔ c.ceN = false ∧ c.weN = false := by
  simp [Ctrl.strobing, Ctrl.ce, Ctrl.we]

/-- An event that finds no pulse and leaves CE and WE asserted starts one (R57). -/
theorem Reacted.eq_pulseBegin {s x t : State} (e : Reacted s x t) (hactive : s.dev.pulseActive = false)
    (hstrobe : t.ctrl.strobing = true) : t = x.pulseBegin := by
  rw [e.eq, pulseReact, hactive, e.ctrl, hstrobe]

/-- An event within a pulse that leaves CE and WE asserted is checked for stability (R73). -/
theorem Reacted.eq_pulseHeld {s x t : State} (e : Reacted s x t) (hactive : s.dev.pulseActive = true)
    (hstrobe : t.ctrl.strobing = true) : t = pulseHeld s x := by
  rw [e.eq, pulseReact, hactive, e.ctrl, hstrobe]

theorem Reacted.writeInputsChanged {s x t : State} (e : Reacted s x t) :
    writeInputsChanged s x = writeInputsChanged s t := by
  simp only [Machine.writeInputsChanged, e.ctrl, e.chain]

/-- The device but for the select time, before the write-pulse rules. -/
theorem Reacted.dev_eq {s x t : State} (e : Reacted s x t) :
    x.dev = { s.dev with lastSelChange := t.dev.lastSelChange } := by
  rw [e.lastSelChange, e.dev]

/-- Settles O35: the record follows the lines in every event, and what starts a pulse is `State.pulseBegin`. -/
theorem pulseStartCaptures : Obligations.PulseStartCaptures := by
  constructor
  · intro s t hevent
    obtain ⟨_, e⟩ := reacted_of_afterEvent s t hevent
    exact e.pulseActive
  · intro s t hevent hactive hce hwe
    obtain ⟨x, e⟩ := reacted_of_afterEvent s t hevent
    have ht : t.dev = x.pulseBegin.dev :=
      congrArg State.dev (e.eq_pulseBegin hactive ((Ctrl.strobing_eq_true_iff _).mpr ⟨hce, hwe⟩))
    constructor
    · simp [Ctrl.devDrives, Ctrl.we, hwe]
    · conv_lhs => rw [ht, State.pulseBegin]
      simp only [e.chain, e.now, e.ctrl, State.busy, e.dev_eq]
      rfl

theorem code_mem_raiseFault (f : FaultCode) (n : Nat) (s : State) :
    f ∈ (s.raiseFault f n).faults.map FaultMark.code := by
  rw [raiseFault_faults, List.contains_eq_mem]
  by_cases h : f ∈ s.faults.map FaultMark.code
  · simp [h]
  · simp [h]

theorem writeInputsChanged_eq_true_iff (s t : State) :
    writeInputsChanged s t = true ↔
      s.chain.storage ≠ t.chain.storage ∨ s.ctrl.dir ≠ t.ctrl.dir ∨ s.ctrl.dout ≠ t.ctrl.dout := by
  simp [writeInputsChanged, or_assoc]

/-- Settles O36: such an event's reaction is `pulseHeld`, and `writeInputsChanged` its condition. -/
theorem unstablePulseIsMarked : Obligations.UnstablePulseIsMarked := by
  intro s t hevent hactive hce hwe
  obtain ⟨x, e⟩ := reacted_of_afterEvent s t hevent
  have ht := e.eq_pulseHeld hactive ((Ctrl.strobing_eq_true_iff _).mpr ⟨hce, hwe⟩)
  rw [pulseHeld, e.writeInputsChanged] at ht
  refine ⟨fun hchanged => ?_, fun hstorage hdir hdout => ?_⟩
  · rw [if_pos ((writeInputsChanged_eq_true_iff s t).mpr hchanged)] at ht
    constructor
    · conv_lhs => rw [ht]
      simp only [State.raiseFault_dev, e.dev_eq]
    · rw [ht]
      exact code_mem_raiseFault ..
  · have hsame : ¬writeInputsChanged s t = true := by
      rw [writeInputsChanged_eq_true_iff]
      simp [hstorage, hdir, hdout]
    rw [if_neg hsame] at ht
    conv_lhs => rw [ht]
    exact e.dev_eq

/-! ### What a pulse end leaves in the array (R58) -/

/-- The end of a pulse, as `State.pulseStore` has it from the event's own state. -/
theorem Reacted.pulseEnd_store {s x t : State} (e : Reacted s x t) (hactive : s.dev.pulseActive = true)
    (hend : t.ctrl.ceN = true ∨ t.ctrl.weN = true) :
    t.dev.mem = x.pulseStore.dev.mem ∧ t.trace = x.pulseStore.trace ∧ t.draws = x.pulseStore.draws := by
  rw [e.eq_pulseEnd s t x hactive hend]
  exact ⟨rfl, rfl, rfl⟩

/-- The cells made draws: one event, last in the trace, and the draws taken. -/
theorem Reacted.corrupt {s x t : State} (e : Reacted s x t) (hactive : s.dev.pulseActive = true)
    (hend : t.ctrl.ceN = true ∨ t.ctrl.weN = true) {set : CellSet} (hstore : x.pulseStore = x.corrupt set) :
    t.dev.mem = (x.corrupt set).dev.mem ∧ t.draws = (x.corrupt set).draws ∧
      t.trace.getLast? = some ⟨.corrupt set, t.now⟩ := by
  obtain ⟨hmem, htrace, hdraws⟩ := e.pulseEnd_store hactive hend
  rw [hstore] at hmem htrace hdraws
  rw [corrupt_trace, e.now] at htrace
  exact ⟨hmem, hdraws, by rw [htrace, List.getLast?_concat]⟩

/-- Every cell of the array becomes a draw of its own. -/
theorem Reacted.corrupt_all {s x t : State} (e : Reacted s x t) (hactive : s.dev.pulseActive = true)
    (hend : t.ctrl.ceN = true ∨ t.ctrl.weN = true) (hstore : x.pulseStore = x.corrupt .all) :
    ∃ k, s.draws ≤ k ∧ k + s.cfg.addrSpace ≤ t.draws ∧ t.trace.getLast? = some ⟨.corrupt .all, t.now⟩ ∧
      ∀ c, c < s.cfg.addrSpace → Memory.read t.dev.mem c = Config.freeByte (k + c) := by
  obtain ⟨hmem, hdraws, hlast⟩ := e.corrupt hactive hend hstore
  refine ⟨x.draws, e.draws.le, ?_, hlast, fun c hc => ?_⟩
  · rw [hdraws, State.corrupt, State.emit_draws, e.cfg]
  · rw [hmem, State.corrupt, State.emit_dev]
    exact Memory.read_fill (by rwa [e.cfg])

/-- One cell becomes a draw. -/
theorem Reacted.corrupt_one {s x t : State} (e : Reacted s x t) (hm : s.memInv) (hactive : s.dev.pulseActive = true)
    (hend : t.ctrl.ceN = true ∨ t.ctrl.weN = true) {a : Nat} (hstore : x.pulseStore = x.corrupt (.cells [a])) :
    ∃ k, s.drew t k ∧ t.trace.getLast? = some ⟨.corrupt (.cells [a]), t.now⟩ ∧
      ∀ c, Memory.read t.dev.mem c = if c = a then Config.freeByte k else Memory.read s.dev.mem c := by
  obtain ⟨hwf, -⟩ := hm
  obtain ⟨hmem, hdraws, hlast⟩ := e.corrupt hactive hend hstore
  have hx : x.dev.mem = s.dev.mem := by rw [e.dev]
  refine ⟨x.draws, ⟨e.draws.le, ?_⟩, hlast, fun c => ?_⟩
  · rw [hdraws]
    exact Nat.lt_succ_self _
  · rw [hmem, State.corrupt, State.emit_dev, corruptCells_mem_one, hx, Memory.read_write hwf]

/-- Two cells become draws, the second one named keeping its draw where they are one (log 11). -/
theorem Reacted.corrupt_pair {s x t : State} (e : Reacted s x t) (hm : s.memInv) (hactive : s.dev.pulseActive = true)
    (hend : t.ctrl.ceN = true ∨ t.ctrl.weN = true) {a b : Nat}
    (hstore : x.pulseStore = x.corrupt (.cells [a, b])) :
    ∃ j k, s.drew t j ∧ s.drew t k ∧ j ≠ k ∧ t.trace.getLast? = some ⟨.corrupt (.cells [a, b]), t.now⟩ ∧
      ∀ c, Memory.read t.dev.mem c =
        if c = b then Config.freeByte k else if c = a then Config.freeByte j else Memory.read s.dev.mem c := by
  obtain ⟨hwf, -⟩ := hm
  obtain ⟨hmem, hdraws, hlast⟩ := e.corrupt hactive hend hstore
  have hx : x.dev.mem = s.dev.mem := by rw [e.dev]
  have hdraws : t.draws = x.draws + 2 := hdraws
  have hle := e.draws
  refine ⟨x.draws, x.draws + 1, ⟨hle.le, by omega⟩, ⟨by omega, by omega⟩, by omega, hlast, fun c => ?_⟩
  rw [hmem, State.corrupt, State.emit_dev, read_corruptCells_pair (by rwa [hx]), hx]

section
variable {s x t : State} {a : Addr}

theorem Reacted.reached (e : Reacted s x t) (haddr : s.dev.pulseAddr = Bits.ofBitVec a) (hreach : s.cfg.reaches a) :
    reachedCell? x.cfg x.dev.pulseAddr = some (s.cfg.cellOf a) := by
  rw [e.cfg, e.dev, haddr]
  exact reachedCell?_of_reaches hreach

theorem Reacted.not_reached (e : Reacted s x t) (haddr : s.dev.pulseAddr = Bits.ofBitVec a)
    (hreach : ¬s.cfg.reaches a) : reachedCell? x.cfg x.dev.pulseAddr = none := by
  rw [e.cfg, e.dev, haddr]
  exact reachedCell?_of_not_reaches hreach

end

theorem wiredCell?_ofBitVec (c : Config) (a : Addr) : wiredCell? c (Bits.ofBitVec a) = some (c.cellOf a) := by
  rw [wiredCell?, Bits.value?_ofBitVec]
  rfl

theorem Bits.value?_of_not_known {n : Nat} {v : Bits n} (h : Bits.known v = false) : Bits.value? v = none := by
  rw [Bits.value?, h]
  rfl

/-- An undriven line: the cell becomes a draw (R58). -/
theorem pulseStore_undriven {s : State} {a : Nat} (h1 : s.dev.pulseBusyAtStart = some false)
    (h2 : reachedCell? s.cfg s.dev.pulseAddr = some a) (h3 : s.dev.pulseUnstable = false)
    (h4 : Bits.known s.dev.pulseData = false) : s.pulseStore = s.corrupt (.cells [a]) := by
  simp only [State.pulseStore, h1, h2, h3, Bits.value?_of_not_known h4]
  simp

/-- Too short a pulse, whatever its data (R60). -/
theorem pulseStore_of_width {s : State} {a b : Nat} (h1 : s.dev.pulseBusyAtStart = some false)
    (h2 : reachedCell? s.cfg s.dev.pulseAddr = some a) (h3 : s.dev.pulseUnstable = false)
    (h4 : s.dev.pulseStart = some b) (h5 : s.now - b < s.cfg.tWpDev) : s.pulseStore = s.corrupt (.cells [a]) := by
  cases hk : Bits.known s.dev.pulseData with
  | false => exact pulseStore_undriven h1 h2 h3 hk
  | true =>
    obtain ⟨v, -, hv⟩ := Bits.value?_of_known _ hk
    exact pulseStore_short h1 h2 h3 h4 hv h5

/-- Out of range with `OOR_MODE = UNDEFINED`, busy or not: every cell becomes a draw (R61, R62). -/
theorem pulseStore_all {s : State} {p : Bool} (h1 : s.dev.pulseBusyAtStart = some p)
    (h2 : reachedCell? s.cfg s.dev.pulseAddr = none) : s.pulseStore = s.corrupt .all := by
  cases p with
  | false => exact pulseStore_outOfRange h1 h2
  | true =>
    rw [pulseStore_busy h1, h2]
    cases wiredCell? s.cfg s.dev.wcAddr <;> rfl

/-- Settles O38: the pulse end's last branch, from the record the event found. -/
theorem pulseEndCommits : Obligations.PulseEndCommits := by
  intro s t a v b hevent hm hactive hend hbusy haddr hreach hstable hstart hwidth hdata
  obtain ⟨x, e⟩ := reacted_of_afterEvent s t hevent
  obtain ⟨hmem, htrace, -⟩ := e.pulseEnd_store hactive hend
  obtain ⟨hwf, -⟩ := hm
  have hstore : x.pulseStore = x.commit (s.cfg.cellOf a) v :=
    pulseStore_commit (by rw [e.dev, hbusy]) (e.reached haddr hreach) (by rw [e.dev, hstable])
      (by rw [e.dev, hstart]) (by rw [e.dev, hdata]) (by rwa [e.now, e.cfg])
  have hx : x.dev.mem = s.dev.mem := by rw [e.dev]
  rw [hstore] at hmem htrace
  constructor
  · rw [htrace, State.commit_trace, List.getLast?_concat, e.now]
  · intro c
    rw [hmem, State.commit_dev, hx, Memory.read_write hwf]

/-- Settles O39: each branch of R58 that corrupts, by the cells it names. -/
theorem pulseEndDraws : Obligations.PulseEndDraws := by
  intro s t a hevent hm hactive hend haddr
  obtain ⟨x, e⟩ := reacted_of_afterEvent s t hevent
  have hbusy : x.dev.pulseBusyAtStart = s.dev.pulseBusyAtStart := by rw [e.dev]
  have hunstable : x.dev.pulseUnstable = s.dev.pulseUnstable := by rw [e.dev]
  refine ⟨fun w hp hreach hw => ?_, fun ⟨p, hp⟩ hreach => ?_, fun b hp hreach hunst hb => ?_,
    fun hp hreach hstable hbad => ?_⟩
  · refine e.corrupt_pair hm hactive hend ?_
    have hwc : wiredCell? x.cfg x.dev.wcAddr = some (s.cfg.cellOf w) := by
      rw [e.cfg, e.dev, hw, wiredCell?_ofBitVec]
    rw [pulseStore_busy (hbusy.trans hp), hwc, e.reached haddr hreach]
    rfl
  · exact e.corrupt_all hactive hend (pulseStore_all (hbusy.trans hp) (e.not_reached haddr hreach))
  · refine e.corrupt_pair hm hactive hend ?_
    have hst : wiredCell? x.cfg x.chain.storage = some (s.cfg.cellOf b) := by
      rw [e.cfg, e.chain, hb, wiredCell?_ofBitVec]
    rw [pulseStore_unstable (hbusy.trans hp) (e.reached haddr hreach) (hunstable.trans hunst), hst]
    rfl
  · refine e.corrupt_one hm hactive hend ?_
    have hp := hbusy.trans hp
    have hstable := hunstable.trans hstable
    rcases hbad with ⟨b, hstart, hwidth⟩ | hdata
    · exact pulseStore_of_width hp (e.reached haddr hreach) hstable (by rw [e.dev, hstart])
        (by rwa [e.now, e.cfg])
    · exact pulseStore_undriven hp (e.reached haddr hreach) hstable (by rw [e.dev, hdata])

/-- Settles O60: with an address line unknown R73 names no cell, so the set is the whole array (log 8). -/
theorem unstablePulseAtNoAddressDraws : Obligations.UnstablePulseAtNoAddressDraws := by
  constructor
  · intro s
    rw [State.resetEvent_ctrl, State.resetEvent_chain]
    exact ⟨.inr rfl, rfl, Bits.known_unknown 15⟩
  · intro s t a hevent hactive hend haddr hbusy hreach hunstable hunknown
    obtain ⟨x, e⟩ := reacted_of_afterEvent s t hevent
    have hst : wiredCell? x.cfg x.chain.storage = none := by
      rw [e.chain, wiredCell?, Bits.value?_of_not_known hunknown]
      rfl
    refine e.corrupt_all hactive hend ?_
    rw [pulseStore_unstable (by rw [e.dev, hbusy]) (e.reached haddr hreach) (by rw [e.dev, hunstable]), hst]
    rfl

/-! ### The select time (R54 step 5, R38) -/

theorem selectChanged_eq_true_iff (s t : State) :
    selectChanged s t = true ↔
      s.ctrl.ceN ≠ t.ctrl.ceN ∨ s.ctrl.oeN ≠ t.ctrl.oeN ∨
        ∃ i : Fin 16, i.val < t.cfg.addrBits ∧ s.chain.storage[i] ≠ t.chain.storage[i] := by
  simp only [selectChanged, Bool.or_eq_true, decide_eq_true_eq, ne_eq, Bits.low_eq_iff, not_forall, exists_prop]
  rw [or_assoc, or_comm, or_assoc]

/-- Settles O40: the select time after an event is `now` exactly at a select change. -/
theorem selectChangeIsTimed : Obligations.SelectChangeIsTimed := by
  intro s t hevent
  obtain ⟨x, e⟩ := reacted_of_afterEvent s t hevent
  have hiff := selectChanged_eq_true_iff s t
  rw [e.tcfg] at hiff
  rw [e.lastSelChange]
  refine ⟨fun h => if_pos (hiff.mpr h), fun hce hoe hwired => if_neg ?_⟩
  rw [hiff]
  rintro (h | h | ⟨i, hi, h⟩)
  · exact h hce
  · exact h hoe
  · exact h (hwired i hi)

/-! ### A transfer in read hold (R72) -/

/-- Settles O59: read hold stays calm at a known address, the rise transfers, and from the select change on the device
drives the new cell once its access time has passed. -/
theorem latchMovesTheDrivenOutput : Obligations.LatchMovesTheDrivenOutput := by
  rintro s a hhold hrclk hactive hshift t rfl
  have hreact : s.chain.react s.ctrl (s.ctrl.after (.setRclk true)) = ⟨Bits.ofBitVec a, Bits.ofBitVec a⟩ := by
    rw [react_setRclk_rising s.chain hrclk, hshift]
  have hhold' : (s.ctrl.after (.setRclk true)).readHold := hhold
  obtain ⟨hcalm, hdrives⟩ := calm_readHold hhold' (Bits.known_ofBitVec a)
  obtain ⟨hran, hctrl, hchain⟩ := ran_plain (u := .setRclk true) rfl hactive trivial (by rwa [hreact])
  rw [hreact] at hchain
  obtain ⟨-, -, -, hdir⟩ := hhold
  refine ⟨hran.faults, by rw [hctrl, hdrives], by rw [hchain], fun hwired => ?_, fun d hfree hsettled hreach i => ?_⟩
  · obtain ⟨htimed, -⟩ := selectChangeIsTimed s (ctrlStep (.setRclk true) s) (.inl ⟨_, rfl⟩)
    exact htimed (.inr (.inr hwired))
  · have hinput : ¬((ctrlStep (.setRclk true) s).hostIdle d).ctrl.dir[i] = .output := by
      rw [State.hostIdle_ctrl, hctrl, Ctrl.after, show s.ctrl.dir = Vector.replicate 8 .input from hdir]
      simp
    have hdrives' : ((ctrlStep (.setRclk true) s).hostIdle d).ctrl.devDrives = true := by
      rw [State.hostIdle_ctrl, hctrl, hdrives]
    have hreached : reachedCell? ((ctrlStep (.setRclk true) s).hostIdle d).cfg
        ((ctrlStep (.setRclk true) s).hostIdle d).chain.storage =
          some ((ctrlStep (.setRclk true) s).cfg.cellOf a) := by
      rw [State.hostIdle_chain, hchain]
      exact reachedCell?_of_reaches hreach
    rw [State.line, if_neg hinput, if_pos hdrives', devOut?_valid hfree hsettled hreached]
    rfl

end Sys2Proof.Machine

namespace Sys2Proof.Machine

/-! ## Reset (R44, R230, R246) -/

/-- Settles O15: the reset values, each bit of a `⊥` register unknown. -/
theorem resetValues : Obligations.ResetValues := by
  have hunknown {n : Nat} (i : Fin n) : (Bits.unknown n)[i] = none := Bits.getElem_unknown i.val i.isLt
  refine ⟨?_, fun i => ⟨hunknown i, hunknown i⟩, fun a => rfl, rfl, hunknown, rfl, rfl, hunknown, hunknown, rfl, rfl,
    rfl, rfl, rfl, rfl, rfl, rfl⟩
  rintro c rfl
  exact ⟨rfl, rfl, hunknown, hunknown, hunknown, rfl, rfl, rfl, fun i => Vector.getElem_replicate i.isLt, hunknown, rfl,
    rfl, rfl⟩

/-- Where CTRL and CHAIN are at their reset values and no pulse is active a reset's reaction does nothing. -/
theorem devReact_reset_still {s r : State} (h1 : r.ctrl = Ctrl.reset) (h2 : r.chain = Chain.reset)
    (h3 : s.ctrl = r.ctrl) (h4 : s.chain = r.chain) (hpulse : s.dev.pulseActive = false) : devReact s r = r := by
  have hselect : noteSelect s r = r := by simp [noteSelect, selectChanged, h3, h4]
  rw [devReact_reset h1 h2, hselect, pulseReact, hpulse, h1, Ctrl.reset_strobing]

/-- The power-on event from the launch state (R44; log 6). -/
theorem launch_resetEvent : State.launch.resetEvent = State.reset := by
  have hstill :=
    devReact_reset_still (s := State.launch) (r := State.launch.resetFields.emit .reset) rfl rfl rfl rfl rfl
  rw [State.resetEvent, hstill]
  simp [State.reset, State.emit, State.resetFields, State.passTime, State.launch]

/-- Settles O16: the event's own state is `State.resetFields` with the RESET event recorded. -/
theorem resetEvent : Obligations.ResetEvent := by
  refine ⟨fun s hreset => ?_, launch_resetEvent, rfl⟩
  exact ⟨s.resetFields.emit .reset, s.resetEvent, if_pos hreset, rfl, Nat.le_add_right _ _, rfl, rfl, rfl, rfl, rfl,
    rfl, State.resetEvent_ctrl s, State.resetEvent_chain s, State.resetEvent_now s, State.resetEvent_faults s,
    State.resetEvent_refused s, State.resetEvent_host s, State.resetEvent_rst s, recorded_resetEvent s, resetEvent_dev⟩

/-- A command that a reset planned after `n + 1` CTRL events cuts, or that is over before it (R246). -/
theorem exec_of_reset (i : Instr) {s : State} {n : Nat} {rs : List Nat} (hrst : s.rst = (n + 1) :: rs) :
    exec i s =
      .next
        (if n < (i.uops s.cfg).length then (steps ((i.uops s.cfg).take n) (i.accepted s)).resetEvent
          else steps (i.uops s.cfg) (i.accepted s)) := by
  rw [exec_next, runCommand_of_reset hrst]
  rfl

theorem accepted_rst_cons (i : Instr) {s : State} {n : Nat} {rs : List Nat} (hrst : s.rst = (n + 1) :: rs) :
    (i.accepted s).rst = n :: rs := by
  rw [Instr.accepted, accept_rst, hrst, countDown_succ]

/-- The reset that cuts a command is the first of the plan, its count used up. -/
theorem cut_rst (i : Instr) {s : State} {n : Nat} {rs : List Nat} (hrst : s.rst = (n + 1) :: rs)
    (hn : n < (i.uops s.cfg).length) : (steps ((i.uops s.cfg).take n) (i.accepted s)).resetEvent.rst = rs := by
  have hlen : ((i.uops s.cfg).take n).length = n := List.length_take_of_le hn.le
  rw [State.resetEvent_rst, steps_rst_cons _ (accepted_rst_cons i hrst) hlen.le]
  rfl

theorem whole_rst (i : Instr) {s : State} {n : Nat} {rs : List Nat} (hrst : s.rst = (n + 1) :: rs)
    (hn : (i.uops s.cfg).length ≤ n) :
    (steps (i.uops s.cfg) (i.accepted s)).rst = (n - (i.uops s.cfg).length) :: rs :=
  steps_rst_cons _ (accepted_rst_cons i hrst) hn

theorem mayRecord_rsp {u : Uop} {ph : Phase} {v : Option (Bits 8)} (h : u.mayRecord (.rsp ph v)) : u = .done := by
  cases u with
  | done => rfl
  | _ => simp [Uop.mayRecord] at h

/-- DONE is a table's last row, so no part of the table without it holds one. -/
theorem ne_done_of_mem_take_uops (i : Instr) {c : Config} {n : Nat} (hn : n < (i.uops c).length) {u : Uop}
    (hu : u ∈ (i.uops c).take n) : u ≠ .done := by
  rintro rfl
  have hlast := mem_dropLast_of_take (i.uops c) n hn _ hu
  rw [Instr.uops, table_eq_body c _ _ (phase_ne_ready i), List.dropLast_concat] at hlast
  exact done_not_mem_body _ _ _ hlast

/-- A command cut before its DONE records no response. -/
theorem cut_records_no_rsp (i : Instr) (s : State) {n : Nat} (hn : n < (i.uops s.cfg).length) :
    ∀ e ∈ s.newEvents (steps ((i.uops s.cfg).take n) (i.accepted s)).resetEvent, ∀ ph v, e.kind ≠ .rsp ph v := by
  have hbegin : NewKinds (fun k => ∀ ph v, k ≠ .rsp ph v) s.trace.length s := ⟨Nat.le_refl _, by simp⟩
  have haccept := hbegin.of_append (accept_trace i.phase i.op i.addr i.data s) (by simp)
  have hsteps := haccept.of_steps ((i.uops s.cfg).take n) fun u hu k hk ph v hkind => by
    subst hkind
    rcases hk with hk | hk
    · exact ne_done_of_mem_take_uops i hn hu (mayRecord_rsp hk)
    · cases hk
  obtain ⟨-, hnew⟩ := hsteps.of_resetEvent fun k hk ph v hkind => by
    subst hkind
    rcases hk with hk | hk <;> cases hk
  exact hnew

/-- A command run to its end does not see the plan of resets. -/
theorem exec_without_plan (i : Instr) (s : State) :
    exec i { s with rst := [] } = .next { steps (i.uops s.cfg) (i.accepted s) with rst := [] } := by
  have hplan : { i.accepted s with rst := [] } = i.accepted { s with rst := [] } := rfl
  rw [← steps_rst_irrelevant, hplan]
  exact exec_eq_steps i { s with rst := [] } rfl

/-- Settles O17: the table's first `n` rows and the reset event, or the whole table. -/
theorem resetCutsACommand : Obligations.ResetCutsACommand := by
  intro i s n rs hrst
  refine ⟨fun hn => ⟨_, ?_, rfl, State.resetEvent_ctrl _, State.resetEvent_chain _, cut_rst i hrst hn,
    cut_records_no_rsp i s hn⟩, fun hn => ⟨_, ?_, rfl, whole_rst i hrst hn, exec_without_plan i s⟩⟩
  · rw [exec_of_reset i hrst, if_pos hn]
  · rw [exec_of_reset i hrst, if_neg hn.not_gt]

/-! ## The settle delay (R108) -/

/-- With the record in step a WAIT records itself alone. -/
theorem ctrlStep_wait_trace (n : Nat) {s : State} (hpulse : s.pulseInStep) :
    (ctrlStep (.wait n) s).trace =
      s.trace ++ [⟨.wait n (n + Config.freeTime (s.draws + 1)), (s.beginEvent.passTime n).now⟩] := by
  have hctrl := ctrlStep_wait_ctrl n s
  exact ctrlStep_trace_still hpulse (by rw [hctrl]) (by rw [hctrl])

/-- Settles O19: the two rows of the STARTUP table. -/
theorem startupTakesTwoSteps : Obligations.StartupTakesTwoSteps := by
  intro s hphase hupc hrst hpulse
  have hwait : step s = .next (ctrlStep (.wait s.cfg.tSettle) s) :=
    step_uop (rstDue_nil hrst) (by simp [hphase]) (State.settleBegins.currentUop ⟨hphase, hupc⟩)
  have hctrl := ctrlStep_wait_ctrl s.cfg.tSettle s
  have hchain := ctrlStep_wait_chain s.cfg.tSettle s
  have hdev := ctrlStep_wait_dev s.cfg.tSettle hpulse
  have htrace := ctrlStep_wait_trace s.cfg.tSettle hpulse
  obtain ⟨-, hnow⟩ := ctrlStep_wait_recorded s.cfg.tSettle s
  have hrst' : (ctrlStep (.wait s.cfg.tSettle) s).rst = [] := by rw [ctrlStep_rst, hrst]; rfl
  have hhost := ctrlStep_host (.wait s.cfg.tSettle) s
  generalize ctrlStep (.wait s.cfg.tSettle) s = w at hwait hctrl hchain hdev htrace hnow hrst' hhost
  have hphase' : w.ctrl.phase = .startup := by rw [hctrl, hphase]
  have hpulse' : w.pulseInStep := by
    rw [State.pulseInStep, hdev, hctrl]
    exact hpulse
  have hdone : step w = .next (ctrlStep .done w) := by
    refine step_uop (rstDue_nil hrst') (by simp [hphase']) ?_
    rw [State.currentUop, hctrl, hphase, hupc]
    rfl
  obtain ⟨-, -, hnow'⟩ := ctrlStep_grows .done w
  refine ⟨ctrlStep .done w, _, (s.beginEvent.passTime s.cfg.tSettle).now, ?_, ?_, ?_, ?_, Nat.le_add_right _ _,
    hnow.trans hnow', ?_, ?_⟩
  · rw [run_next hwait, run_next hdone, run_zero]
  · rw [ctrlStep_done_ctrl, hctrl, ← hupc]
  · rw [ctrlStep_done_chain, hchain]
  · rw [ctrlStep_done_dev hpulse', hdev]
  · rw [ctrlStep_done_trace_of_startup hphase' hpulse', htrace]
  · rw [ctrlStep_host, hhost]

/-! ## Time, trace and plan (R39, R40; log 2) -/

/-- What becomes of HOST's plan of resets: its first count goes down, or that reset happens. -/
structure PlanSpent (s t : State) : Prop where
  nil : s.rst = [] → t.rst = []
  cons : ∀ n rs, s.rst = n :: rs → t.rst = rs ∧ t.ctrl = State.reset.ctrl ∨ ∃ k, k ≤ n ∧ t.rst = k :: rs

theorem planSpent_of_eq {s t : State} (h : t.rst = s.rst) : PlanSpent s t where
  nil hs := h.trans hs
  cons n _ hs := .inr ⟨n, Nat.le_refl n, h.trans hs⟩

theorem planSpent_of_countDown {s t : State} (h : t.rst = countDown s.rst) : PlanSpent s t where
  nil hs := by rw [h, hs, countDown_nil]
  cons n rs hs := by
    rw [h, hs]
    cases n with
    | zero => exact .inr ⟨0, Nat.le_refl 0, rfl⟩
    | succ n => exact .inr ⟨n, Nat.le_succ n, rfl⟩

theorem planSpent_resetEvent (s : State) : PlanSpent s s.resetEvent where
  nil hs := by rw [State.resetEvent_rst, hs, List.tail_nil]
  cons n rs hs := .inl ⟨by rw [State.resetEvent_rst, hs, List.tail_cons], State.resetEvent_ctrl s⟩

/-- A command, accepted with no reset due, is cut by the first reset planned or takes its rows off that one's count. -/
theorem planSpent_runCommand (i : Instr) {s : State} (hreset : s.rstDue = false) :
    PlanSpent s (runCommand i.phase i.op i.addr i.data s) where
  nil hs := by
    rw [runCommand_of_no_reset hs]
    exact steps_rst_nil _ _ (by rw [accept_rst, hs, countDown_nil])
  cons n rs hs := by
    cases n with
    | zero => cases hreset.symm.trans (rstDue_zero hs)
    | succ n =>
      have hrun := exec_of_reset i hs
      rw [exec_next, Host.Outcome.next.injEq] at hrun
      rw [hrun]
      split
      · next hn => exact .inl ⟨cut_rst i hs hn, State.resetEvent_ctrl _⟩
      · next hn => exact .inr ⟨_, by omega, whole_rst i hs (Nat.le_of_not_gt hn)⟩

theorem planSpent_step {s t : State} (h : step s = .next t) : PlanSpent s t := by
  rcases step_cases h with ⟨-, rfl⟩ | ⟨-, -, u, -, rfl⟩ | ⟨hreset, -, hmove⟩
  · exact planSpent_resetEvent s
  · exact planSpent_of_countDown (ctrlStep_rst u s)
  · rcases hmove with ⟨-, rfl⟩ | ⟨d, rest, -, rfl⟩ | ⟨w, i, rest, -, -, rfl⟩ | ⟨w, e, rest, -, -, rfl⟩
    · exact planSpent_of_eq rfl
    · exact planSpent_of_eq rfl
    · obtain ⟨hnil, hcons⟩ := planSpent_runCommand i (s := { s with host := rest }) hreset
      exact ⟨hnil, hcons⟩
    · exact planSpent_of_countDown (State.refuse_rst ..)

/-- Settles O21: every move of a step goes forward, and spends the plan from its front. -/
theorem traceAndTimeOnlyGrow : Obligations.TraceAndTimeOnlyGrow := by
  intro s t hstep
  obtain ⟨hnow, hdraws, hcfg, hhost, -, hevents⟩ := forward_step hstep
  obtain ⟨hnil, hcons⟩ := planSpent_step hstep
  exact ⟨hnow, hdraws, hcfg, hhost, hnil, hcons, hevents⟩

/-! ## HOST's script of commands (R66, R81) -/

/-- A command run to its end leaves READY, from any state (R107). -/
theorem steps_uops_ready (i : Instr) (c : Config) (s : State) : (steps (i.uops c) s).ctrl.phase = .ready := by
  rw [Instr.uops, table_eq_body _ _ _ (phase_ne_ready i), steps_append, steps_cons, steps_nil, ctrlStep_done_ctrl]

/-- Settles O27: the first word is the first command's, and its run does not see the rest of the script. -/
theorem scriptRunsItsCommands : Obligations.ScriptRunsItsCommands := by
  intro is rest s hready hrst hhost
  induction is generalizing s with
  | nil =>
    have hhost : s.host = rest := hhost
    rw [← hhost]
    rfl
  | cons i is ih =>
    have hstep : step s =
        .next (runCommand i.phase i.op i.addr i.data { s with host := script is ++ rest }) := by
      rw [step_command (rstDue_nil hrst) hready hhost (decode_encode i), exec_next]
      rfl
    have hrun (m : List HostMove) : runCommand i.phase i.op i.addr i.data { s with host := m } =
        { steps (i.uops s.cfg) (i.accepted s) with host := m } := by
      rw [runCommand_host i s m hrst, runCommand_of_no_reset hrst]
      rfl
    rw [List.length_cons, run_next hstep, execAll_cons, hrun, hrun]
    exact ih _ (steps_uops_ready i s.cfg _) (steps_rst_nil _ _ (congrArg countDown hrst)) rfl

end Sys2Proof.Machine

namespace Sys2Proof.Machine

/-! ## The frames of the three commands (R127, R147, R148, R160) -/

theorem Ran.length_newEvents {s t : State} {ks : List EventKind} (h : Ran s t ks) :
    (s.newEvents t).length = ks.length := by
  obtain ⟨evs, htrace, rfl, -⟩ := h.trace
  rw [newEvents_eq htrace, List.length_map]

theorem LatchBetween.pins {s t : State} {a : Addr} {u : Byte} (h : LatchBetween s t a u) :
    pinSequence t.trace = pinSequence s.trace ++ latchCommandEvents a u := by
  rw [h.ran.pinSequence, List.filter_cons_of_pos rfl, List.filter_append, latchEvents_filter]
  rfl

/-- Settles O44: LATCH is a run without pulse or fault of ACCEPT, the 50 latch events and RSP. -/
theorem latchFrame : Obligations.LatchFrame := by
  intro s a u hrest hrst
  obtain ⟨t, hrun, h⟩ := latch_between a u hrest hrst
  refine ⟨t, hrun, h.rest, h.ran.dev, fun x => by rw [h.ran.mem], h.ran.cfg, h.ran.faults, h.ran.refused, h.ran.host,
    h.rst, h.ran.now_le, ?_, h.pins⟩
  rw [h.ran.length_newEvents]
  simp [latchEvents_length]

theorem ReadBetween.pins {s t : State} {a : Addr} {u v : Byte} (h : ReadBetween s t a u v) :
    pinSequence t.trace = pinSequence s.trace ++ readEvents s.cfg.readExitDeassert a u v := by
  obtain ⟨d, hran⟩ := h.ran
  rw [hran.pinSequence, readEvents_eq]

theorem exitEvents_length (c : Config) (v : Byte) :
    (exitEvents c v).length = if c.readExitDeassert then 3 else 1 := by
  unfold exitEvents
  split <;> rfl

/-- Settles O45: READ is a run without pulse or fault, of the events of its table. -/
theorem readFrame : Obligations.ReadFrame := by
  intro s a u hrest hrst
  obtain ⟨t, v, hrun, h⟩ := read_between a u hrest hrst
  obtain ⟨d, hran⟩ := h.ran
  refine ⟨t, v, hrun, h.rest, by rw [h.ctrl], hran.dev, fun x => by rw [hran.mem], hran.cfg, hran.faults, hran.refused,
    hran.host, h.rst, h.time, ?_, h.pins⟩
  rw [hran.length_newEvents]
  simp only [List.length_cons, List.length_append, List.length_map, List.length_nil, latchEvents_length,
    exitEvents_length]
  split <;> rfl

section
variable {s t w : State} {a : Addr} {d : Byte} {b : Nat} {evs1 : List Event} {k : EventKind} {dw x dr y z : Nat}

theorem WriteBetween.length_newEvents (h : WriteBetween s t w a d b evs1 k dw x dr y z) :
    (s.newEvents t).length = 71 := by
  rw [h.new, List.length_append, h.len]
  rfl

/-- The device after a WRITE: its pulse's record and busy window (R57, R59). -/
theorem WriteBetween.tdev (h : WriteBetween s t w a d b evs1 k dw x dr y z) (hpulse : s.dev.pulseActive = false) :
    t.dev =
      { s.dev with
        mem := t.dev.mem
        busyUntil := w.now + s.cfg.tWcDev
        wcAddr := Bits.ofBitVec a
        pulseStart := some b
        pulseAddr := Bits.ofBitVec a
        pulseData := Bits.ofBitVec d
        pulseBusyAtStart := some (decide (b < s.dev.busyUntil))
        pulseUnstable := false
        lastSelChange := t.dev.lastSelChange } := by
  have hdev := h.dev
  rw [pulseEnd_dev, h.wcfg, ← h.tmem, h.wdev] at hdev
  refine hdev.trans ?_
  simp only [hpulse]

/-- The array after a WRITE that commits (R58). -/
theorem WriteBetween.stored (h : WriteBetween s t w a d b evs1 k dw x dr y z) (hmem : s.memInv) (hfree : s.deviceFree)
    (hreach : s.cfg.reaches a) (hwidth : s.cfg.tWpDev ≤ s.cfg.tStrobe) (c : Nat) :
    Memory.read t.dev.mem c = if c = s.cfg.cellOf a then d else Memory.read s.dev.mem c := by
  by_cases hc : c = s.cfg.cellOf a
  · rw [if_pos hc, hc]
    exact h.byte hmem hfree hreach hwidth
  · rw [if_neg hc]
    exact h.other hmem hfree hreach c hc

end

/-- Settles O46: WRITE's events are its table's and the one DEV records, and its pulse is the one the device knows. -/
theorem writeFrame : Obligations.WriteFrame := by
  intro s a d hrest hrst
  obtain ⟨t, w, b, _, _, _, _, _, _, _, h⟩ := write_between' a d hrest hrst
  obtain ⟨-, -, -, -, -, hpulse, -⟩ := hrest
  exact ⟨t, b, w.now, h.run, h.rest, h.beg, h.strobe, h.recov, h.tdev hpulse, h.other, h.cfg, h.faults, h.refused,
    h.host, h.rst, h.length_newEvents, h.pins⟩

/-! ### The read result (R160) -/

theorem samples_row {k : Nat} (h : k < 8) : (linesDown.map Uop.sample)[k]? = some (.sample ⟨7 - k, by omega⟩) := by
  interval_cases k <;> rfl

/-- The rows k = 57 to 64 of READ (R147). -/
theorem readTable_sample (c : Config) (a : Bits 16) {k : Nat} (h57 : 57 ≤ k) (h64 : k ≤ 64) :
    (readTable c a)[k]? = some (.sample ⟨64 - k, by omega⟩) := by
  rw [readTable_setUp, setUp_row, if_neg (by omega), if_neg (by omega),
    List.getElem?_append_right (by simp only [List.length_cons, List.length_nil]; omega),
    List.getElem?_append_left (by simp [linesDown]; omega),
    samples_row (by simp only [List.length_cons, List.length_nil]; omega)]
  congr 3
  simp only [List.length_cons, List.length_nil]
  omega

/-- Settles O47: what is known before each sample and, where the device is free and settled, of the answered byte. -/
theorem readAnswersTheStoredByte : Obligations.ReadAnswersTheStoredByte := by
  intro s a u hrest hrst
  constructor
  · rintro k h57 h64 t rfl
    obtain ⟨-, -, hquiet⟩ := hrest
    obtain ⟨-, -, -, -, -, -, -, -, -, hsamples⟩ := read_closed a u hquiet rfl rfl
    obtain ⟨hdrives, hsettled⟩ := hsamples (k - 57) (by omega) _ rfl
    rw [show 57 + (k - 57) = k by omega] at hdrives hsettled
    exact ⟨hdrives, hsettled, ⟨64 - k, by omega⟩, rfl, readTable_sample _ _ h57 h64⟩
  · intro haccess hfree hreach
    obtain ⟨t, v, hrun, h⟩ := read_between a u hrest hrst
    have hv := h.good haccess hfree hreach
    exact ⟨t, hrun, by rw [h.ctrl, hv], by rw [h.pins, hv]⟩

/-! ### What a WRITE stores (R148, R58) -/

theorem byDevice_of_inPinSequence {k : EventKind} (h : k.inPinSequence = true) : k.byDevice = false := by
  cases k with
  | commit a v => cases h
  | corrupt cells => cases h
  | _ => rfl

section
variable {s t w : State} {a : Addr} {d : Byte} {b : Nat} {evs1 : List Event} {k : EventKind} {dw x dr y z : Nat}

/-- Before its pulse a WRITE records pin events alone (R148). -/
theorem WriteBetween.pins_before (h : WriteBetween s t w a d b evs1 k dw x dr y z) :
    (evs1.map Event.kind).filter EventKind.inPinSequence = evs1.map Event.kind := by
  rw [h.kinds, List.filter_cons_of_pos rfl]
  simp only [List.filter_append, List.filter_cons, latchEvents_filter, defensiveEvents]
  rfl

/-- Before the pulse's end no event is DEV's. -/
theorem WriteBetween.filter_before (h : WriteBetween s t w a d b evs1 k dw x dr y z) :
    (evs1.filter fun e => e.kind.byDevice) = [] := by
  rw [List.filter_eq_nil_iff]
  intro e he
  have hkind : e.kind ∈ evs1.map Event.kind := List.mem_map_of_mem he
  rw [← h.pins_before] at hkind
  obtain ⟨-, hpin⟩ := List.mem_filter.mp hkind
  rw [byDevice_of_inPinSequence hpin]
  nofun

/-- DEV records one event in a WRITE, at its pulse's end. -/
theorem WriteBetween.filter_newEvents (h : WriteBetween s t w a d b evs1 k dw x dr y z) :
    ((s.newEvents t).filter fun e => e.kind.byDevice) = [⟨k, w.now⟩] := by
  rw [h.new, List.filter_append, h.filter_before]
  simp only [List.filter_cons, h.dev']
  rfl

theorem WriteBetween.kind_eq_commit (h : WriteBetween s t w a d b evs1 k dw x dr y z) (hfree : s.deviceFree)
    (hreach : s.cfg.reaches a) (hwidth : s.cfg.tWpDev ≤ s.cfg.tStrobe) : k = .commit (s.cfg.cellOf a) d := by
  have hstore := h.store
  rw [h.commit hfree hreach hwidth, State.commit_trace] at hstore
  have hevent := List.append_cancel_left hstore
  simp only [List.cons.injEq, Event.mk.injEq, and_true] at hevent
  exact hevent.symm

end

/-- Settles O48: the pulse end's one event is the COMMIT. -/
theorem writeStoresTheByte : Obligations.WriteStoresTheByte := by
  intro s a d hrest hrst hmem hfree hreach hwidth
  obtain ⟨t, w, _, _, k, _, _, _, _, _, h⟩ := write_between' a d hrest hrst
  have hfilter := h.filter_newEvents
  have hevent : (⟨k, w.now⟩ : Event) ∈ s.newEvents t := by
    have hin : (⟨k, w.now⟩ : Event) ∈ (s.newEvents t).filter fun e => e.kind.byDevice := by
      rw [hfilter]
      exact List.mem_singleton_self _
    exact List.mem_of_mem_filter hin
  exact ⟨t, ⟨k, w.now⟩, h.run, h.stored hmem hfree hreach hwidth, hevent, h.kind_eq_commit hfree hreach hwidth, hfilter,
    h.free, h.tinv hmem⟩

/-! ### An address out of range (R62) -/

theorem not_reaches_of_undefined {c : Config} {a : Addr} (h : c.addrSpace ≤ a.toNat)
    (hmode : c.oorMode = .undefinedResult) : ¬c.reaches a := by
  rintro (hlt | halias)
  · omega
  · cases hmode.symm.trans halias

/-- The sampled levels of a READ are draws of their own, line by line. -/
theorem ReadBetween.draws {s t : State} {a : Addr} {u v : Byte} (h : ReadBetween s t a u v)
    (hreach : ¬s.cfg.reaches a) :
    ∃ k : Fin 8 → Nat, (∀ i, s.drew t (k i)) ∧ (∀ i j, i ≠ j → k i ≠ k j) ∧
      ∀ i : Fin 8, t.ctrl.rdata[i] = some (Config.freeBit (k i)) := by
  obtain ⟨ks, hbits, hpairwise, hdrew⟩ := h.bad hreach
  have hbits : linesDown.map (fun i : Fin 8 => v.getLsbD i.val) = ks.map Config.freeBit := hbits
  have hlen : ks.length = 8 := by simpa [linesDown] using (congrArg List.length hbits).symm
  have hnodup : ks.Nodup := hpairwise.imp Nat.ne_of_lt
  have hline (i : Fin 8) : linesDown[7 - i.val]? = some i := by revert i; decide
  refine ⟨fun i => ks[7 - i.val], fun i => ?_, fun i j hij hk => hij ?_, fun i => ?_⟩
  · obtain ⟨h1, h2⟩ := hdrew _ (List.getElem_mem (show 7 - i.val < ks.length by omega))
    exact ⟨h1.le, h2⟩
  · have := (hnodup.getElem_inj_iff).mp hk
    omega
  · have hbit := congrArg (fun l => l[7 - i.val]?) hbits
    simp only [List.getElem?_map, hline, Option.map_some] at hbit
    rw [List.getElem?_eq_getElem (by omega), Option.map_some, Option.some.injEq] at hbit
    rw [h.ctrl, ← hbit, BitVec.getLsbD_eq_getElem i.isLt]
    exact Bits.getElem_ofBitVec v i.val i.isLt

/-- A WRITE out of range with `OOR_MODE = UNDEFINED` makes every cell a draw of its own. -/
theorem WriteBetween.all_draws {s t w : State} {a : Addr} {d : Byte} {b : Nat} {evs1 : List Event} {k : EventKind}
    {dw x dr y z : Nat} (h : WriteBetween s t w a d b evs1 k dw x dr y z) (hfree : s.deviceFree)
    (hreach : ¬s.cfg.reaches a) :
    ∃ k, s.draws ≤ k ∧ k + s.cfg.addrSpace ≤ t.draws ∧
      ∀ x, x < s.cfg.addrSpace → Memory.read t.dev.mem x = Config.freeByte (k + x) := by
  have hstore : w.pulseStore = w.corrupt .all :=
    pulseStore_outOfRange (h.busyFlag hfree) (by rw [h.addr, h.wcfg]; exact reachedCell?_of_not_reaches hreach)
  have hdraws : w.draws + w.cfg.addrSpace ≤ t.draws := by
    have hle := h.dr2
    rw [State.pulseEnd, hstore] at hle
    exact hle
  rw [h.wcfg] at hdraws
  refine ⟨w.draws, h.dr1.le, hdraws, fun x hx => ?_⟩
  rw [h.tmem, hstore, State.corrupt, State.emit_dev]
  exact Memory.read_fill (by rwa [h.wcfg])

/-- Settles O49: without a defined result READ draws each line and WRITE each cell; with ALIAS the address has one. -/
theorem outOfRangeAddress : Obligations.OutOfRangeAddress := by
  intro s a d hrest hrst hmem hfree hcfg hrange
  obtain ⟨hwidth, -, -, haccess, -⟩ := hcfg
  obtain ⟨r, v, hrun, hread⟩ := read_between a d hrest hrst
  obtain ⟨_, hran⟩ := hread.ran
  obtain ⟨t, w, _, _, _, _, _, _, _, _, hwrite⟩ := write_between' a d hrest hrst
  refine ⟨r, t, hrun, hwrite.run, by rw [hread.chain], hwrite.storage, hran.faults, hwrite.faults, fun hmode => ?_,
    fun halias => ?_⟩
  · have hreach := not_reaches_of_undefined hrange hmode
    exact ⟨hread.draws hreach, hwrite.all_draws hfree hreach⟩
  · have hreach : s.cfg.reaches a := .inr halias
    constructor
    · rw [hread.ctrl, hread.good haccess hfree hreach]
      rfl
    · exact hwrite.stored hmem hfree hreach hwidth

/-! ### Several WRITEs, one after the other (R156, R92) -/

/-- The commands that write the bytes `ws` at their addresses. -/
def writesOf (ws : List (Addr × Byte)) : List Instr := ws.map fun p => .write p.1 p.2

/-- The array `f` with the bytes `ws` written in turn. -/
def cellsAfter (c : Config) (ws : List (Addr × Byte)) (f : Nat → Byte) : Nat → Byte :=
  ws.foldl (fun g p => Function.update g (c.cellOf p.1) p.2) f

/-- What the WRITEs `ws` leave of a state between commands. -/
structure WritesBetween (s t : State) (ws : List (Addr × Byte)) : Prop where
  run : execAll (writesOf ws) s = .next t
  rest : t.atRest
  rst : t.rst = []
  cfg : t.cfg = s.cfg
  faults : t.faults = s.faults
  time : s.now + ws.length * (s.cfg.tStrobe + s.cfg.tRecovery) ≤ t.now
  pins : pinSequence t.trace = pinSequence s.trace ++ ws.flatMap fun p => writeEvents p.1 p.2
  stored : s.cfg.CfgOk → s.memInv → s.deviceFree → (∀ p ∈ ws, s.cfg.reaches p.1) →
    t.memInv ∧ Memory.read t.dev.mem = cellsAfter s.cfg ws (Memory.read s.dev.mem)

theorem writes_between (ws : List (Addr × Byte)) {s : State} (hrest : s.atRest) (hrst : s.rst = []) :
    ∃ t, WritesBetween s t ws := by
  induction ws generalizing s with
  | nil =>
    exact ⟨s, rfl, hrest, hrst, rfl, rfl, by simp, by simp, fun _ hmem _ _ => ⟨hmem, rfl⟩⟩
  | cons p ws ih =>
    obtain ⟨t1, w, b, _, _, _, _, _, _, _, h1⟩ := write_between' p.1 p.2 hrest hrst
    obtain ⟨t, h⟩ := ih h1.rest h1.rst
    refine ⟨t, ?_, h.rest, h.rst, h.cfg.trans h1.cfg, h.faults.trans h1.faults, ?_, ?_, ?_⟩
    · rw [writesOf, List.map_cons, execAll, h1.run]
      exact h.run
    · have htime := h.time
      have hbegin := h1.beg
      have hstrobe := h1.strobe
      have hrecovery := h1.recov
      rw [h1.cfg] at htime
      rw [List.length_cons, Nat.add_mul, Nat.one_mul]
      omega
    · rw [h.pins, h1.pins, List.append_assoc, List.flatMap_cons]
    · intro hcfg hmem hfree hreach
      obtain ⟨hp, hws⟩ := List.forall_mem_cons.mp hreach
      have hcfg' := hcfg
      obtain ⟨hwidth, hrecovery, -⟩ := hcfg'
      obtain ⟨hmem', hread⟩ := h.stored (by rwa [h1.cfg]) (h1.tinv hmem) (h1.free hrecovery) (by rwa [h1.cfg])
      refine ⟨hmem', ?_⟩
      have hone : Memory.read t1.dev.mem = Function.update (Memory.read s.dev.mem) (s.cfg.cellOf p.1) p.2 := by
        funext c
        rw [Function.update_apply]
        exact h1.stored hmem hfree hp hwidth c
      rw [hread, h1.cfg, hone]
      rfl

/-- A byte written where it already is changes nothing. -/
theorem cellsAfter_replicate {c : Config} {a : Addr} {d : Byte} {f : Nat → Byte} (h : f (c.cellOf a) = d) (n : Nat) :
    cellsAfter c (List.replicate n (a, d)) f = f := by
  induction n with
  | zero => rfl
  | succ n ih =>
    have hupdate : Function.update f (c.cellOf a) d = f := by rw [← h, Function.update_eq_self]
    rw [List.replicate_succ, cellsAfter, List.foldl_cons, hupdate]
    exact ih

/-- Settles O51: each of the `n` WRITEs adds its events, and stores the byte that is there. -/
theorem repeatedWritesRepeatThePinSequence : Obligations.RepeatedWritesRepeatThePinSequence := by
  intro s a d n hrest hrst
  obtain ⟨t, h⟩ := writes_between (List.replicate n (a, d)) hrest hrst
  refine ⟨t, ?_, ?_, fun hcfg hmem hfree hreach hbyte => ?_⟩
  · rw [← h.run, writesOf, List.map_replicate]
  · rw [h.pins, List.flatMap_def, List.map_replicate]
  · obtain ⟨⟨hwf, -⟩, hread⟩ := h.stored hcfg hmem hfree fun p hp => by
      rw [List.eq_of_mem_replicate hp]
      exact hreach
    rw [cellsAfter_replicate hbyte] at hread
    obtain ⟨hwf', -⟩ := hmem
    exact Memory.ext hwf hwf' (congrFun hread)

/-! ### ERASE_ALL (R92) -/

/-- The addresses and bytes of ERASE_ALL. -/
def eraseWrites (c : Config) : List (Addr × Byte) := (List.range c.addrSpace).map fun k => (BitVec.ofNat 16 k, 0xFF#8)

theorem writesOf_eraseWrites (c : Config) : writesOf (eraseWrites c) = eraseAll c := by
  rw [writesOf, eraseWrites, List.map_map, eraseAll]
  rfl

/-- Where one byte is all that is written, a cell named by a WRITE or holding the byte before holds it after. -/
theorem cellsAfter_of_const {c : Config} {d : Byte} {ws : List (Addr × Byte)} (hd : ∀ p ∈ ws, p.2 = d) {x : Nat}
    {f : Nat → Byte} (hx : (∃ p ∈ ws, c.cellOf p.1 = x) ∨ f x = d) : cellsAfter c ws f x = d := by
  induction ws generalizing f with
  | nil =>
    rcases hx with ⟨p, hp, -⟩ | hx
    · cases hp
    · exact hx
  | cons p ws ih =>
    obtain ⟨hp, hws⟩ := List.forall_mem_cons.mp hd
    refine ih hws (f := Function.update f (c.cellOf p.1) p.2) ?_
    rw [Function.update_apply]
    rcases hx with ⟨q, hq, hqx⟩ | hx
    · rcases List.mem_cons.mp hq with rfl | hq
      · exact .inr (by rw [if_pos hqx.symm, hp])
      · exact .inl ⟨q, hq, hqx⟩
    · right
      split
      · exact hp
      · exact hx

/-- With 16 wired lines at the most a cell's number is an address in range. -/
theorem toNat_ofNat_cell {c : Config} (hbits : c.addrBits ≤ 16) {k : Nat} (hk : k < c.addrSpace) :
    (BitVec.ofNat 16 k).toNat = k := by
  have hspace : c.addrSpace ≤ 2 ^ 16 := Nat.pow_le_pow_right (by decide) hbits
  rw [BitVec.toNat_ofNat, Nat.mod_eq_of_lt (hk.trans_le hspace)]

/-- Settles O53: ERASE_ALL is a list of WRITEs of one byte that names every cell. -/
theorem eraseAllErasesEveryCell : Obligations.EraseAllErasesEveryCell := by
  intro s hrest hrst hmem hcfg hfree
  obtain ⟨t, h⟩ := writes_between (eraseWrites s.cfg) hrest hrst
  have hbits : s.cfg.addrBits ≤ 16 := by
    obtain ⟨-, -, -, -, -, hbits, -⟩ := hcfg
    exact hbits
  have hmember {p : Addr × Byte} (hp : p ∈ eraseWrites s.cfg) :
      ∃ k, k < s.cfg.addrSpace ∧ (BitVec.ofNat 16 k, 0xFF#8) = p := by
    simpa [eraseWrites] using hp
  refine ⟨t, by rw [← writesOf_eraseWrites, h.run], fun x hx => ?_, h.faults, ?_, ?_⟩
  · obtain ⟨-, hread⟩ := h.stored hcfg hmem hfree fun p hp => by
      obtain ⟨k, hk, rfl⟩ := hmember hp
      exact .inl (by rwa [toNat_ofNat_cell hbits hk])
    rw [hread]
    refine cellsAfter_of_const (fun p hp => ?_) (.inl ⟨_, List.mem_map_of_mem (List.mem_range.mpr hx), ?_⟩)
    · obtain ⟨k, hk, rfl⟩ := hmember hp
      rfl
    · rw [Config.cellOf, toNat_ofNat_cell hbits hx, Nat.mod_eq_of_lt hx]
  · have htime := h.time
    rwa [eraseWrites, List.length_map, List.length_range] at htime
  · rw [h.pins, eraseWrites, List.flatMap_map]

end Sys2Proof.Machine

namespace Sys2Proof.Machine

/-! ## The order of the lines (R132, R150, R151) -/

/-- The four rows that READ and WRITE begin with (R146, R147, R148). -/
def entryRows (d : Dir) : List Uop := defensiveReset ++ [.setDir d]

theorem setUp_eq_entryRows (d : Dir) (a : Bits 16) : setUp d a = entryRows d ++ latchSeq a := by
  simp [setUp, entryRows]

/-- The bus direction is what the last SET_DIR says. -/
theorem allLines_ctrlStep {u : Uop} {d : Dir} (hu : ∀ e, u = .setDir e → e = d) {s : State} (hs : s.ctrl.allLines d) :
    (ctrlStep u s).ctrl.allLines d := by
  have hlevels := congrArg (fun l => l.2.2.2) (levels_ctrlStep u s)
  cases u with
  | setDir e =>
    rw [hu e rfl] at hlevels ⊢
    exact hlevels
  | _ => exact hlevels.trans hs

/-- A table that sets one direction, in its row k = 3, holds it from there on. -/
theorem allLines_steps_take {us : List Uop} {d : Dir} (hthree : us[3]? = some (.setDir d))
    (hus : ∀ u ∈ us, ∀ e, u = .setDir e → e = d) (s : State) {k : Nat} (hk : 4 ≤ k) :
    (steps (us.take k) s).ctrl.allLines d := by
  refine steps_take_keeps (P := fun x => x.ctrl.allLines d) (j := 4) (fun u hu _ => allLines_ctrlStep (hus u hu)) ?_ hk
  rw [List.take_add_one, hthree, steps_append]
  exact congrArg Ctrl.dir (ctrl_fixed (u := .setDir d) rfl _)

/-- The address is on the lines from k = 53 of a table that begins with the set-up and pulses RCLK no more. -/
theorem storage_steps_take {d : Dir} {a : Addr} {us : List Uop} (hus : ∀ u ∈ us, ∀ b, u ≠ .setRclk b) {s : State}
    (hsclk : s.ctrl.sclk = false) (hrclk : s.ctrl.rclk = false) {k : Nat} (hk : 53 ≤ k) :
    (steps ((setUp d (Bits.ofBitVec a) ++ us).take k) s).chain.storage = Bits.ofBitVec a := by
  obtain ⟨j, rfl⟩ : ∃ j, k = j + 4 := ⟨k - 4, by omega⟩
  have htake : (setUp d (Bits.ofBitVec a) ++ us).take (j + 4) =
      entryRows d ++ ((latchSeq (Bits.ofBitVec a)).take j ++ us.take (j - 50)) := by
    have hlatch : (latchSeq (Bits.ofBitVec a)).length = 50 := rfl
    rw [setUp_eq_entryRows, List.append_assoc, ← hlatch, ← List.take_append]
    rfl
  have hfixed : ∀ u ∈ entryRows d, u.fixed = true := by simp [entryRows, defensiveReset, Uop.fixed]
  obtain ⟨hctrl, -⟩ := Prod.mk.inj (pins_fixed hfixed s)
  rw [htake, steps_append, steps_append, storage_fixed _ fun u hu => hus u (List.mem_of_mem_take hu)]
  exact storage_from_transfer a (by rw [hctrl]; exact hsclk) (by rw [hctrl]; exact hrclk) (by omega)

/-- The rows that the enables of READ and WRITE follow, by the levels after `k` rows: the set-up leaves Idle, and rows
that drive no control line leave the levels. -/
theorem levels_setUp_take (d : Dir) (a : Bits 16) {mid post : List Uop} (hmid : ∀ u ∈ mid, u.offLevels = true) (k : Nat)
    (s : State) :
    (steps ((setUp d a ++ (mid ++ post)).take k) s).ctrl.levels =
      (post.take (k - 54 - mid.length)).foldl levelAfter
        (((entryRows d).take k).foldl levelAfter s.ctrl.levels) := by
  have hsplit : setUp d a ++ (mid ++ post) = entryRows d ++ (latchSeq a ++ mid) ++ post := by
    simp [setUp_eq_entryRows]
  have hoff : ∀ u ∈ latchSeq a ++ mid, u.offLevels = true := by
    rw [List.forall_mem_append]
    exact ⟨latchSeq_offLevels a, hmid⟩
  have hlatch : (latchSeq a).length = 50 := rfl
  have hentry : (entryRows d).length = 4 := rfl
  rw [levels_steps, hsplit, levels_take hoff, List.length_append, hlatch, hentry]
  congr 2
  omega

/-- The defensive reset deasserts one line with each of its rows (R146). -/
theorem levels_entryRows {d : Dir} (k : Nat) (l : Bool × Bool × Bool × Vector Dir 8) :
    (1 ≤ k → (((entryRows d).take k).foldl levelAfter l).1 = true) ∧
      (2 ≤ k → (((entryRows d).take k).foldl levelAfter l).2.1 = true) ∧
      (3 ≤ k → (((entryRows d).take k).foldl levelAfter l).2.2.1 = true) := by
  rcases k with _ | _ | _ | _ | k
  · exact ⟨nofun, nofun, nofun⟩
  · exact ⟨fun _ => rfl, by omega, by omega⟩
  · exact ⟨fun _ => rfl, fun _ => rfl, by omega⟩
  · exact ⟨fun _ => rfl, fun _ => rfl, fun _ => rfl⟩
  · rw [List.take_of_length_le (by simp [entryRows, defensiveReset])]
    exact ⟨fun _ => rfl, fun _ => rfl, fun _ => rfl⟩

section
variable (c : Config) (a : Addr)

theorem writeTable_setDir {u : Uop} (hu : u ∈ writeTable c (Bits.ofBitVec a)) (e : Dir) (he : u = .setDir e) :
    e = .output := by
  subst he
  simpa [writeTable, defensiveReset, latchSeq, latchBit, linesDown] using hu

theorem readTable_setDir {u : Uop} (hu : u ∈ readTable c (Bits.ofBitVec a)) (e : Dir) (he : u = .setDir e) :
    e = .input := by
  subst he
  have hexit : Uop.setDir e ∉ readExit c := by
    unfold readExit
    split <;> simp
  simpa [readTable, defensiveReset, latchSeq, latchBit, linesDown, hexit] using hu

/-- RCLK rises in READ's set-up alone. -/
theorem ne_setRclk_of_mem_readRest {u : Uop}
    (hu : u ∈ [.setCe .asserted, .setOe .asserted, .wait c.tReadAccess] ++ (linesDown.map Uop.sample ++ readExit c))
    (b : Bool) : u ≠ .setRclk b := by
  rintro rfl
  have hexit : Uop.setRclk b ∉ readExit c := by
    unfold readExit
    split <;> simp
  simp [linesDown, hexit] at hu

/-- CE, OE, WE and the directions after `k` rows of WRITE (R148). -/
theorem levels_writeTable_take (k : Nat) (s : State) :
    (steps ((writeTable c (Bits.ofBitVec a)).take k) s).ctrl.levels =
      (([.setCe .asserted, .setWe .asserted, .wait c.tStrobe, .setWe .deasserted, .setCe .deasserted,
          .wait c.tRecovery, .done] : List Uop).take (k - 62)).foldl levelAfter
        (((entryRows .output).take k).foldl levelAfter s.ctrl.levels) := by
  have hmid : ∀ u ∈ linesDown.map Uop.setDout, u.offLevels = true := by decide
  rw [writeTable_setUp, levels_setUp_take _ _ hmid, Nat.sub_sub]
  rfl

/-- CE, OE, WE and the directions after `k` rows of READ, up to its exit (R147). -/
theorem levels_readTable_take {k : Nat} (hk : k ≤ 65) (s : State) :
    (steps ((readTable c (Bits.ofBitVec a)).take k) s).ctrl.levels =
      (([.setCe .asserted, .setOe .asserted] : List Uop).take (k - 54)).foldl levelAfter
        (((entryRows .input).take k).foldl levelAfter s.ctrl.levels) := by
  have hmid : ∀ u ∈ .wait c.tReadAccess :: linesDown.map Uop.sample, u.offLevels = true := by
    rw [List.forall_mem_cons]
    exact ⟨rfl, by decide⟩
  have hexit : k - 54 - 2 - 9 = 0 := by omega
  have hsplit := levels_take (pre := [.setCe .asserted, .setOe .asserted]) (post := readExit c) hmid (k - 54)
  simp only [List.length_cons, List.length_nil, List.length_map, linesDown, hexit, List.take_zero,
    List.foldl_nil] at hsplit
  rw [readTable_setUp, ← hsplit]
  exact levels_setUp_take (mid := []) _ _ nofun k s

/-- The data bits are on the lines from k = 62 of WRITE (R150). -/
theorem dout_writeTable_take {d : Byte} {k : Nat} (hk : 62 ≤ k) {s : State} (hdata : s.ctrl.cmdData = Bits.ofBitVec d)
    (hsclk : s.ctrl.sclk = false) (hrclk : s.ctrl.rclk = false) :
    (steps ((writeTable c (Bits.ofBitVec a)).take k) s).ctrl.dout = Bits.ofBitVec d := by
  have hfixed : ∀ u ∈ setUp .output (Bits.ofBitVec a) ++ linesDown.map Uop.setDout, u.fixed = true := by
    rw [List.forall_mem_append]
    exact ⟨setUp_fixed .output a, by decide⟩
  have hpins := pins_fixed hfixed s
  rw [pinsAfter_append, setUp_pins .output a _ _ hsclk hrclk, douts_pins d _ _ (by exact hdata)] at hpins
  obtain ⟨hctrl, -⟩ := Prod.mk.inj hpins
  rw [writeTable_setUp, ← List.append_assoc, List.take_append, List.take_of_length_le hk, steps_append,
    steps_dout, hctrl]
  intro u hu i
  have hrow := List.mem_of_mem_take hu
  rintro rfl
  simp at hrow

end

/-- Settles O56: the rows that drive each line, counted. -/
theorem enableOrder : Obligations.EnableOrder := by
  intro s a d k hsclk hrclk
  constructor
  · rintro t ht
    have htake : steps ((writeTable s.cfg (Bits.ofBitVec a)).take k) ((Instr.write a d).accepted s) = t := ht
    have hlevels := levels_writeTable_take s.cfg a k ((Instr.write a d).accepted s)
    obtain ⟨hcePre, -, hwePre⟩ := levels_entryRows (d := .output) k ((Instr.write a d).accepted s).ctrl.levels
    rw [htake] at hlevels
    simp only [Ctrl.levels, Prod.ext_iff] at hlevels
    obtain ⟨hce, -, hwe, -⟩ := hlevels
    refine ⟨fun ⟨h1, h62⟩ => ?_, fun ⟨h3, h63⟩ => ?_, ?_, ?_, fun h53 => ?_, fun h4 => ?_, fun h62 => ?_⟩
    · rw [hce, Nat.sub_eq_zero_of_le h62]
      exact hcePre h1
    · rw [hwe]
      rcases h63.lt_or_eq with h62 | rfl
      · rw [Nat.sub_eq_zero_of_le (Nat.le_of_lt_succ h62)]
        exact hwePre h3
      · rfl
    · rintro rfl
      exact hce
    · rintro (rfl | rfl)
      · exact ⟨hce, hwe⟩
      · exact ⟨hce, hwe⟩
    · rw [← htake, writeTable_setUp]
      refine storage_steps_take (s := (Instr.write a d).accepted s) ?_ hsclk hrclk h53
      simp [linesDown]
    · rw [← htake]
      exact allLines_steps_take rfl (fun u hu => writeTable_setDir _ _ hu) _ h4
    · rw [← htake]
      exact dout_writeTable_take s.cfg a h62 rfl hsclk hrclk
  · rintro t ht
    have htake : steps ((readTable s.cfg (Bits.ofBitVec a)).take k) ((Instr.read a d).accepted s) = t := ht
    have hlevels (h65 : k ≤ 65) := levels_readTable_take s.cfg a h65 ((Instr.read a d).accepted s)
    obtain ⟨hcePre, hoePre, -⟩ := levels_entryRows (d := .input) k ((Instr.read a d).accepted s).ctrl.levels
    rw [htake] at hlevels
    simp only [Ctrl.levels, Prod.ext_iff] at hlevels
    refine ⟨fun ⟨h1, h54⟩ => ?_, fun ⟨h2, h55⟩ => ?_, ?_, fun ⟨h56, h65⟩ => ?_, fun h53 => ?_, fun h4 => ?_⟩
    · obtain ⟨hce, -⟩ := hlevels (by omega)
      rw [hce, Nat.sub_eq_zero_of_le h54]
      exact hcePre h1
    · obtain ⟨-, hoe, -⟩ := hlevels (by omega)
      rw [hoe]
      rcases h55.lt_or_eq with h54 | rfl
      · rw [Nat.sub_eq_zero_of_le (Nat.le_of_lt_succ h54)]
        exact hoePre h2
      · exact hoePre h2
    · rintro rfl
      obtain ⟨hce, -⟩ := hlevels (by omega)
      exact hce
    · obtain ⟨hce, hoe, -⟩ := hlevels h65
      have henables : ([.setCe .asserted, .setOe .asserted] : List Uop).take (k - 54) =
          [.setCe .asserted, .setOe .asserted] :=
        List.take_of_length_le (show 2 ≤ k - 54 by omega)
      rw [hce, hoe, henables]
      exact ⟨rfl, rfl⟩
    · rw [← htake, readTable_setUp]
      exact storage_steps_take (s := (Instr.read a d).accepted s) (fun u hu => ne_setRclk_of_mem_readRest s.cfg hu)
        hsclk hrclk h53
    · rw [← htake]
      exact allLines_steps_take rfl (fun u hu => readTable_setDir _ _ hu) _ h4

end Sys2Proof.Machine

namespace Sys2Proof.Machine

/-! ## A reset within WRITE (R232) -/

theorem steps_take_succ {us : List Uop} {u : Uop} {k : Nat} (hu : us[k]? = some u) (s : State) :
    steps (us.take (k + 1)) s = ctrlStep u (steps (us.take k) s) := by
  rw [List.take_add_one, hu, steps_append]
  rfl

/-- Without a pulse an event that does not assert WE, found deasserted, stores nothing. -/
theorem ctrlStep_mem_of_weN {u : Uop} (hu : u ≠ .setWe .asserted) {s : State} (hactive : s.dev.pulseActive = false)
    (hwe : s.ctrl.weN = true) : (ctrlStep u s).dev.mem = s.dev.mem := by
  obtain ⟨x, e⟩ := reacted_of_afterEvent s (ctrlStep u s) (.inl ⟨u, rfl⟩)
  have hx : x.ctrl.strobing = false := by
    rw [e.ctrl, Ctrl.strobing, Ctrl.we, weN_ctrlStep hu hwe]
    exact Bool.and_false _
  rw [e.eq, pulseReact, hactive, hx, e.dev]

/-- WE deasserted, no pulse active and the array `m`. -/
def State.resting (m : Memory) (s : State) : Prop :=
  s.dev.pulseActive = false ∧ s.ctrl.weN = true ∧ s.dev.mem = m

theorem resting_ctrlStep {u : Uop} (hu : u ≠ .setWe .asserted) {m : Memory} {s : State} (hs : s.resting m) :
    (ctrlStep u s).resting m := by
  obtain ⟨hactive, hwe, hmem⟩ := hs
  have hwe' := weN_ctrlStep hu hwe
  refine ⟨?_, hwe', (ctrlStep_mem_of_weN hu hactive hwe).trans hmem⟩
  rw [pulseActive_ctrlStep, Ctrl.strobing, Ctrl.we, hwe']
  exact Bool.and_false _

theorem resting_steps {us : List Uop} (hus : .setWe .asserted ∉ us) {m : Memory} {s : State} (hs : s.resting m) :
    (steps us s).resting m :=
  steps_keeps (P := State.resting m) (fun _ hu _ => resting_ctrlStep fun h => hus (h ▸ hu)) hs

theorem resting_resetEvent {m : Memory} {s : State} (hs : s.resting m) : s.resetEvent.dev.mem = m := by
  obtain ⟨hactive, -, hmem⟩ := hs
  rw [resetEvent_dev hactive, ← hmem]

section
variable (c : Config) (a : Bits 16)

/-- The rows of WRITE before its pulse (R148). -/
theorem writeTable_take_pulse : (writeTable c a).take 63 =
    setUp .output a ++ linesDown.map Uop.setDout ++ [.setCe .asserted] := rfl

/-- The rows of WRITE after its pulse (R148). -/
theorem writeTable_drop_pulse : (writeTable c a).drop 66 = [.setCe .deasserted, .wait c.tRecovery, .done] := rfl

theorem setWe_asserted_not_mem_before_pulse {m : Nat} (hm : m ≤ 63) :
    Uop.setWe .asserted ∉ (writeTable c a).take m := by
  intro hmem
  rw [← Nat.min_eq_left hm, ← List.take_take, writeTable_take_pulse] at hmem
  have hin := List.mem_of_mem_take hmem
  simp [setUp, defensiveReset, latchSeq, latchBit, linesDown] at hin

end

/-- A WRITE before its pulse: the address and the data driven, CE asserted, nothing stored (R150, R151). -/
structure PulseReady (s x : State) (a : Addr) (d : Byte) : Prop where
  ran : ∃ ks, Ran s x ks
  draws : s.draws ≤ x.draws
  idle : x.dev.pulseActive = false
  storage : x.chain.storage = Bits.ofBitVec a
  data : x.ctrl.drivenData = Bits.ofBitVec d
  ce : x.ctrl.ceN = false
  oe : x.ctrl.oeN = true

theorem pulseReady_write (a : Addr) (d : Byte) {s : State} (hquiet : s.quietPins) :
    PulseReady s (steps ((writeTable s.cfg (Bits.ofBitVec a)).take 63) ((Instr.write a d).accepted s)) a d := by
  have hcalm := calm_accept hquiet .write 0b10#2 a d
  obtain ⟨-, hsclk, hrclk, hactive, -⟩ := hquiet
  obtain ⟨hrun, hpins, -⟩ := writeSetUp_run a d _ _ rfl hcalm hsclk hrclk
  obtain ⟨hran, hafter⟩ := ran_steps (s := (Instr.write a d).accepted s) hactive hrun
  obtain ⟨hctrl, hchain⟩ := Prod.mk.inj (hafter.trans hpins)
  have hactive' := hran.pulseActive.trans hactive
  have haccept : s.draws ≤ ((Instr.write a d).accepted s).draws := Nat.le_succ _
  rw [writeTable_take_pulse]
  exact {
    ran := ⟨_, (accept_ran ..).trans hran⟩
    draws := haccept.trans (steps_draws_le _ _)
    idle := hactive'
    storage := by rw [hchain]
    data := by rw [drivenData_output (by rw [hctrl]; rfl), hctrl]
    ce := by rw [hctrl]
    oe := by rw [hctrl] }

/-- What a reset leaves within the pulse, begun at `b`, of a WRITE from `s`. -/
structure CutPulse (s t : State) (a : Addr) (d : Byte) (b : Nat) (v : Byte) : Prop where
  phase : t.ctrl.phase = .startup
  begin_le : s.now ≤ b
  le_now : b ≤ t.now
  start : t.dev.pulseStart = some b
  event : ⟨.pin .weN false, b⟩ ∈ s.newEvents t
  busy : t.dev.busyUntil = t.now + s.cfg.tWcDev
  ended : t.dev.pulseActive = false
  cells : ∀ x, Memory.read t.dev.mem x = if x = s.cfg.cellOf a then v else Memory.read s.dev.mem x
  long : s.cfg.tWpDev ≤ t.now - b → v = d
  short : t.now - b < s.cfg.tWpDev → ∃ k, s.drew t k ∧ v = Config.freeByte k

/-- A reset in the state `w` within the pulse that began at `b`. -/
theorem cutPulse {s x w : State} {a : Addr} {d : Byte} {b : Nat} {ks : List EventKind} (hready : PulseReady s x a d)
    (hmem : s.memInv) (hfree : s.deviceFree) (hreach : s.cfg.reaches a) (hpulse : Pulsing x w b ks)
    (htrace : x.trace ++ [⟨.pin .weN false, b⟩] <+: w.trace) : ∃ v, CutPulse s w.resetEvent a d b v := by
  obtain ⟨_, hran⟩ := hready.ran
  obtain ⟨hwf, -⟩ := hmem
  have hbegin : s.now ≤ b := hran.now_le.trans hpulse.begin_le
  have hbusy : x.dev.busyUntil ≤ b := by
    rw [hran.dev]
    exact hfree.trans hbegin
  have hwmem : w.dev.mem = s.dev.mem := by
    rw [hpulse.dev]
    exact hran.mem
  obtain ⟨v, hbusyUntil, hended, hstart, hcells, hlong, hshort⟩ := pulse_cut_by_reset a d s.cfg s.dev.mem hpulse
    (hpulse.cfg.trans hran.cfg) hwmem hwf hready.storage hready.data hbusy hreach
  have hnow : w.now ≤ w.resetEvent.now := by
    rw [State.resetEvent_now]
    exact Nat.le_add_right _ _
  refine ⟨v, by rw [State.resetEvent_ctrl]; rfl, hbegin, hpulse.le_now.trans hnow, hstart, ?_, hbusyUntil, hended,
    hcells, hlong, fun h => ?_⟩
  · obtain ⟨evs, hevs, -⟩ := hran.trace
    obtain ⟨-, hgrows⟩ := resetEvent_grows w
    obtain ⟨rest, hrest⟩ := htrace.trans hgrows
    have hnew : s.newEvents w.resetEvent = evs ++ [⟨.pin .weN false, b⟩] ++ rest :=
      newEvents_eq (by rw [← hrest, hevs]; simp)
    rw [hnew]
    simp
  · obtain ⟨k, ⟨hge, hlt⟩, hv⟩ := hshort h
    exact ⟨k, ⟨hready.draws.trans (hpulse.draws.le.trans hge), hlt⟩, hv⟩

/-- A reset planned within WRITE's 69 rows cuts it (R246). -/
theorem exec_write_cut (a : Addr) (d : Byte) {s : State} {m : Nat} {rs : List Nat} (hrst : s.rst = (m + 1) :: rs)
    (hm : m < 69) :
    exec (.write a d) s =
      .next (steps ((writeTable s.cfg (Bits.ofBitVec a)).take m) ((Instr.write a d).accepted s)).resetEvent := by
  have hlen : m < ((Instr.write a d).uops s.cfg).length := hm
  rw [exec_of_reset _ hrst, if_pos hlen]
  rfl

/-- A reset right after the row that starts the pulse, or after its wait of T_STROBE as well. -/
theorem exec_write_cut_in_pulse {s : State} {a : Addr} {d : Byte} {n : Nat} {rs : List Nat} (hquiet : s.quietPins)
    (hmem : s.memInv) (hfree : s.deviceFree) (hreach : s.cfg.reaches a) (hrst : s.rst = n :: rs)
    (hn : n = 65 ∨ n = 66) :
    ∃ t b v, exec (.write a d) s = .next t ∧ CutPulse s t a d b v ∧ (n = 66 → b + s.cfg.tStrobe ≤ t.now) := by
  have hready := pulseReady_write a d hquiet
  have hbegin := steps_take_succ (us := writeTable s.cfg (Bits.ofBitVec a)) (k := 63) rfl ((Instr.write a d).accepted s)
  have hwait := steps_take_succ (us := writeTable s.cfg (Bits.ofBitVec a)) (k := 64) rfl ((Instr.write a d).accepted s)
  have hknown : Bits.known (Bits.ofBitVec a) = true := Bits.known_ofBitVec a
  rw [← hready.storage] at hknown
  obtain ⟨b, hpulse, hb, htrace, hctrl⟩ := pulse_start hready.idle hready.ce hready.oe hknown
  rw [← hbegin] at hpulse hb htrace hctrl
  rcases hn with rfl | rfl
  · obtain ⟨v, hcut⟩ := cutPulse hready hmem hfree hreach hpulse (by rw [htrace])
    exact ⟨_, b, v, exec_write_cut a d hrst (by decide), hcut, nofun⟩
  · obtain ⟨_, hpulse', -, hnow, htrace', -⟩ := pulse_wait s.cfg.tStrobe hpulse (by rw [hctrl, hready.ce])
      (by rw [hctrl, hready.oe]) (by rw [hctrl]) hknown
    rw [← hwait] at hpulse' hnow htrace'
    obtain ⟨v, hcut⟩ := cutPulse hready hmem hfree hreach hpulse'
      (by rw [htrace', htrace]; exact List.prefix_append _ _)
    refine ⟨_, b, v, exec_write_cut a d hrst (by decide), hcut, fun _ => ?_⟩
    rw [← hb, State.resetEvent_now]
    exact hnow.trans (Nat.le_add_right _ _)

/-- With no reset planned after the pulse WRITE stores its byte (R148); what the plan of resets is does not matter. -/
theorem write_whole_stored {s : State} {a : Addr} {d : Byte} (hrest : s.atRest) (hmem : s.memInv) (hfree : s.deviceFree)
    (hreach : s.cfg.reaches a) (hwidth : s.cfg.tWpDev ≤ s.cfg.tStrobe) (c : Nat) :
    Memory.read (steps (writeTable s.cfg (Bits.ofBitVec a)) ((Instr.write a d).accepted s)).dev.mem c =
      if c = s.cfg.cellOf a then d else Memory.read s.dev.mem c := by
  obtain ⟨t, _, _, _, _, _, _, _, _, _, h⟩ := write_between' (s := { s with rst := [] }) a d hrest rfl
  have hrun := h.run.symm.trans (exec_without_plan (.write a d) s)
  rw [Host.Outcome.next.injEq] at hrun
  have huops : (Instr.write a d).uops s.cfg = writeTable s.cfg (Bits.ofBitVec a) := rfl
  have hdev : t.dev = (steps (writeTable s.cfg (Bits.ofBitVec a)) ((Instr.write a d).accepted s)).dev := by
    rw [hrun, huops]
  rw [← hdev]
  exact h.stored hmem hfree hreach hwidth c

/-- The array after the pulse's end is the one WRITE leaves. -/
theorem write_cut_after_pulse (c : Config) (a : Bits 16) (s : State) {m : Nat} (hm : 66 ≤ m) :
    (steps ((writeTable c a).take m) s).resetEvent.dev.mem = (steps (writeTable c a) s).dev.mem := by
  obtain ⟨j, rfl⟩ := Nat.exists_eq_add_of_le hm
  have hend : (steps ((writeTable c a).take 66) s).resting (steps ((writeTable c a).take 66) s).dev.mem := by
    have hrow := steps_take_succ (us := writeTable c a) (k := 65) rfl s
    have hwe : (steps ((writeTable c a).take 66) s).ctrl.weN = true := by
      rw [hrow, ctrl_fixed rfl]
      rfl
    refine ⟨?_, hwe, rfl⟩
    rw [hrow, pulseActive_ctrlStep, ← hrow, Ctrl.strobing, Ctrl.we, hwe]
    exact Bool.and_false _
  have hafter : Uop.setWe .asserted ∉ (writeTable c a).drop 66 := by
    rw [writeTable_drop_pulse]
    simp
  have hwhole : steps (writeTable c a) s = steps ((writeTable c a).drop 66) (steps ((writeTable c a).take 66) s) := by
    rw [← steps_append, List.take_append_drop]
  obtain ⟨-, -, hmem⟩ := resting_steps hafter hend
  rw [List.take_add, steps_append, hwhole, hmem]
  exact resting_resetEvent (resting_steps (fun h => hafter (List.mem_of_mem_take h)) hend)

/-- Settles O58: the reset falls within the pulse, after its end or before its start. -/
theorem resetWithinTheWritePulse : Obligations.ResetWithinTheWritePulse := by
  intro s a d n rs hrest hmem hfree hreach hrst
  have hrest' := hrest
  obtain ⟨-, -, hquiet⟩ := hrest'
  refine ⟨fun hn => ?_, fun ⟨h67, h69⟩ hwidth => ?_, fun ⟨h1, h64⟩ => ?_⟩
  · obtain ⟨t, b, v, hrun, h, hstrobe⟩ := exec_write_cut_in_pulse (d := d) hquiet hmem hfree hreach hrst hn
    exact ⟨t, b, v, hrun, h.phase, h.begin_le, h.le_now, h.start, h.event, hstrobe, h.busy, h.ended, h.cells, h.long,
      h.short⟩
  · obtain ⟨m, rfl⟩ := Nat.exists_eq_add_of_le' (show 1 ≤ n by omega)
    refine ⟨_, exec_write_cut a d hrst (by omega), by rw [State.resetEvent_ctrl]; rfl, fun c => ?_⟩
    rw [write_cut_after_pulse _ _ _ (by omega)]
    exact write_whole_stored hrest hmem hfree hreach hwidth c
  · obtain ⟨m, rfl⟩ := Nat.exists_eq_add_of_le' h1
    obtain ⟨hwe, -, -, hactive, -⟩ := hquiet
    refine ⟨_, exec_write_cut a d hrst (by omega), by rw [State.resetEvent_ctrl]; rfl, ?_⟩
    have hbefore : ((Instr.write a d).accepted s).resting s.dev.mem := ⟨hactive, hwe, rfl⟩
    exact resting_resetEvent (resting_steps (setWe_asserted_not_mem_before_pulse _ _ (by omega)) hbefore)

end Sys2Proof.Machine
